-- ==== Sys2Proof/Word.lean ====
section
/-! DEFINITION. The word types of the controller: everything is an unsigned 8-bit byte or a 3-bit pin index
(00_scope.md R10, 10_state.md R29). -/

namespace Sys2Proof

/-- A RegisterByte: bit `i` belongs to pin `i` (R10). -/
abbrev Byte := BitVec 8

/-- A PinIndex as the interrupt queue holds it: 3 bits, 0 to 7 (R29). -/
abbrev PinIndex := BitVec 3

end Sys2Proof
end

