-- ==== Sys2Proof/Syntax.lean ====
section
/-! DEFINITION. The ten commands of spec/opcode_table.json (30_encoding.md R80). -/

namespace Sys2Proof

/-- One constructor per row of the opcode table. The operand is the number an assembler takes (R86): a pin count for
INIT (R82), a pin index for the pin commands (R81). -/
inductive Instr where
  | init (n : Nat)
  | read (p : Nat)
  | setOn (p : Nat)
  | setOff (p : Nat)
  | toggle (p : Nat)
  | allOn
  | allOff
  | cfgInIrq (p : Nat)
  | pollStart
  | pollStop
deriving DecidableEq, Repr

end Sys2Proof
end

