-- ==== Sys2Proof/WellFormed.lean ====
section
/-! DEFINITION. Which commands can be encoded: "An operand outside 0 to 15 cannot be encoded, and an assembler refuses
it" (30_encoding.md R86). An operand of 8 to 15 to a pin command, or an illegal pin count, is well formed: the command
is encodable and answers with an error when run (R81, R82). -/

namespace Sys2Proof

/-- The operand fits the 4-bit ARG field (R78, R86). -/
def fitsArg (n : Nat) : Bool := decide (n < 16)

/-- A command an assembler accepts. -/
def Instr.wf : Instr → Bool
  | .init n => fitsArg n
  | .read p => fitsArg p
  | .setOn p => fitsArg p
  | .setOff p => fitsArg p
  | .toggle p => fitsArg p
  | .allOn => true
  | .allOff => true
  | .cfgInIrq p => fitsArg p
  | .pollStart => true
  | .pollStop => true

end Sys2Proof
end

