-- ==== Sys2Proof/Decode.lean ====
section
/-! DEFINITION. The decoder of 30_encoding.md R88, total on every byte, and the encoder written from the opcode map of
R80. -/

namespace Sys2Proof

/-- Why bytes are no command (R84). -/
inductive DecodeReject where
  /-- OP is 0x0 or 0xB to 0xF. -/
  | reservedOpcode (op : Nat)
  /-- OP takes no argument and ARG is not zero (R83). -/
  | nonzeroArgument (op arg : Nat)
  /-- There is no byte to decode. -/
  | noByte
deriving DecidableEq, Repr

/-- `w[7:4]` (R78). -/
def opField (w : Byte) : Nat := (w.extractLsb' 4 4).toNat

/-- `w[3:0]`, zero-extended (R78, R81, R82). -/
def argField (w : Byte) : Nat := (w.extractLsb' 0 4).toNat

/-- A command that takes no argument: ARG must be 0 (R83). -/
def needsZeroArg (i : Instr) (op arg : Nat) : Except DecodeReject Instr :=
  if arg = 0 then .ok i else .error (.nonzeroArgument op arg)

/-- `decode(w)` of R88: a command, or ILLEGAL with its reason. -/
def decode (w : Byte) : Except DecodeReject Instr :=
  let op := opField w
  let arg := argField w
  match op with
  | 0x1 => .ok (.init arg)
  | 0x2 => .ok (.read arg)
  | 0x3 => .ok (.setOn arg)
  | 0x4 => .ok (.setOff arg)
  | 0x5 => .ok (.toggle arg)
  | 0x6 => needsZeroArg .allOn op arg
  | 0x7 => needsZeroArg .allOff op arg
  | 0x8 => .ok (.cfgInIrq arg)
  | 0x9 => needsZeroArg .pollStart op arg
  | 0xA => needsZeroArg .pollStop op arg
  | _ => .error (.reservedOpcode op)

/-- "A decoder always takes exactly one byte per command" (R78, R85): the command and the bytes after it. -/
def decodeBytes : List Byte → Except DecodeReject (Instr × List Byte)
  | [] => .error .noByte
  | w :: rest =>
    match decode w with
    | .ok i => .ok (i, rest)
    | .error r => .error r

/-- The operation code of a command (R80). -/
def Instr.opcode : Instr → Nat
  | .init _ => 0x1
  | .read _ => 0x2
  | .setOn _ => 0x3
  | .setOff _ => 0x4
  | .toggle _ => 0x5
  | .allOn => 0x6
  | .allOff => 0x7
  | .cfgInIrq _ => 0x8
  | .pollStart => 0x9
  | .pollStop => 0xA

/-- The argument of a command; 0 where ARG must be zero (R80, R83). -/
def Instr.arg : Instr → Nat
  | .init n => n
  | .read p => p
  | .setOn p => p
  | .setOff p => p
  | .toggle p => p
  | .allOn => 0
  | .allOff => 0
  | .cfgInIrq p => p
  | .pollStart => 0
  | .pollStop => 0

/-- The command word: OP in bits 7:4 and ARG in bits 3:0 (R78). -/
def encode (i : Instr) : Byte := BitVec.ofNat 4 i.opcode ++ BitVec.ofNat 4 i.arg

/-- The instruction the decoder reads from a word of the opcode table, its bits above `nbits` zero. -/
def decodeTableWord (nbits w : Nat) : Option Instr :=
  (decode (BitVec.ofNat 8 (w % 2 ^ nbits))).toOption

end Sys2Proof
end

