-- ==== Sys2Proof/Config.lean ====
section
/-! DEFINITION. The implementation parameters of 00_scope.md R8: the register map of the target, the decode policy and
the depth of the interrupt queue (held in the state's read-only field `cfg`, so that a claim is about every value of
them: log 3), and the two constants that no rule reads (log 4). -/

namespace Sys2Proof

/-- The eleven target registers, by the short names of R46, in the order of the source's §3. -/
inductive Reg where
  | dir | ipol | gpinten | defval | intcon | iocon | gppu | intf | intcap | port | olat
deriving DecidableEq, Repr

/-- All eleven registers (R45). -/
def Reg.all : List Reg :=
  [.dir, .ipol, .gpinten, .defval, .intcon, .iocon, .gppu, .intf, .intcap, .port, .olat]

/-- The parameter `REG_ADDR` (R46): one 8-bit address for each register name. -/
structure RegMap where
  dir     : Byte
  ipol    : Byte
  gpinten : Byte
  defval  : Byte
  intcon  : Byte
  iocon   : Byte
  gppu    : Byte
  intf    : Byte
  intcap  : Byte
  port    : Byte
  olat    : Byte
deriving DecidableEq, Repr

/-- `REG_ADDR(n)`, written `A_<name>` in the rules (R46). -/
def RegMap.addr (m : RegMap) : Reg → Byte
  | .dir => m.dir
  | .ipol => m.ipol
  | .gpinten => m.gpinten
  | .defval => m.defval
  | .intcon => m.intcon
  | .iocon => m.iocon
  | .gppu => m.gppu
  | .intf => m.intf
  | .intcap => m.intcap
  | .port => m.port
  | .olat => m.olat

/-- "The eleven values must be distinct" (R46). -/
abbrev RegMap.wf (m : RegMap) : Prop := (Reg.all.map m.addr).Nodup

/-- The default of `REG_ADDR`: consecutive addresses in the order of §3 (R46, decision D3 of the spec). -/
def RegMap.default : RegMap where
  dir     := 0x00
  ipol    := 0x01
  gpinten := 0x02
  defval  := 0x03
  intcon  := 0x04
  iocon   := 0x05
  gppu    := 0x06
  intf    := 0x07
  intcap  := 0x08
  port    := 0x09
  olat    := 0x0A

/-- The parameter `DECODE_POLICY` (R121, R122). -/
inductive DecodePolicy where
  | lowestFirst
  | allAscending
deriving DecidableEq, Repr

/-- The parameters a rule reads (R8). `irqDepth` is `IRQQ_DEPTH`: none is unbounded (R126). -/
structure Params where
  regAddr      : RegMap
  decodePolicy : DecodePolicy
  irqDepth     : Option Nat
deriving DecidableEq, Repr

/-- Distinct addresses (R46), and a queue depth that is "unbounded (default), or a positive integer" (R8). -/
abbrev Params.wf (p : Params) : Prop := p.regAddr.wf ∧ p.irqDepth ≠ some 0

/-- The defaults of R8. -/
def Params.default : Params where
  regAddr      := RegMap.default
  decodePolicy := .lowestFirst
  irqDepth     := none

/-- `TARGET_ADDR`: OPEN in the spec (R8, D32), so without a value here; the adapter uses it, no rule reads it (log 4). -/
opaque Config.targetAddr : Nat

/-- `POLL_QUANTUM`, the reference value in milliseconds. The model measures no time (R128, D31; log 4). -/
def Config.pollQuantumMs : Nat := 100

end Sys2Proof
end

