-- ==== Sys2Proof/Machine/State.lean ====
section
/-! DEFINITION. The state of the machine as plain data: the controller state `c` of 10_state.md R15, the target's
register file `T` (R32), the parameters (R34), and the list of agent steps that are still to come (log 1). -/

namespace Sys2Proof.Machine

/-- `c.cs`: whether a command is running (R20). -/
inductive CsState where
  | idle | busy
deriving DecidableEq, Repr

/-- The position inside a running command that `c.tx` does not tell (R20; log 7): before the command's checks; at
`acquire()`; holding the lock, at the transaction with index `c.tx`; lock released, about to write the response. -/
inductive CsPhase where
  | start | acquire | body | respond
deriving DecidableEq, Repr

/-- `c.ps`: the poll sequencer's micro-state (R22). -/
inductive PsState where
  | off | head | lock | flags | emit | ack | sleep
deriving DecidableEq, Repr

/-- `c.owner`: which sequencer holds the bus lock (R23). -/
inductive Owner where
  | free | cs | ps
deriving DecidableEq, Repr

/-- `c.pollState` (R27). -/
inductive PollState where
  | idle | fired
deriving DecidableEq, Repr

/-- A transaction a sequencer has issued (R24): a write of a data byte, or a read. -/
inductive Txn where
  | write (addr data : Byte)
  | read (addr : Byte)
deriving DecidableEq, Repr

/-- The response record (R36). -/
structure Response where
  code : BitVec 3
  data : Byte
  info : Byte
deriving DecidableEq, Repr

/-- What IRQ_POP returns (R39). -/
structure PopRecord where
  valid : Bool
  pin   : PinIndex
deriving DecidableEq, Repr

/-- The two sequencers, the bus's only users (R58). -/
inductive Sequencer where
  | cs | ps
deriving DecidableEq, Repr

/-- How the adapter completes a transaction (R61): OK, or ERR with the second draw, whether the effect at the target
happened all the same. -/
inductive BusOutcome where
  | ok
  | err (took : Bool)
deriving DecidableEq, Repr

/-- The draws of a controller reset (R158): for each sequencer's abandoned transaction whether its effect at the target
happened, and the scratch, which is unspecified after reset (R21, R22). -/
structure ResetDraw where
  csTook   : Bool
  psTook   : Bool
  cmd      : Byte
  tx       : Byte
  v        : Byte
  i        : Nat
  acc      : Byte
  phase    : CsPhase
  f        : Byte
  emitList : List PinIndex
deriving DecidableEq, Repr

/-- One step of one agent (R7), with the draws it takes. -/
inductive Event where
  /-- H submits a command word (R79). -/
  | submit (w : Byte)
  /-- H pops the interrupt queue (R39). -/
  | pop
  /-- H resets the controller (R158). -/
  | reset (d : ResetDraw)
  /-- CS takes its next local step. -/
  | csTurn
  /-- PS takes its next local step. -/
  | psTurn
  /-- BA completes the pending transaction of a sequencer (R58, R61). -/
  | complete (who : Sequencer) (o : BusOutcome)
  /-- TE sets a target register out of band (R66). -/
  | env (n : Reg) (b : Byte)
deriving DecidableEq, Repr

/-- The target's registers by address, rising, without the bytes that are 0x00 (log 5). -/
abbrev Memory := List Host.Cell

/-- The state. Names are those of 10_state.md R15 less the `c.`. -/
structure State where
  /-- `c.ready` (R16). -/
  ready     : Bool
  /-- `c.pinCount` (R17). -/
  pinCount  : BitVec 4
  /-- `c.snapLen` (R18). -/
  snapLen   : BitVec 4
  /-- `c.snap` (R19). -/
  snap      : Byte
  /-- `c.cs` (R20). -/
  cs        : CsState
  /-- `c.cmd` (R21). -/
  cmd       : Byte
  /-- `c.tx` (R21). -/
  tx        : Byte
  /-- `c.v` (R21). -/
  v         : Byte
  /-- `c.i` (R21). -/
  i         : Nat
  /-- `c.acc` (R21). -/
  acc       : Byte
  /-- The rest of the position inside the command (R20; log 7). -/
  phase     : CsPhase
  /-- `c.ps` (R22). -/
  ps        : PsState
  /-- `c.f` (R22). -/
  f         : Byte
  /-- `c.emitList` (R22). -/
  emitList  : List PinIndex
  /-- `c.owner` (R23). -/
  owner     : Owner
  /-- `c.pend.CS` (R24). -/
  pendCs    : Option Txn
  /-- `c.pend.PS` (R24). -/
  pendPs    : Option Txn
  /-- `c.pollRun` (R25). -/
  pollRun   : Bool
  /-- `c.stopReq` (R26). -/
  stopReq   : Bool
  /-- `c.pollState` (R27). -/
  pollState : PollState
  /-- `c.pollErr` (R28). -/
  pollErr   : BitVec 3
  /-- `c.irqQ` (R29), head first. -/
  irqQ      : List PinIndex
  /-- `c.resp` (R36). -/
  resp      : Response
  /-- `T` (R32, R63). -/
  mem       : Memory
  /-- The parameters (R34; log 3). -/
  cfg       : Params
  /-- The MODEL's own: what the last IRQ_POP gave the host (R39; log 12). -/
  hostPop   : PopRecord
  /-- The MODEL's own: the agent steps still to come, in order (R7, R12; log 1). -/
  inputs    : List Event
deriving DecidableEq, Repr

/-- Why the machine stops. The controller itself has no fault state: every error is a response (R131). -/
inductive Fault where
  /-- Raised by BA when a pending transaction, or one abandoned at reset, names an address that is no target register.
  The controller never issues one (R71), so no step from a state that meets `PendMapped` raises it. Safe (log 13). -/
  | unmappedRegister (addr : Byte)
deriving DecidableEq, Repr

/-- Why an instruction has no meaning. -/
inductive Refusal where
  /-- Raised by `exec` for an instruction whose meaning is not written yet. Safe. -/
  | notModelled (mnemonic : String)
deriving DecidableEq, Repr

/-- The answer of a step. -/
abbrev Result := Host.Outcome State Fault Refusal

/-- The machine right after reset (R15, R158). The target's registers (R63; log 5), the scratch (R21, R22; log 6), the
parameters (R8; log 3), `hostPop` (log 12) and `inputs` (log 1) are at the values the log names. -/
def State.reset : State where
  ready     := false
  pinCount  := 0
  snapLen   := 0
  snap      := 0x00
  cs        := .idle
  cmd       := 0x00
  tx        := 0x00
  v         := 0x00
  i         := 0
  acc       := 0x00
  phase     := .start
  ps        := .off
  f         := 0x00
  emitList  := []
  owner     := .free
  pendCs    := none
  pendPs    := none
  pollRun   := false
  stopReq   := false
  pollState := .idle
  pollErr   := 0
  irqQ      := []
  resp      := ⟨0, 0x00, 0x00⟩
  mem       := []
  cfg       := Params.default
  hostPop   := ⟨false, 0⟩
  inputs    := []

end Sys2Proof.Machine
end

