-- ==== Sys2Proof/Machine/Flags.lean ====
section
/-! DEFINITION. The error codes of 60_exceptions.md R134 and the read-only views of 10_state.md R37, R38 and R40. -/

namespace Sys2Proof.Machine

/-- The codes of a response (R134). -/
inductive ErrCode where
  | ok | busFail | invalidPinIndex | invalidPinCount | partialConfig | illegalCommand | notInitialized | illegalState
deriving DecidableEq, Repr

/-- The numbers of R134. -/
def ErrCode.code : ErrCode → BitVec 3
  | .ok => 0
  | .busFail => 1
  | .invalidPinIndex => 2
  | .invalidPinCount => 3
  | .partialConfig => 4
  | .illegalCommand => 5
  | .notInitialized => 6
  | .illegalState => 7

/-- `STATUS` (R37): POLL_ERR in 7:5, FIRED 4, STOP_REQ 3, POLL_RUN 2, BUSY 1, READY 0. -/
def status (s : State) : Byte :=
  s.pollErr ++ BitVec.ofBool (s.pollState == .fired) ++ BitVec.ofBool s.stopReq ++ BitVec.ofBool s.pollRun
    ++ BitVec.ofBool (s.cs == .busy) ++ BitVec.ofBool s.ready

/-- `PINCOUNT` (R38). -/
def pinCountView (s : State) : BitVec 4 := s.pinCount

/-- `SNAPLEN` (R38). -/
def snapLenView (s : State) : BitVec 4 := s.snapLen

/-- `SNAP` (R38). -/
def snapView (s : State) : Byte := s.snap

/-- `IRQ_COUNT` (R40). -/
def irqCount (s : State) : Nat := s.irqQ.length

end Sys2Proof.Machine
end

