-- ==== Sys2Proof/Machine/Operands.lean ====
section
/-! DEFINITION. The bit-mask algebra and the flag decoder: 00_scope.md R10, 41_pin_mutation.md R103 and R109,
43_interrupt_poll.md R121, R122 and R129. Integer shifts and bit scans only. -/

namespace Sys2Proof.Machine

/-- `trunc8(v) = v & 0xFF` (R10). -/
def trunc8 (v : Nat) : Byte := BitVec.ofNat 8 v

/-- `mask(p) = trunc8(1 << p)` (R10). -/
def mask (p : Nat) : Byte := trunc8 (1 <<< p)

/-- `nmask(p) = trunc8(~mask(p))` (R10, R101). -/
def nmask (p : Nat) : Byte := ~~~ (mask p)

/-- `allMask(n) = trunc8((1 << n) - 1)` (R103). -/
def allMask (n : Nat) : Byte := trunc8 ((1 <<< n) - 1)

/-- `(v & mask(p)) >> p` (R98). -/
def isolateBit (v : Byte) (p : Nat) : Byte := (v &&& mask p) >>> p

/-- `w` with bit `p` set to `b`: the assignments `c.acc[c.i] <- …` (R89) and `c.snap[p] <- b` (R98). -/
def putBit (w : Byte) (p : Nat) (b : Bool) : Byte := if b then w ||| mask p else w &&& nmask p

/-- A pin count from 1 to 8 is legal (R82). -/
def legalCount (n : Nat) : Bool := decide (1 ≤ n) && decide (n ≤ 8)

/-- A pin index from 0 to 7 is legal (R97). -/
def legalPin (p : Nat) : Bool := decide (p ≤ 7)

/-- `setbits(v)`: the indices of the set bits, ascending (R10). -/
def setbits (v : Byte) : List PinIndex :=
  ((List.range 8).filter (fun i => v.getLsbD i)).map (BitVec.ofNat 3)

/-- `lsb(v)`: the least set bit of a non-zero byte (R10); none for 0, to which it is never applied (R119, R121). -/
def lsb (v : Byte) : Option PinIndex :=
  ((List.range 8).find? (fun i => v.getLsbD i)).map (BitVec.ofNat 3)

/-- `popcount(v)` (R10). -/
def popcount (v : Byte) : Nat := ((List.range 8).filter (fun i => v.getLsbD i)).length

/-- `decodeFlags(f)` under the two policies (R121, R122). -/
def decodeFlags : DecodePolicy → Byte → List PinIndex
  | .lowestFirst, f => (lsb f).toList
  | .allAscending, f => setbits f

end Sys2Proof.Machine
end

