-- ==== Sys2Proof/Machine/Ops.lean ====
section
/-! DEFINITION. The named operations over the state: the target's register file (20_memory.md R63 to R66), the bus lock
(R74), issuing a transaction (R58), ending a command with a response or an error (60_exceptions.md R132, R133), and
accepting a command word (30_encoding.md R79). -/

namespace Sys2Proof.Machine

/-! The target's register file as bytes by address. -/

/-- What an address that is not listed reads as (log 5). -/
def Memory.blank : Byte := 0x00

/-- The byte at an address. -/
def Memory.read : Memory → Nat → Byte
  | [], _ => Memory.blank
  | (b, x) :: m, a => if b = a then x else Memory.read m a

/-- `m` with the byte at `a` set to `v`, in canonical form. -/
def Memory.write : Memory → Nat → Byte → Memory
  | [], a, v => if v = Memory.blank then [] else [(a, v)]
  | (b, x) :: m, a, v =>
    if a < b then (if v = Memory.blank then (b, x) :: m else (a, v) :: (b, x) :: m)
    else if a = b then (if v = Memory.blank then m else (a, v) :: m)
    else (b, x) :: Memory.write m a v

/-- The canonical form: addresses strictly rising, and no byte listed that equals what an unlisted address reads as. -/
abbrev Memory.wf (m : Memory) : Prop :=
  m.Pairwise (fun c d => c.1 < d.1) ∧ ∀ c ∈ m, c.2 ≠ Memory.blank

/-- The register name `n` with `REG_ADDR(n) = a` (R64); none for an address that is no register (R71). -/
def regAt? (rm : RegMap) (a : Byte) : Option Reg := Reg.all.find? (fun n => rm.addr n == a)

/-- The address of a register as a key of the register file. -/
def regKey (rm : RegMap) (n : Reg) : Nat := (rm.addr n).toNat

/-- `T[n]` (R63). -/
def State.target (s : State) (n : Reg) : Byte := s.mem.read (regKey s.cfg.regAddr n)

/-- The target's registers replaced. -/
def setMem (m : Memory) (s : State) : State := { s with mem := m }

/-- `T[n] <- b`, the environment's step (R66). -/
def envWrite (n : Reg) (b : Byte) (s : State) : State := setMem (s.mem.write (regKey s.cfg.regAddr n) b) s

/-! The bus lock (R74). -/

/-- The lock's value while sequencer `who` holds it. -/
def Sequencer.owner : Sequencer → Owner
  | .cs => .cs
  | .ps => .ps

/-- `acquire()` once it is enabled, that is when the lock is FREE. -/
def takeLock (who : Sequencer) (s : State) : State := { s with owner := who.owner }

/-- `release()` by `who`, which requires `c.owner = who` (log 16). -/
def release (who : Sequencer) (s : State) : State :=
  { s with owner := if s.owner = who.owner then .free else s.owner }

/-! Transactions (R24, R58). -/

/-- `c.pend` of a sequencer. -/
def State.pend (s : State) : Sequencer → Option Txn
  | .cs => s.pendCs
  | .ps => s.pendPs

/-- `c.pend` of a sequencer replaced. -/
def setPend (who : Sequencer) (t : Option Txn) (s : State) : State :=
  { s with
    pendCs := (match who with | .cs => t | .ps => s.pendCs)
    pendPs := (match who with | .cs => s.pendPs | .ps => t) }

/-- A sequencer may issue when it holds the lock and has no transaction pending (R58). -/
def canIssue (who : Sequencer) (s : State) : Bool :=
  decide (s.owner = who.owner) && decide (s.pend who = none)

/-- The issue step of R58; not enabled, it changes nothing (log 16). -/
def issue (who : Sequencer) (t : Txn) (s : State) : State :=
  if canIssue who s then setPend who (some t) s else s

/-! Command ends (R132, R133) and the command port (R79). -/

/-- `respond(code, data, info)` (R132). -/
def respond (e : ErrCode) (data info : Byte) (s : State) : State :=
  { s with resp := ⟨e.code, data, info⟩, cs := .idle }

/-- `raise E(info)` (R133): release the lock if the CS holds it, write `{code(E), 0x00, info}`, return to IDLE. -/
def raise (e : ErrCode) (info : Byte) (s : State) : State :=
  { release .cs s with resp := ⟨e.code, 0x00, info⟩, cs := .idle }

/-- A command word is accepted (R79). -/
def accept (w : Byte) (s : State) : State := { s with cmd := w, tx := 0x00, cs := .busy, phase := .start }

/-! Scratch and schedule. -/

/-- `step <- k` of the command sequencer (R11). -/
def setPhase (p : CsPhase) (s : State) : State := { s with phase := p }

/-- The agent steps still to come, replaced (log 1). -/
def setInputs (l : List Event) (s : State) : State := { s with inputs := l }

/-- The handle made unusable, its count and snapshot discarded (R89, R92). -/
def discardHandle (s : State) : State :=
  { s with ready := false, pinCount := 0, snapLen := 0, snap := 0x00 }

/-- The handle INIT leaves (R89, R93). -/
def publishHandle (count : Nat) (len : Nat) (snap : Byte) (s : State) : State :=
  { s with ready := true, pinCount := BitVec.ofNat 4 count, snapLen := BitVec.ofNat 4 len, snap := snap }

end Sys2Proof.Machine
end

