-- ==== Sys2Proof/Machine/Bus.lean ====
section
/-! DEFINITION. The bus adapter and the target: the calls a transaction makes (20_memory.md R58 to R60), what the target
does with one (R64, R65), and how a transaction completes (R61). -/

namespace Sys2Proof.Machine

/-- The adapter's interface (R58): `write(bytes)` and `writeThenRead(writeBytes, readLen)`, to the chip at
`Config.targetAddr`. -/
inductive AdapterCall where
  | write (bytes : List Byte)
  | writeThenRead (bytes : List Byte) (readLen : Nat)
deriving DecidableEq, Repr

/-- The bytes of a transaction: the register address goes before the data byte (R59, R60, R68). -/
def Txn.call : Txn → AdapterCall
  | .write a v => .write [a, v]
  | .read a => .writeThenRead [a] 1

/-- The register address a transaction names. -/
def Txn.addr : Txn → Byte
  | .write a _ => a
  | .read a => a

/-- What a sequencer is told (R11): `ERR`, `OK` of a write, or `OK(byte)` of a read. -/
inductive BusReturn where
  | err
  | wrote
  | data (b : Byte)
deriving DecidableEq, Repr

/-- The write `{a, v}` at the target (R64). -/
def targetWrite (rm : RegMap) (a v : Byte) (m : Memory) : Option Memory :=
  match regAt? rm a with
  | none => none
  | some _ => some (m.write a.toNat v)

/-- The side effect of a read of address `a`: reading INTCAP sets INTF to 0x00 (R65). -/
def readEffect (rm : RegMap) (a : Byte) (m : Memory) : Memory :=
  if regAt? rm a = some .intcap then m.write (regKey rm .intf) 0x00 else m

/-- The target answers a call: its registers after the call when the call takes effect there, and the byte read.
None for an address that is no register, or a frame the controller never makes (R71). -/
def targetCall (rm : RegMap) (m : Memory) : AdapterCall → Option (Memory × BusReturn)
  | .write [a, v] =>
    match targetWrite rm a v m with
    | none => none
    | some m' => some (m', .wrote)
  | .writeThenRead [a] 1 =>
    match regAt? rm a with
    | none => none
    | some _ => some (readEffect rm a m, .data (m.read a.toNat))
  | _ => none

/-- The completion of a transaction with the outcome BA draws (R61): with OK it takes effect and its result is returned;
with ERR its effect happens or not, as the second draw says, and ERR is returned. -/
def busRun (rm : RegMap) (m : Memory) (t : Txn) (o : BusOutcome) : Option (Memory × BusReturn) :=
  match targetCall rm m t.call with
  | none => none
  | some (m', r) =>
    match o with
    | .ok => some (m', r)
    | .err true => some (m', .err)
    | .err false => some (m, .err)

/-- The complete step of BA for sequencer `who` (R58): it applies the pending transaction to the target, returns the
outcome, here to `back`, and clears the pending entry. With nothing pending the step is not enabled. -/
def completeTxn (who : Sequencer) (back : BusReturn → State → State) (o : BusOutcome) (s : State) : Result :=
  match s.pend who with
  | none => .next s
  | some t =>
    match busRun s.cfg.regAddr s.mem t o with
    | none => .fault (.unmappedRegister t.addr)
    | some (m, r) => .next (back r (setPend who none (setMem m s)))

/-- What a transaction abandoned at reset leaves at the target (R158): as for one that completes with ERR. -/
def abandon (rm : RegMap) (took : Bool) (m : Memory) : Option Txn → Option Memory
  | none => some m
  | some t =>
    match busRun rm m t (.err took) with
    | none => none
    | some (m', _) => some m'

end Sys2Proof.Machine
end

