-- ==== Sys2Proof/Machine/Poll.lean ====
section
/-! DEFINITION. The poll sequencer: one step per row of the table of 43_interrupt_poll.md R116. -/

namespace Sys2Proof.Machine

/-- The queue has room for one entry (R126). -/
def queueRoom (s : State) : Bool :=
  match s.cfg.irqDepth with
  | none => true
  | some d => decide (s.irqQ.length < d)

/-- `emit(p)`: append to the tail (R126). -/
def emit (p : PinIndex) (s : State) : State := { s with irqQ := s.irqQ ++ [p] }

/-- The poll sequencer's micro-state replaced. -/
def setPs (p : PsState) (s : State) : State := { s with ps := p }

/-- The loop is over: flags cleared and the sequencer OFF (R117, R125). -/
def pollOff (s : State) : State :=
  { s with pollRun := false, stopReq := false, pollState := .idle, ps := .off }

/-- PS at HEAD (R117). -/
def psHead (s : State) : State := if s.stopReq then pollOff s else setPs .lock s

/-- PS at LOCK (R118): enabled only when the lock is FREE; acquire and issue the INTF read. -/
def psLock (s : State) : State :=
  if s.owner = .free then setPs .flags (issue .ps (.read (s.cfg.regAddr.addr .intf)) (takeLock .ps s)) else s

/-- PS at EMIT (R123): deliver one index if the queue has room (R126), or issue the INTCAP read when none is left. -/
def psEmit (s : State) : State :=
  match s.emitList with
  | p :: rest => if queueRoom s then { emit p s with emitList := rest } else s
  | [] =>
    if canIssue .ps s then setPs .ack (issue .ps (.read (s.cfg.regAddr.addr .intcap)) s) else s

/-- The PS's next local step (R116). In FLAGS and ACK it waits for BA; OFF, it takes no step. -/
def psTurn (s : State) : State :=
  match s.ps with
  | .off => s
  | .head => psHead s
  | .lock => psLock s
  | .flags => s
  | .emit => psEmit s
  | .ack => s
  | .sleep => setPs .head s

/-- PS at FLAGS, completion OK(f) (R119, R120). -/
def psFlags (f : Byte) (s : State) : State :=
  if f = 0x00 then { release .ps s with pollState := .idle, ps := .sleep }
  else { s with f := f, pollState := .fired, emitList := decodeFlags s.cfg.decodePolicy f, ps := .emit }

/-- PS at ACK, completion OK: the byte is discarded (R124). -/
def psAck (s : State) : State := { release .ps s with pollState := .idle, ps := .head }

/-- PS at FLAGS or ACK, completion ERR (R125). -/
def psFail (s : State) : State := { pollOff (release .ps s) with pollErr := ErrCode.busFail.code }

/-- What the PS does with the outcome BA returns (R116). It waits for one only in FLAGS and ACK. -/
def psReturn (r : BusReturn) (s : State) : State :=
  match s.ps, r with
  | .flags, .data f => psFlags f s
  | .flags, .err => psFail s
  | .ack, .data _ => psAck s
  | .ack, .err => psFail s
  | _, _ => s

end Sys2Proof.Machine
end

