-- ==== Sys2Proof/Machine/Agents.lean ====
section
/-! DEFINITION. The host's steps (10_state.md R39, R41; 70_reset_and_hazards.md R158), the steps of every agent other than
the command sequencer, and the run of one command among them (00_scope.md R7, R12; log 1, 2). -/

namespace Sys2Proof.Machine

/-- IRQ_POP (R39): the head entry leaves the queue and goes to the host; of an empty queue the host gets `{0, 0}` and
nothing else changes. -/
def irqPop (s : State) : State :=
  match s.irqQ with
  | [] => { s with hostPop := ⟨false, 0⟩ }
  | p :: rest => { s with irqQ := rest, hostPop := ⟨true, p⟩ }

/-- The controller's elements at their reset values; the target (R159), the parameters, and the model's own fields
stay, and the scratch is what the draw says (R21, R22, R158). -/
def resetController (d : ResetDraw) (s : State) : State :=
  { State.reset with
    cmd := d.cmd, tx := d.tx, v := d.v, i := d.i, acc := d.acc, phase := d.phase, f := d.f, emitList := d.emitList,
    mem := s.mem, cfg := s.cfg, hostPop := s.hostPop, inputs := s.inputs }

/-- Controller reset (R158). A pending transaction is abandoned, its effect at the target a draw (log 15). -/
def hostReset (d : ResetDraw) (s : State) : Result :=
  match abandon s.cfg.regAddr d.csTook s.mem s.pendCs with
  | none => .fault (.unmappedRegister ((s.pendCs.map Txn.addr).getD 0x00))
  | some m =>
    match abandon s.cfg.regAddr d.psTook m s.pendPs with
    | none => .fault (.unmappedRegister ((s.pendPs.map Txn.addr).getD 0x00))
    | some m' => .next (resetController d (setMem m' s))

/-- One step of an agent. `turn` is the CS's next local step and `back` what it does with a returned outcome; both belong
to the command that runs. A step that is not enabled changes nothing (log 1); a submit reaches this point only while the
CS is BUSY, when the port accepts nothing (R79; log 21). -/
def agentStep (turn : State → State) (back : BusReturn → State → State) (e : Event) (s : State) : Result :=
  match e with
  | .submit _ => .next s
  | .pop => .next (irqPop s)
  | .reset d => hostReset d s
  | .csTurn => .next (if s.pendCs = none then turn s else s)
  | .psTurn => .next (psTurn s)
  | .complete .cs o => completeTxn .cs back o s
  | .complete .ps o => completeTxn .ps psReturn o s
  | .env n b => .next (envWrite n b s)

/-- The agents step in the order of the list until the command has ended (the CS is IDLE) or the list is empty; what is
left of the list stays in `inputs`. -/
def drive (turn : State → State) (back : BusReturn → State → State) : List Event → State → Result
  | [], s => .next (setInputs [] s)
  | e :: es, s =>
    match agentStep turn back e (setInputs es s) with
    | .next t => if t.cs = .idle then .next t else drive turn back es t
    | .fault r => .fault r
    | .refused r => .refused r

/-- The meaning of a command from where the CS stands in it. With no command running there is nothing to run. -/
def runCommand (turn : State → State) (back : BusReturn → State → State) (s : State) : Result :=
  if s.cs = .idle then .next s else drive turn back s.inputs s

/-! The frame every command with transactions shares (R74, R132, R133). -/

/-- The CS's next local step: the command's checks; `acquire()`, enabled only when the lock is FREE; the issue of the
transaction whose turn it is, or `release()` after the last; the end of the command. -/
def commandTurn (start : State → State) (txn : State → Option Txn) (finish : State → State) (s : State) : State :=
  match s.phase with
  | .start => start s
  | .acquire => if s.owner = .free then setPhase .body (takeLock .cs s) else s
  | .body =>
    match txn s with
    | some t => issue .cs t s
    | none => setPhase .respond (release .cs s)
  | .respond => finish s

/-- What the CS does with an outcome: `fail` on ERR, `onOk` otherwise. -/
def onReturn (onOk : BusReturn → State → State) (fail : State → State) (r : BusReturn) (s : State) : State :=
  match r with
  | .err => fail s
  | r => onOk r s

/-- A transaction returned OK: `c.tx` counts it, and `c.v` is the last byte read (R21; log 9). -/
def advance (r : BusReturn) (s : State) : State :=
  { s with
    tx := s.tx + 1
    v := (match r with | .data b => b | _ => s.v) }

/-- `raise BUS_FAIL(c.tx)`: the info is the index of the failing transaction (R36, R135). -/
def busFail (s : State) : State := raise .busFail s.tx s

/-- `pinCheck(p)` (R97), then on to `acquire()`. -/
def pinStart (p : Nat) (s : State) : State :=
  if s.ready = false then raise .notInitialized 0x00 s
  else if legalPin p = false then raise .invalidPinIndex 0x00 s
  else setPhase .acquire s

/-- The end of a command whose response is `{OK, 0x00, 0x00}`. -/
def finishOk (s : State) : State := respond .ok 0x00 0x00 s

/-- The CS issues a transaction and BA completes it with OK, `k` times. -/
def okTxns (k : Nat) : List Event := (List.replicate k [Event.csTurn, .complete .cs .ok]).flatten

/-- The schedule under which the CS and BA alone move and `k` transactions complete with OK: the checks, `acquire()`,
`k` times issue and completion, `release()`, the response. -/
def served (k : Nat) : List Event := [.csTurn, .csTurn] ++ okTxns k ++ [.csTurn, .csTurn]

end Sys2Proof.Machine
end

