-- ==== Sys2Proof/Machine/Init.lean ====
section
/-! DEFINITION. INIT (40_init.md R89 to R95). -/

namespace Sys2Proof.Machine

/-- Refused while the poll loop runs (R94); else the old handle is discarded first. -/
def initStart (s : State) : State :=
  if s.pollRun then raise .illegalState 0x00 s else setPhase .acquire (discardHandle s)

/-- The transactions of INIT in order: 0x00 to DIR, GPPU and INTCON (R90), then one PORT read per configured pin (R91). -/
def initTxn (n : Nat) (s : State) : Option Txn :=
  if s.tx = 0 then some (.write (s.cfg.regAddr.addr .dir) 0x00)
  else if s.tx = 1 then some (.write (s.cfg.regAddr.addr .gppu) 0x00)
  else if s.tx = 2 then some (.write (s.cfg.regAddr.addr .intcon) 0x00)
  else if legalCount n && decide (s.i < n) then some (.read (s.cfg.regAddr.addr .port))
  else none

/-- After the third write of an INIT with a legal count the snapshot is begun: `c.acc <- 0x00`, `c.i` at 0 (R89). -/
def initBeginSnap (n : Nat) (s : State) : State :=
  if legalCount n && decide (s.tx = 3) then { s with acc := 0x00, i := 0 } else s

/-- A transaction of INIT returned OK. Of the read for pin `c.i`, `c.acc[c.i] <- r.b[c.i]` (R89, R91). -/
def initOk (n : Nat) (r : BusReturn) (s : State) : State :=
  match r with
  | .data b => advance r { s with acc := putBit s.acc s.i (b.getLsbD s.i), i := s.i + 1 }
  | _ => initBeginSnap n (advance r s)

/-- `fail()` (R89, R92). -/
def initFail (s : State) : State := raise .busFail s.tx (discardHandle s)

/-- INIT's end: the handle is usable; with an illegal count there is no snapshot, and the response says so (R93).
DESIGN CHOICE (log 20): publishing the handle and the response are one step of the CS. -/
def initFinish (n : Nat) (s : State) : State :=
  if legalCount n then respond .ok 0x00 0x00 (publishHandle n n s.acc s)
  else respond .invalidPinCount 0x00 0x03 (publishHandle n 0 0x00 s)

/-- INIT n (R89). -/
def execInit (n : Nat) (s : State) : Result :=
  runCommand (commandTurn initStart (initTxn n) (initFinish n)) (onReturn (initOk n) initFail) s

end Sys2Proof.Machine
end

