-- ==== Sys2Proof/Machine/Mode.lean ====
section
/-! DEFINITION. CFG_IN_IRQ (42_mode_config.md R110 to R113). -/

namespace Sys2Proof.Machine

/-- The four registers in the source's order (R111). -/
def cfgOrder : List Reg := [.dir, .gppu, .ipol, .gpinten]

/-- Transaction `2k` reads the `k`-th register of the order, transaction `2k + 1` writes it back with the mask ORed in
(R110). -/
def cfgTxn (p : Nat) (s : State) : Option Txn :=
  match cfgOrder[s.tx.toNat / 2]? with
  | none => none
  | some n =>
    if s.tx.toNat % 2 = 0 then some (.read (s.cfg.regAddr.addr n))
    else some (.write (s.cfg.regAddr.addr n) (s.v ||| mask p))

/-- `cfgFail()` (R110, R112). -/
def cfgFail (s : State) : State :=
  if s.tx = 0 then raise .busFail 0x00 s else raise .partialConfig s.tx s

/-- CFG_IN_IRQ p (R110). -/
def execCfgInIrq (p : Nat) (s : State) : Result :=
  runCommand (commandTurn (pinStart p) (cfgTxn p) finishOk) (onReturn advance cfgFail) s

end Sys2Proof.Machine
end

