-- ==== Sys2Proof/Machine/Pin.lean ====
section
/-! DEFINITION. The pin mutation engine (41_pin_mutation.md R97 to R109). -/

namespace Sys2Proof.Machine

/-- The one transaction of READ (R98). -/
def readTxn (s : State) : Option Txn :=
  if s.tx = 0 then some (.read (s.cfg.regAddr.addr .port)) else none

/-- READ's end: the level of pin `p` in the byte read, in the snapshot entry of `p` if it exists (R99) and in the
response (R98). DESIGN CHOICE (log 20): the two are one step of the CS; R12 leaves that grain open. -/
def readFinish (p : Nat) (s : State) : State :=
  let b := isolateBit s.v p
  respond .ok b 0x00
    { s with snap := if p < s.snapLen.toNat then putBit s.snap p (b.getLsbD 0) else s.snap }

/-- READ p (R98). -/
def execRead (p : Nat) (s : State) : Result :=
  runCommand (commandTurn (pinStart p) readTxn (readFinish p)) (onReturn advance busFail) s

/-- The read and the write of a read-modify-write of register `n`, the new value computed from the byte read in this
command (R105). -/
def rmwTxn (n : Reg) (g : Byte → Byte) (s : State) : Option Txn :=
  if s.tx = 0 then some (.read (s.cfg.regAddr.addr n))
  else if s.tx = 1 then some (.write (s.cfg.regAddr.addr n) (g s.v))
  else none

/-- A single-pin mutation of PORT (R100 to R102). -/
def runPinMutation (p : Nat) (g : Byte → Byte) (s : State) : Result :=
  runCommand (commandTurn (pinStart p) (rmwTxn .port g) finishOk) (onReturn advance busFail) s

/-- SET_ON p (R100). -/
def execSetOn (p : Nat) (s : State) : Result := runPinMutation p (fun v => v ||| mask p) s

/-- SET_OFF p (R101). -/
def execSetOff (p : Nat) (s : State) : Result := runPinMutation p (fun v => v &&& nmask p) s

/-- TOGGLE p (R102). -/
def execToggle (p : Nat) (s : State) : Result := runPinMutation p (fun v => v ^^^ mask p) s

/-- The one transaction of ALL_ON and ALL_OFF: a write of PORT without a read (R103, R104). -/
def portWriteTxn (value : State → Byte) (s : State) : Option Txn :=
  if s.tx = 0 then some (.write (s.cfg.regAddr.addr .port) (value s)) else none

/-- ALL_ON's checks (R103). -/
def allOnStart (s : State) : State :=
  if s.ready = false then raise .notInitialized 0x00 s
  else if legalCount s.pinCount.toNat = false then raise .invalidPinCount 0x00 s
  else setPhase .acquire s

/-- ALL_ON (R103). -/
def execAllOn (s : State) : Result :=
  runCommand (commandTurn allOnStart (portWriteTxn (fun s => allMask s.pinCount.toNat)) finishOk)
    (onReturn advance busFail) s

/-- ALL_OFF's check (R104). -/
def allOffStart (s : State) : State :=
  if s.ready = false then raise .notInitialized 0x00 s else setPhase .acquire s

/-- ALL_OFF (R104). -/
def execAllOff (s : State) : Result :=
  runCommand (commandTurn allOffStart (portWriteTxn (fun _ => 0x00)) finishOk) (onReturn advance busFail) s

end Sys2Proof.Machine
end

