-- ==== Sys2Proof/Machine/PollCmd.lean ====
section
/-! DEFINITION. POLL_START and POLL_STOP (43_interrupt_poll.md R114, R115), and the end of an illegal command word
(60_exceptions.md R139). None of them issues a transaction: one local step of the CS runs the whole command. -/

namespace Sys2Proof.Machine

/-- POLL_START's step (R114). -/
def pollStartTurn (s : State) : State :=
  if s.pollRun then raise .illegalState 0x00 s
  else if s.ready = false then raise .notInitialized 0x00 s
  else respond .ok 0x00 0x00
    { s with pollRun := true, stopReq := false, pollErr := 0, pollState := .idle, ps := .head }

/-- A command without transactions is in its first phase until its one step ends it; no outcome is ever returned to it
(log 16). -/
def noReturn (_ : BusReturn) (s : State) : State := s

/-- POLL_START (R114). -/
def execPollStart (s : State) : Result := runCommand pollStartTurn noReturn s

/-- POLL_STOP's step (R115). -/
def pollStopTurn (s : State) : State :=
  respond .ok 0x00 0x00 { s with stopReq := if s.pollRun then true else s.stopReq }

/-- POLL_STOP (R115). -/
def execPollStop (s : State) : Result := runCommand pollStopTurn noReturn s

/-- A word that decodes to ILLEGAL ends as ILLEGAL_COMMAND, with no other effect (R139). -/
def execIllegal (s : State) : Result := runCommand (raise .illegalCommand 0x00) noReturn s

end Sys2Proof.Machine
end

