-- ==== Sys2Proof/Machine/Dispatch.lean ====
section
/-! DEFINITION. The meaning of each command: the run of the command the CS has accepted, from where the CS stands in it. -/

namespace Sys2Proof.Machine

def exec (i : Instr) (s : State) : Host.Outcome State Fault Refusal :=
  match i with
  | .init n => Sys2Proof.Machine.execInit n s
  | .read p => Sys2Proof.Machine.execRead p s
  | .setOn p => Sys2Proof.Machine.execSetOn p s
  | .setOff p => Sys2Proof.Machine.execSetOff p s
  | .toggle p => Sys2Proof.Machine.execToggle p s
  | .allOn => Sys2Proof.Machine.execAllOn s
  | .allOff => Sys2Proof.Machine.execAllOff s
  | .cfgInIrq p => Sys2Proof.Machine.execCfgInIrq p s
  | .pollStart => Sys2Proof.Machine.execPollStart s
  | .pollStop => Sys2Proof.Machine.execPollStop s

end Sys2Proof.Machine
end

