-- ==== Sys2Proof/Machine/Sequencer.lean ====
section
/-! DEFINITION. From the schedule to the commands: what a step does while a command runs and while none does
(30_encoding.md R79, R88). -/

namespace Sys2Proof.Machine

/-- The CS decodes `c.cmd` and runs what it decodes to (R88). -/
def runAccepted (s : State) : Result :=
  match decode s.cmd with
  | .ok i => exec i s
  | .error _ => execIllegal s

/-- One step while no command runs. The host's submit is accepted (R79) and the command runs; any other agent's step is
that step alone; with nothing scheduled the machine waits. -/
def idleStep (s : State) : Result :=
  match s.inputs with
  | [] => .next s
  | .submit w :: es => runAccepted (accept w (setInputs es s))
  | e :: es => agentStep id noReturn e (setInputs es s)

/-- The schedule `l` after the host's submit of the word `w`, to an IDLE command port (log 17). -/
def loadWord (w : Byte) (l : List Event) (s : State) : State :=
  { s with cs := .idle, inputs := .submit w :: (l ++ s.inputs) }

end Sys2Proof.Machine
end

