-- ==== Sys2Proof/Machine/Step.lean ====
section
/-! DEFINITION. One step of the machine (log 2): a running command is run on to its end or to the end of the schedule;
else the next scheduled agent takes its step, and a command it submits is run. -/

namespace Sys2Proof.Machine

/-- One step. -/
def step (s : State) : Host.Outcome State Fault Refusal :=
  match s.cs with
  | .busy => runAccepted s
  | .idle => idleStep s

/-- The state in which the next step accepts and runs the command word `w`: the command port is IDLE, the host submits
the word, and the CS and BA then move as the longest command needs, every transaction with OK (log 17). -/
def State.withFetchWord (s : State) (nbits w : Nat) : State :=
  loadWord (BitVec.ofNat 8 (w % 2 ^ nbits)) (served 11) s

end Sys2Proof.Machine
end

