-- ==== Sys2Proof/Safety.lean ====
section
/-! DEFINITION. The terms claims are stated in: premises about a schedule (20_memory.md R62, R67;
70_reset_and_hazards.md R165), the state a command starts from, the state as far as the spec determines it, the
invariants, and endless runs. -/

namespace Sys2Proof.Machine

/-! Schedules. -/

/-- A step of the CS or of BA for the CS. -/
def Event.ofCommand : Event → Bool
  | .csTurn => true
  | .complete .cs _ => true
  | _ => false

/-- Only the CS and BA for the CS move. -/
abbrev OnlyCommand (l : List Event) : Prop := ∀ e ∈ l, e.ofCommand = true

/-- An environment step (R66). -/
def Event.isEnv : Event → Bool
  | .env _ _ => true
  | _ => false

/-- A controller reset (R158). -/
def Event.isReset : Event → Bool
  | .reset _ => true
  | _ => false

/-- BA completes a transaction of the CS. -/
def Event.completesCs : Event → Bool
  | .complete .cs _ => true
  | _ => false

/-- BA completes a transaction of the PS. -/
def Event.completesPs : Event → Bool
  | .complete .ps _ => true
  | _ => false

/-- `Quiet`: TE takes no step (R67). -/
abbrev Quiet (l : List Event) : Prop := ∀ e ∈ l, e.isEnv = false

/-- The controller is not reset. -/
abbrev NoReset (l : List Event) : Prop := ∀ e ∈ l, e.isReset = false

/-- The CS and BA move, `k` transactions complete with OK, and the next one is issued. -/
def issuing (k : Nat) : List Event := [.csTurn, .csTurn] ++ okTxns k ++ [.csTurn]

/-- The CS and BA move, `k` transactions complete with OK, and the next one completes with ERR; `took` is whether its
effect at the target happened (R61). -/
def failedAt (k : Nat) (took : Bool) : List Event := issuing k ++ [.complete .cs (.err took)]

/-- The CS and BA move to the command's end, with one event `e` of another agent after the `j`-th of its `j + k`
transactions, which all complete with OK. -/
def servedAround (j : Nat) (e : Event) (k : Nat) : List Event :=
  Event.csTurn :: Event.csTurn :: (okTxns j ++ e :: (okTxns k ++ [Event.csTurn, Event.csTurn]))

/-! States. -/

/-- A command word has been accepted and no step of the command has been taken (R79); the CS does not hold the lock,
which it acquires just before the first transaction of a command (R74). -/
abbrev Accepted (s : State) : Prop :=
  s.cs = .busy ∧ s.phase = .start ∧ s.tx = 0 ∧ s.pendCs = none ∧ s.owner ≠ .cs

/-- The state without the CS scratch, whose values while IDLE are unspecified (R21). -/
def noScratch (s : State) : State :=
  { s with cmd := 0, tx := 0, v := 0, i := 0, acc := 0, phase := .start }

/-- The run of a command answers a next state that is `u` but for the CS scratch. -/
abbrev RunsTo (i : Instr) (s u : State) : Prop := ∃ t, exec i s = .next t ∧ noScratch t = noScratch u

/-- The device-mirror state is the same (R16 to R19). -/
abbrev SameHandle (s t : State) : Prop :=
  t.ready = s.ready ∧ t.pinCount = s.pinCount ∧ t.snapLen = s.snapLen ∧ t.snap = s.snap

/-- The poll sequencer, the poll flags, the interrupt queue and the parameters are the same (R22, R24 to R29, R34). -/
abbrev SamePoll (s t : State) : Prop :=
  t.ps = s.ps ∧ t.f = s.f ∧ t.emitList = s.emitList ∧ t.pendPs = s.pendPs ∧ t.pollRun = s.pollRun ∧
    t.stopReq = s.stopReq ∧ t.pollState = s.pollState ∧ t.pollErr = s.pollErr ∧ t.irqQ = s.irqQ ∧
    t.hostPop = s.hostPop ∧ t.cfg = s.cfg

/-- What R100 to R102 say of a single-pin mutation that writes `g` of the byte read, from an accepted command on a usable
handle, with the lock FREE and only the CS and BA moving: it ends OK; or its read fails and nothing is written; or its
write fails and PORT is old or new. -/
abbrev PinMutationEnds (i : Instr) (g : Byte → Byte) (s : State) (es : List Event) : Prop :=
  (s.inputs = served 2 ++ es →
    RunsTo i s { s with
      cs := .idle, resp := ⟨0, 0, 0⟩, inputs := es,
      mem := s.mem.write (regKey s.cfg.regAddr .port) (g (s.target .port)) }) ∧
  (∀ took, s.inputs = failedAt 0 took ++ es →
    RunsTo i s { s with cs := .idle, resp := ⟨1, 0, 0⟩, inputs := es }) ∧
  (∀ took, s.inputs = failedAt 1 took ++ es →
    RunsTo i s { s with
      cs := .idle, resp := ⟨1, 0, 1⟩, inputs := es,
      mem := if took then s.mem.write (regKey s.cfg.regAddr .port) (g (s.target .port)) else s.mem })

/-- `T` after the registers of a list have been given values, in the list's order. -/
def writeAll (rm : RegMap) (g : Reg → Byte) (l : List Reg) (m : Memory) : Memory :=
  l.foldl (fun m n => m.write (regKey rm n) (g n)) m

/-! Invariants. -/

/-- The address of a transaction is one of the eleven (R71). -/
def mapped (rm : RegMap) (t : Txn) : Bool := (regAt? rm t.addr).isSome

/-- Every pending transaction names a target register (R64, R71). -/
abbrev PendMapped (s : State) : Prop :=
  s.pendCs.all (mapped s.cfg.regAddr) = true ∧ s.pendPs.all (mapped s.cfg.regAddr) = true

/-- The registers the controller writes (R64). -/
def writable : List Reg := [.dir, .ipol, .gpinten, .intcon, .gppu, .port]

/-- The registers the controller reads: not DEFVAL, INTCON, IOCON or OLAT (R50, R51, R52, R57). -/
def readable : List Reg := [.dir, .ipol, .gpinten, .gppu, .intf, .intcap, .port]

/-- A transaction the controller issues: a read of a register it reads (R47 to R57), or a write of one it writes (R64). -/
def issuable (rm : RegMap) : Txn → Bool
  | .read a => (readable.map rm.addr).contains a
  | .write a _ => (writable.map rm.addr).contains a

/-- Every pending transaction is one the controller issues (R50 to R52, R57, R64). -/
abbrev PendIssuable (s : State) : Prop :=
  s.pendCs.all (issuable s.cfg.regAddr) = true ∧ s.pendPs.all (issuable s.cfg.regAddr) = true

/-- What the PS has pending in each micro-state (R22, R118, R123). -/
def psPending (s : State) : Option Txn :=
  match s.ps with
  | .flags => some (.read (s.cfg.regAddr.addr .intf))
  | .ack => some (.read (s.cfg.regAddr.addr .intcap))
  | _ => none

/-- A command with transactions: not POLL_START, POLL_STOP or an illegal word (R89 to R115, R139). -/
def hasTransactions (w : Byte) : Bool :=
  match decode w with
  | .ok .pollStart => false
  | .ok .pollStop => false
  | .ok _ => true
  | .error _ => false

/-- The lock discipline (R24, R74): the CS holds the lock exactly in the body of a command and has a transaction pending
only then, and only a command with transactions gets past its first phase; the PS holds the lock exactly from the INTF
read to the INTCAP read, with the read of its micro-state pending; the PS is OFF exactly when the loop does not run
(R25). -/
abbrev LockInv (s : State) : Prop :=
  (s.owner = .cs ↔ s.cs = .busy ∧ s.phase = .body) ∧
  (s.pendCs ≠ none → s.owner = .cs) ∧
  (s.cs = .busy → s.phase ≠ .start → hasTransactions s.cmd = true) ∧
  (s.owner = .ps ↔ s.ps = .flags ∨ s.ps = .emit ∨ s.ps = .ack) ∧
  s.pendPs = psPending s ∧
  (s.pollRun = true ↔ s.ps ≠ .off)

/-- The poll flags (R25 to R28): the loop runs exactly when the PS is not OFF; a stop is requested only of a running
loop; Fired exactly from a non-zero flag read to the acknowledge; the error is 0 or BUS_FAIL, and BUS_FAIL only of a
stopped loop. -/
abbrev PollInv (s : State) : Prop :=
  (s.pollRun = true ↔ s.ps ≠ .off) ∧
  (s.stopReq = true → s.pollRun = true) ∧
  (s.pollState = .fired ↔ s.ps = .emit ∨ s.ps = .ack) ∧
  (s.pollErr = 0 ∨ (s.pollErr = 1 ∧ s.pollRun = false))

/-- No bit of `w` at or above `n` is set. -/
abbrev ClearFrom (w : Byte) (n : Nat) : Prop := w &&& ~~~ (BitVec.ofNat 8 (2 ^ n - 1)) = 0

/-- The count INIT is running with. -/
def runningInit? (s : State) : Option Nat :=
  match s.cs, decode s.cmd with
  | .busy, .ok (.init n) => some n
  | _, _ => none

/-- The snapshot being built (R89, R91): while INIT with a legal count reads, the transaction pending is the one whose turn
it is, and `c.acc` holds the pins read so far and no others; about to respond, all `n` of them. Outside a command's body
the CS has nothing pending, and before the body no transaction has completed. -/
abbrev SnapBuild (s : State) : Prop :=
  (¬ (s.cs = .busy ∧ s.phase = .body) → s.pendCs = none) ∧
  ∀ n ∈ runningInit? s, legalCount n = true →
    (s.phase = .start ∨ s.phase = .acquire → s.tx = 0) ∧
    (∀ x ∈ s.pendCs, initTxn n s = some x) ∧
    (s.phase = .body → 3 ≤ s.tx.toNat → s.i ≤ n ∧ ClearFrom s.acc s.i) ∧
    (s.phase = .respond → ClearFrom s.acc n)

/-- The handle (R16 to R19): with no usable handle the count and the snapshot are empty; with one, the snapshot has as
many entries as a legal count says, and none for an illegal one; bits at or above the length are 0. -/
abbrev HandleInv (s : State) : Prop :=
  (s.ready = false → s.pinCount = 0 ∧ s.snapLen = 0 ∧ s.snap = 0) ∧
  (s.ready = true → s.snapLen = if legalCount s.pinCount.toNat then s.pinCount else 0) ∧
  s.snapLen.toNat ≤ 8 ∧
  ClearFrom s.snap s.snapLen.toNat

/-- The queue holds no more than `IRQQ_DEPTH` entries (R29, R126). -/
abbrev QueueInv (s : State) : Prop := ∀ d ∈ s.cfg.irqDepth, s.irqQ.length ≤ d

/-- What is still to be delivered comes, in ascending order, from set bits of the flag byte read (R120, R127). -/
abbrev EmitInv (s : State) : Prop :=
  s.ps = .emit → (∀ p ∈ s.emitList, s.f.getLsbD p.toNat = true) ∧ s.emitList.Pairwise (fun p q => p.toNat < q.toNat)

/-- Every byte of the register file stands at the address of a register, in canonical form (R45). -/
abbrev MemInv (s : State) : Prop :=
  s.mem.wf ∧ ∀ c ∈ s.mem, c.1 ∈ Reg.all.map (regKey s.cfg.regAddr)

/-! Endless runs: one event at a time. -/

/-- One scheduled agent step: `step` with nothing else scheduled. -/
def microStep (e : Event) (s : State) : Result := step (setInputs [e] s)

/-- The state before the `k`-th event of an endless schedule. -/
def trace (sched : Nat → Event) (s : State) : Nat → State
  | 0 => setInputs [] s
  | k + 1 =>
    match microStep (sched k) (trace sched s k) with
    | .next t => t
    | _ => trace sched s k

/-- `BusLive`: BA completes every issued transaction (R62). -/
def BusLive (sched : Nat → Event) (s : State) : Prop :=
  ∀ who k, (trace sched s k).pend who ≠ none → ∃ j, k ≤ j ∧ ∃ o, sched j = .complete who o

/-- Both sequencers get a turn again and again. -/
def TurnsRecur (sched : Nat → Event) : Prop :=
  ∀ k, (∃ j, k ≤ j ∧ sched j = .csTurn) ∧ (∃ j, k ≤ j ∧ sched j = .psTurn)

/-- `acquire()` of a sequencer is enabled (R74). -/
abbrev acquireEnabled (who : Sequencer) (s : State) : Prop :=
  s.owner = .free ∧
  match who with
  | .cs => s.cs = .busy ∧ s.phase = .acquire
  | .ps => s.ps = .lock

/-- The event by which a sequencer takes its local step. -/
def turnEvent : Sequencer → Event
  | .cs => .csTurn
  | .ps => .psTurn

/-- `LockFair`: a sequencer whose acquire step is enabled infinitely often acquires the lock eventually (R165). -/
def LockFair (sched : Nat → Event) (s : State) : Prop :=
  ∀ who, (∀ k, ∃ j, k ≤ j ∧ acquireEnabled who (trace sched s j)) →
    ∀ k, ∃ j, k ≤ j ∧ acquireEnabled who (trace sched s j) ∧ sched j = turnEvent who

end Sys2Proof.Machine
end

