-- ==== Sys2Proof/Certificates/Slice0/Obligations.lean ====
section
/-! DEFINITION. The statements for the provers. Each docstring names the rules of spec/ it formalises. Where a statement
names `inputs`, the event list is the model's way to say which agent moves when (log 1); where it compares states by
`noScratch`, the CS scratch is left open, as R21 leaves it. -/

open Sys2Proof Sys2Proof.Machine

/-! Encoding and decoding (30_encoding.md). -/

/-- Decoding the word of any encodable command gives that command (R78, R80, R88). -/
def Obligations.DecodeOfEncodeIsTheCommand : Prop :=
  ∀ i : Instr, i.wf = true → decode (encode i) = .ok i

/-- A word that decodes to a command is the word of that command, and of no other (R80, R88). -/
def Obligations.EncodeOfDecodeIsTheWord : Prop :=
  ∀ (w : Byte) (i : Instr), decode w = .ok i → i.wf = true ∧ encode i = w

/-- The example words of R86, and one word of each other command, with the bits of R80. -/
def Obligations.SampleWordsDecode : Prop :=
  decode 0x13 = .ok (.init 3) ∧ decode 0x31 = .ok (.setOn 1) ∧ decode 0x50 = .ok (.toggle 0) ∧
  decode 0x27 = .ok (.read 7) ∧ decode 0x82 = .ok (.cfgInIrq 2) ∧ decode 0x60 = .ok .allOn ∧
  decode 0xA0 = .ok .pollStop ∧ decode 0x44 = .ok (.setOff 4) ∧ decode 0x70 = .ok .allOff ∧
  decode 0x90 = .ok .pollStart ∧ decode 0x28 = .ok (.read 8)

/-- The illegal words are those with OP 0x0, OP 0xB to 0xF, or a non-zero ARG on an opcode without argument: 156 of the
256 (R83, R84). -/
def Obligations.IllegalWordsAreTheReservedOnes : Prop :=
  (∀ w : Byte, (∃ r, decode w = .error r) ↔
    w >>> 4 = 0x0 ∨ 0xB ≤ (w >>> 4).toNat ∨
      ((w >>> 4 = 0x6 ∨ w >>> 4 = 0x7 ∨ w >>> 4 = 0x9 ∨ w >>> 4 = 0xA) ∧ w &&& 0x0F ≠ 0)) ∧
  ((List.range 256).filter (fun n => (decode (BitVec.ofNat 8 n)).toOption.isNone)).length = 156

/-! The command port and the schedule (R7, R12, R79, R88). -/

/-- A submitted word is accepted by an IDLE command port as R79 says, and the command it decodes to runs; a command that is
running is run on. While no command runs, any other agent's step is that step alone, and with nothing scheduled the machine
waits (the schedule is the model's choice: log 1). -/
def Obligations.StepRunsTheAcceptedCommand : Prop :=
  (∀ (s : State) (w : Byte) (es : List Event) (i : Instr),
    s.cs = .idle → s.inputs = .submit w :: es → decode w = .ok i →
      step s = exec i { s with inputs := es, cmd := w, tx := 0, cs := .busy, phase := .start }) ∧
  (∀ (s : State) (i : Instr), s.cs = .busy → decode s.cmd = .ok i → step s = exec i s) ∧
  (∀ (s : State) (e : Event) (es : List Event),
    s.cs = .idle → s.inputs = e :: es → (∀ w, e ≠ .submit w) →
      step s = agentStep id noReturn e { s with inputs := es }) ∧
  (∀ s : State, s.cs = .idle → s.inputs = [] → step s = .next s)

/-- Any other agent's step may come between two steps of a command: the command goes on from the state that step leaves.
A reset ends it. A submit is not taken (R79). -/
def Obligations.OtherAgentsInterleaveWithACommand : Prop :=
  ∀ (i : Instr) (s : State) (e : Event) (es : List Event), s.cs = .busy → s.inputs = e :: es → e.ofCommand = false →
    (∀ t, agentStep id noReturn e { s with inputs := es } = .next t →
      exec i s = if e.isReset then .next t else exec i t) ∧
    (∀ w, e = .submit w → exec i s = exec i { s with inputs := es })

/-- Every illegal word ends as ILLEGAL_COMMAND and changes nothing but the response (R83, R84, R139). -/
def Obligations.IllegalWordEndsAsIllegalCommand : Prop :=
  ∀ (s : State) (w : Byte) (es : List Event) (r : DecodeReject),
    s.cs = .idle → s.pendCs = none → s.owner ≠ .cs → decode w = .error r → s.inputs = .submit w :: .csTurn :: es →
      ∃ t, step s = .next t ∧ noScratch t = noScratch { s with resp := ⟨5, 0, 0⟩, inputs := es }

/-! INIT (40_init.md). -/

/-- INIT with a legal count: three writes of 0x00, then the snapshot of the `n` configured pins, and the handle is usable
(R89, R91). -/
def Obligations.InitWithLegalCountCompletes : Prop :=
  ∀ (n : Nat) (s : State) (es : List Event), Accepted s → 1 ≤ n → n ≤ 8 → s.pollRun = false → s.owner = .free →
    s.cfg.regAddr.wf → s.inputs = served (3 + n) ++ es →
      RunsTo (.init n) s { s with
        ready := true, pinCount := BitVec.ofNat 4 n, snapLen := BitVec.ofNat 4 n,
        snap := s.target .port &&& BitVec.ofNat 8 (2 ^ n - 1), cs := .idle, resp := ⟨0, 0, 0⟩, inputs := es,
        mem := writeAll s.cfg.regAddr (fun _ => 0) [.dir, .gppu, .intcon] s.mem }

/-- INIT with a count outside 1 to 8: the writes, no snapshot, the raw count stored, the handle usable, and the non-fatal
response (R93). -/
def Obligations.InitWithIllegalCountCompletes : Prop :=
  ∀ (n : Nat) (s : State) (es : List Event), Accepted s → (n = 0 ∨ 9 ≤ n) → n ≤ 15 → s.pollRun = false →
    s.owner = .free → s.inputs = served 3 ++ es →
      RunsTo (.init n) s { s with
        ready := true, pinCount := BitVec.ofNat 4 n, snapLen := 0, snap := 0, cs := .idle, resp := ⟨3, 0, 3⟩,
        inputs := es, mem := writeAll s.cfg.regAddr (fun _ => 0) [.dir, .gppu, .intcon] s.mem }

/-- INIT whose transaction `k` fails: no later transaction, the handle not usable, its count and snapshot discarded, the
response BUS_FAIL with `k`, the writes before `k` in effect, and a failing write in effect or not (R92; an illegal count
does not come first: R143). -/
def Obligations.InitFailureDiscardsTheHandle : Prop :=
  ∀ (n k : Nat) (took : Bool) (s : State) (es : List Event), Accepted s → s.pollRun = false → s.owner = .free →
    s.cfg.regAddr.wf → k < 3 + (if 1 ≤ n ∧ n ≤ 8 then n else 0) → s.inputs = failedAt k took ++ es →
      RunsTo (.init n) s { s with
        ready := false, pinCount := 0, snapLen := 0, snap := 0, cs := .idle, resp := ⟨1, 0, BitVec.ofNat 8 k⟩,
        inputs := es,
        mem := writeAll s.cfg.regAddr (fun _ => 0)
          ([Reg.dir, .gppu, .intcon].take (if took then k + 1 else k)) s.mem }

/-- The transactions of INIT are issued in this order: DIR, GPPU, INTCON with 0x00, then the PORT reads (R90, R91); those of
CFG_IN_IRQ: the read and then the write of DIR, GPPU, IPOL, GPINTEN (R111). The CS holds the lock meanwhile. -/
def Obligations.TransactionsAreIssuedInOrder : Prop :=
  (∀ (n k : Nat) (s : State), Accepted s → s.pollRun = false → s.owner = .free → s.cfg.regAddr.wf →
    k < 3 + (if 1 ≤ n ∧ n ≤ 8 then n else 0) → s.inputs = issuing k →
      ∃ t, exec (.init n) s = .next t ∧ t.cs = .busy ∧ t.owner = .cs ∧ t.ready = false ∧
        t.pendCs = some (match k with
          | 0 => .write (s.cfg.regAddr.addr .dir) 0
          | 1 => .write (s.cfg.regAddr.addr .gppu) 0
          | 2 => .write (s.cfg.regAddr.addr .intcon) 0
          | _ => .read (s.cfg.regAddr.addr .port))) ∧
  (∀ (p k : Nat) (n : Reg) (s : State), p ≤ 7 → [Reg.dir, .gppu, .ipol, .gpinten][k / 2]? = some n → Accepted s →
    s.ready = true → s.owner = .free → s.cfg.regAddr.wf → s.mem.wf → s.inputs = issuing k →
      ∃ t, exec (.cfgInIrq p) s = .next t ∧ t.cs = .busy ∧ t.owner = .cs ∧
        t.pendCs = some (if k % 2 = 0 then .read (s.cfg.regAddr.addr n)
          else .write (s.cfg.regAddr.addr n) (s.target n ||| (1 : Byte) <<< p)))

/-- INIT and POLL_START are refused while the loop runs; only the response changes (R94, R141). -/
def Obligations.RefusedWhileTheLoopRuns : Prop :=
  ∀ (i : Instr) (s : State) (es : List Event), ((∃ n, i = .init n) ∨ i = .pollStart) → Accepted s → s.pollRun = true →
    s.inputs = .csTurn :: es → exec i s = .next { s with cs := .idle, resp := ⟨7, 0, 0⟩, inputs := es }

/-! The pin mutation engine (41_pin_mutation.md). -/

/-- READ answers the level of its pin and refreshes its own snapshot entry if that exists; a failed READ changes only the
response (R98, R99). -/
def Obligations.ReadAnswersTheLevel : Prop :=
  ∀ (p : Nat) (s : State) (es : List Event), p ≤ 7 → Accepted s → s.ready = true → s.owner = .free →
    s.cfg.regAddr.wf →
    (s.inputs = served 1 ++ es →
      RunsTo (.read p) s { s with
        cs := .idle, resp := ⟨0, if (s.target .port).getLsbD p then 1 else 0, 0⟩, inputs := es,
        snap := if p < s.snapLen.toNat then
            (if (s.target .port).getLsbD p then s.snap ||| (1 : Byte) <<< p else s.snap &&& ~~~ ((1 : Byte) <<< p))
          else s.snap }) ∧
    (∀ took, s.inputs = failedAt 0 took ++ es →
      RunsTo (.read p) s { s with cs := .idle, resp := ⟨1, 0, 0⟩, inputs := es })

/-- SET_ON, SET_OFF and TOGGLE write PORT back with bit `p` set, clear or inverted and every other bit as read; a failed
read writes nothing, and a failed write takes effect or not (R100 to R102, R108). -/
def Obligations.SinglePinMutationsWriteTheComputedPort : Prop :=
  ∀ (p : Nat) (s : State) (es : List Event), p ≤ 7 → Accepted s → s.ready = true → s.owner = .free →
    s.cfg.regAddr.wf →
    PinMutationEnds (.setOn p) (fun v => v ||| (1 : Byte) <<< p) s es ∧
    PinMutationEnds (.setOff p) (fun v => v &&& ~~~ ((1 : Byte) <<< p)) s es ∧
    PinMutationEnds (.toggle p) (fun v => v ^^^ (1 : Byte) <<< p) s es

/-- ALL_ON writes the value with exactly the configured pins high, without reading PORT; a failing write takes effect or
not; a stored count outside 1 to 8 raises INVALID_PIN_COUNT before the lock and any transaction (R103, R137). -/
def Obligations.AllOnDrivesTheConfiguredPins : Prop :=
  ∀ (s : State) (es : List Event), Accepted s → s.ready = true →
    (1 ≤ s.pinCount.toNat → s.pinCount.toNat ≤ 8 → s.owner = .free → s.inputs = served 1 ++ es →
      RunsTo .allOn s { s with
        cs := .idle, resp := ⟨0, 0, 0⟩, inputs := es,
        mem := s.mem.write (regKey s.cfg.regAddr .port) (BitVec.ofNat 8 (2 ^ s.pinCount.toNat - 1)) }) ∧
    (∀ took, 1 ≤ s.pinCount.toNat → s.pinCount.toNat ≤ 8 → s.owner = .free → s.inputs = failedAt 0 took ++ es →
      RunsTo .allOn s { s with
        cs := .idle, resp := ⟨1, 0, 0⟩, inputs := es,
        mem := if took then s.mem.write (regKey s.cfg.regAddr .port) (BitVec.ofNat 8 (2 ^ s.pinCount.toNat - 1))
          else s.mem }) ∧
    ((s.pinCount.toNat = 0 ∨ 9 ≤ s.pinCount.toNat) → s.inputs = .csTurn :: es →
      exec .allOn s = .next { s with cs := .idle, resp := ⟨3, 0, 0⟩, inputs := es })

/-- ALL_OFF writes 0x00 to PORT, whatever the pin count (R104). -/
def Obligations.AllOffClearsThePort : Prop :=
  ∀ (s : State) (es : List Event), Accepted s → s.ready = true → s.owner = .free →
    (s.inputs = served 1 ++ es →
      RunsTo .allOff s { s with
        cs := .idle, resp := ⟨0, 0, 0⟩, inputs := es, mem := s.mem.write (regKey s.cfg.regAddr .port) 0 }) ∧
    (∀ took, s.inputs = failedAt 0 took ++ es →
      RunsTo .allOff s { s with
        cs := .idle, resp := ⟨1, 0, 0⟩, inputs := es,
        mem := if took then s.mem.write (regKey s.cfg.regAddr .port) 0 else s.mem })

/-- Without a usable handle every command but INIT and POLL_STOP ends as NOT_INITIALIZED, whatever its operand, and
changes only the response (R140, R143). -/
def Obligations.NotInitializedChangesOnlyTheResponse : Prop :=
  ∀ (i : Instr) (s : State) (es : List Event),
    ((∃ p, i = .read p ∨ i = .setOn p ∨ i = .setOff p ∨ i = .toggle p ∨ i = .cfgInIrq p) ∨ i = .allOn ∨ i = .allOff ∨
      (i = .pollStart ∧ s.pollRun = false)) →
    Accepted s → s.ready = false → s.inputs = .csTurn :: es →
      exec i s = .next { s with cs := .idle, resp := ⟨6, 0, 0⟩, inputs := es }

/-- A pin command whose operand is above 7 ends as INVALID_PIN_INDEX before any transaction and changes only the response
(R97, R136). -/
def Obligations.InvalidPinIndexChangesOnlyTheResponse : Prop :=
  ∀ (i : Instr) (p : Nat) (s : State) (es : List Event),
    (i = .read p ∨ i = .setOn p ∨ i = .setOff p ∨ i = .toggle p ∨ i = .cfgInIrq p) → 7 < p →
    Accepted s → s.ready = true → s.inputs = .csTurn :: es →
      exec i s = .next { s with cs := .idle, resp := ⟨2, 0, 0⟩, inputs := es }

/-- The lost update: what TE writes to a register between the read and the write of a SET_ON, SET_OFF or TOGGLE, or of any
of the four steps of a CFG_IN_IRQ, is overwritten in every bit (R164, R66). -/
def Obligations.SetOnLosesAnUpdateInBetween : Prop :=
  ∀ (p : Nat) (b : Byte) (s : State) (es : List Event), p ≤ 7 → Accepted s → s.ready = true → s.owner = .free →
    s.cfg.regAddr.wf → s.mem.wf →
    (∀ (i : Instr) (g : Byte → Byte),
      ((i = .setOn p ∧ g = fun v => v ||| (1 : Byte) <<< p) ∨
        (i = .setOff p ∧ g = fun v => v &&& ~~~ ((1 : Byte) <<< p)) ∨
        (i = .toggle p ∧ g = fun v => v ^^^ (1 : Byte) <<< p)) →
      s.inputs = servedAround 1 (.env .port b) 1 ++ es →
        ∃ t, exec i s = .next t ∧ t.cs = .idle ∧ t.resp = ⟨0, 0, 0⟩ ∧ t.target .port = g (s.target .port)) ∧
    (∀ (k : Nat) (n : Reg), [Reg.dir, .gppu, .ipol, .gpinten][k]? = some n →
      s.inputs = servedAround (2 * k + 1) (.env n b) (7 - 2 * k) ++ es →
        ∃ t, exec (.cfgInIrq p) s = .next t ∧ t.cs = .idle ∧ t.resp = ⟨0, 0, 0⟩ ∧
          t.target n = s.target n ||| (1 : Byte) <<< p)

/-- Whatever the other agents do meanwhile, short of an environment step or a reset: a single-pin mutation that ends OK has
written the computed value, and a CFG_IN_IRQ that ends OK has set bit `p` of its four registers, and no other register has
changed but INTF, which the poll loop may have cleared (R105, R106, R113, R75). -/
def Obligations.QuietMutationChangesOnlyItsBit : Prop :=
  ∀ (p : Nat) (s t : State), Accepted s → LockInv s → s.cfg.regAddr.wf → s.mem.wf → Quiet s.inputs → NoReset s.inputs →
    (∀ (i : Instr) (g : Byte → Byte),
      ((i = .setOn p ∧ g = fun v => v ||| (1 : Byte) <<< p) ∨
        (i = .setOff p ∧ g = fun v => v &&& ~~~ ((1 : Byte) <<< p)) ∨
        (i = .toggle p ∧ g = fun v => v ^^^ (1 : Byte) <<< p)) →
      exec i s = .next t → t.cs = .idle → t.resp.code = 0 →
        t.target .port = g (s.target .port) ∧ ∀ n, n ≠ .port → n ≠ .intf → t.target n = s.target n) ∧
    (exec (.cfgInIrq p) s = .next t → t.cs = .idle → t.resp.code = 0 →
      (∀ n ∈ [Reg.dir, .gppu, .ipol, .gpinten], t.target n = s.target n ||| (1 : Byte) <<< p) ∧
        ∀ n, n ∉ [Reg.dir, .gppu, .ipol, .gpinten] → n ≠ .intf → t.target n = s.target n)

/-- TOGGLE twice under a quiet environment gives PORT its value back (R102). -/
def Obligations.ToggleTwiceRestoresThePort : Prop :=
  ∀ (p : Nat) (w : Byte) (s : State) (es : List Event), decode w = .ok (.toggle p) → p ≤ 7 → s.cs = .idle →
    LockInv s → s.ready = true → s.owner = .free → s.cfg.regAddr.wf → s.mem.wf →
    s.inputs = .submit w :: served 2 ++ .submit w :: served 2 ++ es →
      ∃ t, Host.Core.run core 2 s = .next t ∧ t.resp = ⟨0, 0, 0⟩ ∧ t.inputs = es ∧ t.cs = .idle ∧
        ∀ n, t.target n = s.target n

/-! CFG_IN_IRQ (42_mode_config.md). -/

/-- CFG_IN_IRQ p sets bit `p` of DIR, GPPU, IPOL and GPINTEN and no other bit (R110, R113). -/
def Obligations.CfgInIrqConfiguresThePin : Prop :=
  ∀ (p : Nat) (s : State) (es : List Event), p ≤ 7 → Accepted s → s.ready = true → s.owner = .free →
    s.cfg.regAddr.wf → s.mem.wf → s.inputs = served 8 ++ es →
      RunsTo (.cfgInIrq p) s { s with
        cs := .idle, resp := ⟨0, 0, 0⟩, inputs := es,
        mem := writeAll s.cfg.regAddr (fun n => s.target n ||| (1 : Byte) <<< p) [.dir, .gppu, .ipol, .gpinten] s.mem }

/-- CFG_IN_IRQ whose transaction `k` fails: BUS_FAIL for the first read, else PARTIAL_CONFIG with `k`; the registers whose
write comes before `k` stay written, and a failing write takes effect or not (R112, R138, R168). -/
def Obligations.CfgInIrqFailureReportsItsPosition : Prop :=
  ∀ (p k : Nat) (took : Bool) (s : State) (es : List Event), p ≤ 7 → k < 8 → Accepted s → s.ready = true →
    s.owner = .free → s.cfg.regAddr.wf → s.mem.wf → s.inputs = failedAt k took ++ es →
      RunsTo (.cfgInIrq p) s { s with
        cs := .idle, resp := if k = 0 then ⟨1, 0, 0⟩ else ⟨4, 0, BitVec.ofNat 8 k⟩, inputs := es,
        mem := writeAll s.cfg.regAddr (fun n => s.target n ||| (1 : Byte) <<< p)
          ([Reg.dir, .gppu, .ipol, .gpinten].take ((if took then k + 1 else k) / 2)) s.mem }

/-! POLL_START and POLL_STOP (43_interrupt_poll.md). -/

/-- POLL_START starts the loop at HEAD with the flags cleared, keeps the queue, and issues no transaction (R114). -/
def Obligations.PollStartStartsTheLoop : Prop :=
  ∀ (s : State) (es : List Event), Accepted s → s.pollRun = false → s.ready = true → s.inputs = .csTurn :: es →
    exec .pollStart s = .next { s with
      pollRun := true, stopReq := false, pollErr := 0, pollState := .idle, ps := .head, cs := .idle,
      resp := ⟨0, 0, 0⟩, inputs := es }

/-- POLL_STOP raises the stop signal of a running loop, does nothing otherwise, and ends OK without a check of `ready`
(R115). -/
def Obligations.PollStopRaisesTheStopSignal : Prop :=
  ∀ (s : State) (es : List Event), Accepted s → s.inputs = .csTurn :: es →
    exec .pollStop s = .next { s with
      stopReq := if s.pollRun then true else s.stopReq, cs := .idle, resp := ⟨0, 0, 0⟩, inputs := es }

/-! Frames: what a command leaves unchanged, whatever the CS and BA do and however many transactions fail. -/

/-- SET_ON, SET_OFF, TOGGLE, ALL_ON and ALL_OFF change no byte of the target but PORT, and of the controller only the
response, the CS's own state and the lock (R99 to R104). -/
def Obligations.PortWritersChangeOnlyThePort : Prop :=
  ∀ (i : Instr) (s t : State), ((∃ p, i = .setOn p ∨ i = .setOff p ∨ i = .toggle p) ∨ i = .allOn ∨ i = .allOff) →
    Accepted s → s.cfg.regAddr.wf → OnlyCommand s.inputs → exec i s = .next t →
      SameHandle s t ∧ SamePoll s t ∧ t.cmd = s.cmd ∧
        ∀ a, a ≠ regKey s.cfg.regAddr .port → t.mem.read a = s.mem.read a

/-- READ writes no target register, and of the handle only snapshot entry `p`, and that only below `snapLen` (R98,
R99). -/
def Obligations.ReadChangesOnlyItsSnapshotEntry : Prop :=
  ∀ (p : Nat) (s t : State), Accepted s → s.cfg.regAddr.wf → OnlyCommand s.inputs → exec (.read p) s = .next t →
    t.ready = s.ready ∧ t.pinCount = s.pinCount ∧ t.snapLen = s.snapLen ∧ SamePoll s t ∧ t.cmd = s.cmd ∧
      (∀ q, (q ≠ p ∨ s.snapLen.toNat ≤ p) → t.snap.getLsbD q = s.snap.getLsbD q) ∧
      ∀ a, t.mem.read a = s.mem.read a

/-- INIT changes no byte of the target but DIR, GPPU and INTCON, and of the controller only the handle, the response, the
CS's own state and the lock (R89, R95). -/
def Obligations.InitChangesOnlyItsThreeRegisters : Prop :=
  ∀ (n : Nat) (s t : State), Accepted s → s.cfg.regAddr.wf → OnlyCommand s.inputs → exec (.init n) s = .next t →
    SamePoll s t ∧ t.cmd = s.cmd ∧
      ∀ a, a ≠ regKey s.cfg.regAddr .dir → a ≠ regKey s.cfg.regAddr .gppu → a ≠ regKey s.cfg.regAddr .intcon →
        t.mem.read a = s.mem.read a

/-- CFG_IN_IRQ changes no byte of the target but DIR, GPPU, IPOL and GPINTEN, and of the controller only the response, the
CS's own state and the lock (R110). -/
def Obligations.CfgInIrqChangesOnlyItsFourRegisters : Prop :=
  ∀ (p : Nat) (s t : State), Accepted s → s.cfg.regAddr.wf → OnlyCommand s.inputs → exec (.cfgInIrq p) s = .next t →
    SameHandle s t ∧ SamePoll s t ∧ t.cmd = s.cmd ∧
      ∀ a, (∀ n ∈ [Reg.dir, .gppu, .ipol, .gpinten], a ≠ regKey s.cfg.regAddr n) → t.mem.read a = s.mem.read a

/-! The bus and the target (20_memory.md). -/

/-- A completed write sets the register it names to the byte, changes no other byte of the target, clears the pending entry,
and changes nothing else of the state that the sequencer is given with the outcome OK (R58, R64). -/
def Obligations.CompletedWriteSetsItsRegister : Prop :=
  ∀ (who : Sequencer) (back : BusReturn → State → State) (n : Reg) (v : Byte) (s : State), s.cfg.regAddr.wf → s.mem.wf →
    s.pend who = some (.write (s.cfg.regAddr.addr n) v) →
      ∃ m, completeTxn who back .ok s = .next (back .wrote (setPend who none (setMem m s))) ∧
        (∀ k, (setMem m s).target k = if k = n then v else s.target k) ∧
        ∀ a, a ≠ regKey s.cfg.regAddr n → m.read a = s.mem.read a

/-- A completed read returns the register as it stands and clears the pending entry; a read of INTCAP also sets INTF to 0x00,
and no other read has a side effect; nothing else changes of the state that the sequencer is given with the byte (R58,
R65). -/
def Obligations.CompletedReadReturnsItsRegister : Prop :=
  ∀ (who : Sequencer) (back : BusReturn → State → State) (n : Reg) (s : State), s.cfg.regAddr.wf → s.mem.wf →
    s.pend who = some (.read (s.cfg.regAddr.addr n)) →
      ∃ m, completeTxn who back .ok s = .next (back (.data (s.target n)) (setPend who none (setMem m s))) ∧
        (∀ k, (setMem m s).target k = if n = .intcap ∧ k = .intf then 0 else s.target k) ∧
        ∀ a, (n = .intcap → a ≠ regKey s.cfg.regAddr .intf) → m.read a = s.mem.read a

/-- A transaction that completes with ERR returns no byte; a failed write took effect or not, a failed INTCAP read cleared
INTF or not, and any other failed read changes nothing; the pending entry is cleared, and nothing else changes of the state
that the sequencer is given with the outcome ERR (R61, R58). -/
def Obligations.FailedTransactionMayTakeEffect : Prop :=
  ∀ (who : Sequencer) (back : BusReturn → State → State) (took : Bool) (n : Reg) (v : Byte) (s : State),
    s.cfg.regAddr.wf → s.mem.wf →
    (s.pend who = some (.write (s.cfg.regAddr.addr n) v) →
      ∃ m, completeTxn who back (.err took) s = .next (back .err (setPend who none (setMem m s))) ∧
        (∀ k, (setMem m s).target k = if took = true ∧ k = n then v else s.target k) ∧
        ∀ a, a ≠ regKey s.cfg.regAddr n → m.read a = s.mem.read a) ∧
    (s.pend who = some (.read (s.cfg.regAddr.addr n)) →
      ∃ m, completeTxn who back (.err took) s = .next (back .err (setPend who none (setMem m s))) ∧
        (∀ k, (setMem m s).target k = if took = true ∧ n = .intcap ∧ k = .intf then 0 else s.target k) ∧
        ∀ a, (n = .intcap → a ≠ regKey s.cfg.regAddr .intf) → m.read a = s.mem.read a)

/-- The environment may set any register to any byte, and changes nothing else (R66). -/
def Obligations.EnvironmentSetsAnyRegister : Prop :=
  ∀ (turn : State → State) (back : BusReturn → State → State) (n : Reg) (b : Byte) (s : State),
    s.cfg.regAddr.wf → s.mem.wf →
      ∃ t, agentStep turn back (.env n b) s = .next t ∧ { t with mem := s.mem } = s ∧
        ∀ k, t.target k = if k = n then b else s.target k

/-- A transaction of the CS that BA never completes stalls its command with the lock held, whatever the other agents do (R62,
R169); for the PS's transactions see the next statement. -/
def Obligations.HungTransactionStallsTheCommand : Prop :=
  ∀ (i : Instr) (s t : State) (x : Txn), s.cs = .busy → s.pendCs = some x → s.owner = .cs → NoReset s.inputs →
    (∀ e ∈ s.inputs, e.completesCs = false) → exec i s = .next t →
      t.cs = .busy ∧ t.pendCs = some x ∧ t.owner = .cs ∧ t.tx = s.tx

/-- A flag or capture read that BA never completes keeps the PS in FLAGS or ACK with the lock held, whatever a step runs: the
loop keeps running, a stop request stays raised and is not honoured, the CS issues no transaction, a command that waits for
the lock goes on waiting, and one with transactions that has just been accepted comes to wait, unless its checks refuse it
(R130, R62, R169). -/
def Obligations.HungPollReadStallsTheLoop : Prop :=
  ∀ s t : State, LockInv s → (s.ps = .flags ∨ s.ps = .ack) → NoReset s.inputs →
    (∀ e ∈ s.inputs, e.completesPs = false) → step s = .next t →
      t.ps = s.ps ∧ t.pendPs = s.pendPs ∧ t.pendPs ≠ none ∧ t.owner = .ps ∧ t.pollRun = true ∧
        (s.stopReq = true → t.stopReq = true) ∧ t.pendCs = none ∧
        (s.cs = .busy → s.phase = .acquire → t.cs = .busy ∧ t.phase = .acquire) ∧
        (s.cs = .busy → s.phase = .start → hasTransactions s.cmd = true → t.cs = .busy ∨ t.resp.code ≠ 0)

/-! The poll sequencer (43_interrupt_poll.md). -/

/-- HEAD checks the stop signal: stop and OFF, or on to LOCK; the PS holds no lock there (R117). -/
def Obligations.HeadChecksTheStopSignal : Prop :=
  ∀ (turn : State → State) (back : BusReturn → State → State) (s : State), s.ps = .head →
    (s.stopReq = true → agentStep turn back .psTurn s =
      .next { s with pollRun := false, stopReq := false, pollState := .idle, ps := .off }) ∧
    (s.stopReq = false → agentStep turn back .psTurn s = .next { s with ps := .lock }) ∧
    (LockInv s → s.owner ≠ .ps)

/-- LOCK waits while the lock is held, and else acquires it and issues the INTF read (R118). SLEEP is one step to HEAD that is
always enabled and does not check the stop signal; the PS holds no lock in it (R128). -/
def Obligations.LockReadsTheFlagsAndSleepEnds : Prop :=
  ∀ (turn : State → State) (back : BusReturn → State → State) (s : State),
    (s.ps = .lock → s.owner ≠ .free → agentStep turn back .psTurn s = .next s) ∧
    (s.ps = .lock → s.owner = .free → s.pendPs = none → agentStep turn back .psTurn s =
      .next { s with owner := .ps, pendPs := some (.read (s.cfg.regAddr.addr .intf)), ps := .flags }) ∧
    (s.ps = .sleep → agentStep turn back .psTurn s = .next { s with ps := .head }) ∧
    (s.ps = .sleep → LockInv s → s.owner ≠ .ps)

/-- FLAGS with a zero byte: the lock is released, Idle, SLEEP; nothing is emitted and INTCAP is not read (R119). With a
non-zero byte: Fired, the decoded list to deliver, EMIT, the lock still held (R120). -/
def Obligations.FlagByteDecidesTheIteration : Prop :=
  ∀ (turn : State → State) (back : BusReturn → State → State) (s : State), s.ps = .flags → s.owner = .ps →
    s.pendPs = some (.read (s.cfg.regAddr.addr .intf)) → s.cfg.regAddr.wf →
    (s.target .intf = 0 → agentStep turn back (.complete .ps .ok) s =
      .next { s with pendPs := none, owner := .free, pollState := .idle, ps := .sleep }) ∧
    (s.target .intf ≠ 0 → agentStep turn back (.complete .ps .ok) s =
      .next { s with
        pendPs := none, f := s.target .intf, pollState := .fired, ps := .emit,
        emitList := decodeFlags s.cfg.decodePolicy (s.target .intf) })

/-- The decoder: LOWEST_FIRST gives the lowest set bit alone, ALL_ASCENDING every set bit and no other, ascending (R121,
R122). -/
def Obligations.DecoderFollowsItsPolicy : Prop :=
  ∀ f : Byte, f ≠ 0 →
    (∃ p, decodeFlags .lowestFirst f = [p] ∧ f.getLsbD p.toNat = true ∧
      ∀ q : PinIndex, q.toNat < p.toNat → f.getLsbD q.toNat = false) ∧
    (∀ q : PinIndex, q ∈ decodeFlags .allAscending f ↔ f.getLsbD q.toNat = true) ∧
    (decodeFlags .allAscending f).Pairwise (fun p q => p.toNat < q.toNat)

/-- EMIT delivers one index to the queue's tail if the queue has room, holds if it is full, and issues the INTCAP read
when none is left (R123, R126). -/
def Obligations.EmitDeliversThenAcknowledges : Prop :=
  ∀ (turn : State → State) (back : BusReturn → State → State) (s : State), s.ps = .emit →
    (∀ p rest, s.emitList = p :: rest → (∀ d ∈ s.cfg.irqDepth, s.irqQ.length < d) →
      agentStep turn back .psTurn s = .next { s with irqQ := s.irqQ ++ [p], emitList := rest }) ∧
    (∀ p rest d, s.emitList = p :: rest → s.cfg.irqDepth = some d → d ≤ s.irqQ.length →
      agentStep turn back .psTurn s = .next s) ∧
    (s.emitList = [] → s.owner = .ps → s.pendPs = none → agentStep turn back .psTurn s =
      .next { s with pendPs := some (.read (s.cfg.regAddr.addr .intcap)), ps := .ack })

/-- ACK: INTF cleared by the read, the byte discarded, the lock released, Idle, straight to HEAD without a sleep (R124,
R65). -/
def Obligations.AcknowledgeReturnsToHead : Prop :=
  ∀ (turn : State → State) (back : BusReturn → State → State) (s : State), s.ps = .ack → s.owner = .ps →
    s.pendPs = some (.read (s.cfg.regAddr.addr .intcap)) → s.cfg.regAddr.wf →
      agentStep turn back (.complete .ps .ok) s =
        .next { s with
          pendPs := none, owner := .free, pollState := .idle, ps := .head,
          mem := s.mem.write (regKey s.cfg.regAddr .intf) 0 }

/-- A failed flag or capture read stops the loop with POLL_ERR = BUS_FAIL; what was emitted stays queued (R125, R142). -/
def Obligations.BusFailureStopsTheLoop : Prop :=
  ∀ (turn : State → State) (back : BusReturn → State → State) (took : Bool) (s : State), s.cfg.regAddr.wf →
    ((s.ps = .flags ∧ s.pendPs = some (.read (s.cfg.regAddr.addr .intf))) ∨
      (s.ps = .ack ∧ s.pendPs = some (.read (s.cfg.regAddr.addr .intcap)))) → s.owner = .ps →
      agentStep turn back (.complete .ps (.err took)) s =
        .next { s with
          pendPs := none, owner := .free, pollErr := 1, pollRun := false, stopReq := false, pollState := .idle,
          ps := .off,
          mem := if took = true ∧ s.ps = .ack then s.mem.write (regKey s.cfg.regAddr .intf) 0 else s.mem }

/-- One whole iteration on a non-zero flag byte, with an unbounded queue and nobody else moving: exactly the decoded
indices are delivered in order, INTF is cleared, no sleep follows (R120 to R124, R127). -/
def Obligations.PollIterationDeliversTheDecodedPins : Prop :=
  ∀ (s : State) (es : List Event), s.cs = .idle → s.ps = .head → s.stopReq = false → LockInv s → s.owner = .free →
    s.cfg.regAddr.wf → s.mem.wf → s.cfg.irqDepth = none → s.target .intf ≠ 0 →
    let k := (decodeFlags s.cfg.decodePolicy (s.target .intf)).length
    s.inputs = [.psTurn, .psTurn, .complete .ps .ok] ++ List.replicate (k + 1) .psTurn ++ [.complete .ps .ok] ++ es →
      ∃ t, Host.Core.run core (k + 5) s = .next t ∧
        t.irqQ = s.irqQ ++ decodeFlags s.cfg.decodePolicy (s.target .intf) ∧ t.target .intf = 0 ∧
        (∀ n, n ≠ .intf → t.target n = s.target n) ∧ t.ps = .head ∧ t.owner = .free ∧ t.pollState = .idle ∧
        t.pollRun = true ∧ t.inputs = es ∧ SameHandle s t ∧ t.resp = s.resp

/-- A full queue holds the bus: while the host does not pop and does not reset, a command that waits for the lock goes on
waiting and the PS stays in EMIT (R126, R165). -/
def Obligations.FullQueueHoldsTheBus : Prop :=
  ∀ (i : Instr) (s t : State) (d : Nat), s.cs = .busy → decode s.cmd = .ok i → s.phase = .acquire → LockInv s →
    s.ps = .emit → s.emitList ≠ [] → s.cfg.irqDepth = some d → d ≤ s.irqQ.length → NoReset s.inputs →
    (∀ e ∈ s.inputs, e ≠ .pop) → exec i s = .next t →
      t.cs = .busy ∧ t.phase = .acquire ∧ t.ps = .emit ∧ t.owner = .ps ∧ t.irqQ = s.irqQ

/-! The host's steps and views (10_state.md, 70_reset_and_hazards.md). -/

/-- IRQ_POP takes the head of the queue, or answers {0, 0} and changes nothing; any time, PS running or not (R39). The
record given is held in the model's own `hostPop` (log 12). -/
def Obligations.IrqPopTakesTheHead : Prop :=
  ∀ (turn : State → State) (back : BusReturn → State → State) (s : State),
    (∀ p rest, s.irqQ = p :: rest →
      agentStep turn back .pop s = .next { s with irqQ := rest, hostPop := ⟨true, p⟩ }) ∧
    (s.irqQ = [] → agentStep turn back .pop s = .next { s with hostPop := ⟨false, 0⟩ })

/-- The bits of STATUS and the other views, and their reset values (R37, R38, R40). -/
def Obligations.StatusShowsTheFlags : Prop :=
  (∀ s : State,
    (status s).getLsbD 0 = s.ready ∧ (status s).getLsbD 1 = decide (s.cs = .busy) ∧
    (status s).getLsbD 2 = s.pollRun ∧ (status s).getLsbD 3 = s.stopReq ∧
    (status s).getLsbD 4 = decide (s.pollState = .fired) ∧ (status s).extractLsb' 5 3 = s.pollErr ∧
    pinCountView s = s.pinCount ∧ snapLenView s = s.snapLen ∧ snapView s = s.snap ∧ irqCount s = s.irqQ.length) ∧
  status State.reset = 0 ∧ pinCountView State.reset = 0 ∧ snapLenView State.reset = 0 ∧ snapView State.reset = 0 ∧
  irqCount State.reset = 0

/-- Controller reset, at any time: every element at its reset value but the scratch, which is left open; the target
unchanged, but for the open effect of an abandoned write or INTCAP read (R158, R159). That the model's own fields `hostPop`
and `inputs` survive a reset is the model's choice (log 12, log 1). -/
def Obligations.ControllerResetSetsEveryElement : Prop :=
  ∀ (turn : State → State) (back : BusReturn → State → State) (d : ResetDraw) (s : State), PendMapped s →
    ∃ t m, agentStep turn back (.reset d) s = .next t ∧
      { noScratch t with f := 0, emitList := [] } =
        { State.reset with mem := m, cfg := s.cfg, hostPop := s.hostPop, inputs := s.inputs } ∧
      status t = 0 ∧ irqCount t = 0 ∧
      (s.pendCs = none → s.pendPs = none → m = s.mem) ∧
      (∀ n, n ≠ .intcap → s.cfg.regAddr.wf →
        ((s.pendCs = some (.read (s.cfg.regAddr.addr n)) ∧ s.pendPs = none) ∨
          (s.pendCs = none ∧ s.pendPs = some (.read (s.cfg.regAddr.addr n)))) → m = s.mem) ∧
      (∀ n v, s.pendCs = some (.write (s.cfg.regAddr.addr n) v) → s.pendPs = none →
        m = if d.csTook then s.mem.write (regKey s.cfg.regAddr n) v else s.mem) ∧
      (s.cfg.regAddr.wf → s.pendCs = none → s.pendPs = some (.read (s.cfg.regAddr.addr .intcap)) →
        m = if d.psTook then s.mem.write (regKey s.cfg.regAddr .intf) 0 else s.mem)

/-- The reset values of R15 and R158. -/
def Obligations.ResetStateHasTheResetValues : Prop :=
  State.reset.ready = false ∧ State.reset.pinCount = 0 ∧ State.reset.snapLen = 0 ∧ State.reset.snap = 0 ∧
  State.reset.cs = .idle ∧ State.reset.ps = .off ∧ State.reset.owner = .free ∧ State.reset.pendCs = none ∧
  State.reset.pendPs = none ∧ State.reset.pollRun = false ∧ State.reset.stopReq = false ∧
  State.reset.pollState = .idle ∧ State.reset.pollErr = 0 ∧ State.reset.irqQ = [] ∧ State.reset.resp = ⟨0, 0, 0⟩

/-! Invariants, and rules about every step. -/

/-- Every invariant below holds at reset, with the default parameters. -/
def Obligations.ResetMeetsTheInvariants : Prop :=
  LockInv State.reset ∧ PollInv State.reset ∧ HandleInv State.reset ∧ SnapBuild State.reset ∧ QueueInv State.reset ∧
  EmitInv State.reset ∧ MemInv State.reset ∧ PendMapped State.reset ∧ PendIssuable State.reset ∧ State.reset.cfg.wf

/-- The lock discipline is kept by every step: at most one transaction is pending, only the lock's holder has one, and the
PS holds the lock exactly from its INTF read to its INTCAP read (R24, R74, R75, R174). -/
def Obligations.StepKeepsTheLockDiscipline : Prop :=
  ∀ s t : State, LockInv s → step s = .next t → LockInv t ∧ (t.pendCs = none ∨ t.pendPs = none)

/-- The poll flags are kept consistent by every step (R25 to R28, R142). -/
def Obligations.StepKeepsThePollFlags : Prop :=
  ∀ s t : State, PollInv s → step s = .next t → PollInv t

/-- The handle and its snapshot are kept consistent by every step (R16 to R19, R91 to R93). -/
def Obligations.StepKeepsTheHandle : Prop :=
  ∀ s t : State, HandleInv s ∧ SnapBuild s → step s = .next t → HandleInv t ∧ SnapBuild t

/-- The register file lists the eleven addresses only, in every step (R45, R71), and keeps its canonical form, in rising order
with no 0x00 listed, which is the model's representation of the target's registers (log 5). -/
def Obligations.StepKeepsTheRegisterFile : Prop :=
  ∀ s t : State, MemInv s → step s = .next t → MemInv t

/-- The queue never outgrows IRQQ_DEPTH, and what is still to be delivered are set bits of the flag byte in ascending
order, in every step (R29, R126, R127). -/
def Obligations.StepKeepsTheQueue : Prop :=
  ∀ s t : State, QueueInv s ∧ EmitInv s → step s = .next t → QueueInv t ∧ EmitInv t

/-- The controller issues only reads of DIR, IPOL, GPINTEN, GPPU, INTF, INTCAP and PORT, never of DEFVAL, INTCON, IOCON or
OLAT, and only writes of DIR, IPOL, GPINTEN, INTCON, GPPU and PORT (R50, R51, R52, R57, R64, R71). -/
def Obligations.StepIssuesOnlyItsTransactions : Prop :=
  ∀ s t : State, PendIssuable s → step s = .next t → PendIssuable t

/-- No step stops the machine: from a state whose pending transactions name registers, every step answers a next state,
and one of the same kind (R131, R71). -/
def Obligations.EveryStepAnswersANextState : Prop :=
  ∀ s : State, PendMapped s → ∃ t, step s = .next t ∧ PendMapped t

/-- DEFVAL, IOCON, INTCAP and OLAT change only by the environment (R50, R52, R55, R57). -/
def Obligations.UntouchedRegistersChangeOnlyByTheEnvironment : Prop :=
  ∀ (s t : State) (n : Reg), n ∈ [Reg.defval, .iocon, .intcap, .olat] → s.cfg.regAddr.wf → MemInv s → PendIssuable s →
    Quiet s.inputs → step s = .next t → t.target n = s.target n

/-- Which commands write what, in every step: only INIT makes the handle usable (R16), only POLL_START starts the loop (R25,
R154), only POLL_STOP raises the stop signal (R26), and nothing changes a parameter (R34). -/
def Obligations.OnlyTheirCommandsSetTheFlags : Prop :=
  ∀ s t : State, step s = .next t →
    (s.ready = false → t.ready = true → ∃ n, decode t.cmd = .ok (.init n)) ∧
    (s.pollRun = false → t.pollRun = true → decode t.cmd = .ok .pollStart) ∧
    (s.stopReq = false → t.stopReq = true → decode t.cmd = .ok .pollStop) ∧
    t.cfg = s.cfg

/-- Bounded progress: a running command that does not wait for the PS ends, whatever its position, when the CS and BA move
in turn (R62, R132, R133, R144). The number of rounds rests on the model's grain of the CS's local steps (log 20). -/
def Obligations.ServedCommandEnds : Prop :=
  ∀ (s : State) (es : List Event), s.cs = .busy → LockInv s → PendMapped s → s.owner ≠ .ps →
    s.inputs = (List.replicate 30 [Event.csTurn, .complete .cs .ok]).flatten ++ es →
      ∃ t, step s = .next t ∧ t.cs = .idle

/-- A command ends in every endless run without a reset, if BA completes every transaction, both sequencers get their
turns, and the lock is fair, while the loop runs or not; with an unbounded queue (R62, R75, R165). That both sequencers get turns again and again is the
model's reading of R7 (log 18). -/
def Obligations.FairCommandEnds : Prop :=
  ∀ (sched : Nat → Event) (s : State), Accepted s → LockInv s → PendMapped s → s.cfg.irqDepth = none →
    (∀ k, (sched k).isReset = false) → BusLive sched s → TurnsRecur sched → LockFair sched s →
      ∃ k, (trace sched s k).cs = .idle
end

