-- ==== Sys2Proof/Laws/Memory.lean ====
section
/-! SUPPORT. The register file: read after write, and the canonical form kept by every write. -/

namespace Sys2Proof.Machine

theorem Memory.read_write_same (m : Memory) (h : m.wf) (a : Nat) (v : Byte) : (m.write a v).read a = v := by
  have hs := h.1
  clear h
  induction m with
  | nil =>
    by_cases hv : v = Memory.blank <;> simp [Memory.write, Memory.read, hv]
  | cons c m ih =>
    obtain ⟨b, x⟩ := c
    rw [List.pairwise_cons] at hs
    have notIn : ∀ n : Memory, (∀ c ∈ n, a < c.1) → Memory.read n a = Memory.blank := by
      intro n hn
      induction n with
      | nil => rfl
      | cons d n ihn =>
        have hd := hn d (by simp)
        simp only [Memory.read]
        rw [if_neg (by omega)]
        exact ihn (fun c hc => hn c (by simp [hc]))
    simp only [Memory.write]
    by_cases hlt : a < b
    · rw [if_pos hlt]
      by_cases hv : v = Memory.blank
      · rw [if_pos hv, hv]
        apply notIn
        intro c hc
        rcases List.mem_cons.1 hc with rfl | hc
        · exact hlt
        · exact lt_trans hlt (hs.1 c hc)
      · simp [hv, Memory.read]
    · rw [if_neg hlt]
      by_cases hab : a = b
      · subst hab
        by_cases hv : v = Memory.blank
        · simp only [if_true, hv]
          exact notIn m (fun c hc => hs.1 c hc)
        · simp [hv, Memory.read]
      · rw [if_neg hab]
        simp only [Memory.read]
        rw [if_neg (fun h => hab h.symm)]
        exact ih hs.2

theorem Memory.read_write_other (m : Memory) (a b : Nat) (v : Byte) (hne : a ≠ b) :
    (m.write a v).read b = m.read b := by
  induction m with
  | nil => by_cases hv : v = Memory.blank <;> simp [Memory.write, Memory.read, hv, hne]
  | cons c m ih =>
    obtain ⟨d, x⟩ := c
    simp only [Memory.write]
    by_cases h1 : a < d
    · rw [if_pos h1]
      by_cases hv : v = Memory.blank <;> simp [hv, Memory.read, hne]
    · rw [if_neg h1]
      by_cases h2 : a = d
      · subst h2
        by_cases hv : v = Memory.blank <;> simp [hv, Memory.read, hne]
      · simp only [if_neg h2, Memory.read, ih]

theorem Memory.mem_write (m : Memory) (a : Nat) (v : Byte) (c : Host.Cell) (h : c ∈ m.write a v) :
    c ∈ m ∨ (c = (a, v) ∧ v ≠ Memory.blank) := by
  induction m with
  | nil =>
    by_cases hv : v = Memory.blank <;> simp_all [Memory.write]
  | cons d m ih =>
    obtain ⟨b, x⟩ := d
    simp only [Memory.write] at h
    split at h
    · split at h
      · exact .inl h
      · rcases List.mem_cons.1 h with rfl | h
        · exact .inr ⟨rfl, by assumption⟩
        · exact .inl h
    · split at h
      · split at h
        · exact .inl (List.mem_cons_of_mem _ h)
        · rcases List.mem_cons.1 h with rfl | h
          · exact .inr ⟨rfl, by assumption⟩
          · exact .inl (List.mem_cons_of_mem _ h)
      · rcases List.mem_cons.1 h with rfl | h
        · exact .inl (by simp)
        · rcases ih h with h | h
          · exact .inl (List.mem_cons_of_mem _ h)
          · exact .inr h

/-- Every write keeps the canonical form. -/
theorem Memory.write_wf (m : Memory) (h : m.wf) (a : Nat) (v : Byte) : (m.write a v).wf := by
  obtain ⟨hs, hb⟩ := h
  refine ⟨?_, ?_⟩
  · clear hb
    induction m with
    | nil => by_cases hv : v = Memory.blank <;> simp [Memory.write, hv]
    | cons d m ih =>
      obtain ⟨b, x⟩ := d
      have hp := List.pairwise_cons.1 hs
      simp only [Memory.write]
      by_cases h1 : a < b
      · rw [if_pos h1]
        by_cases hv : v = Memory.blank
        · rw [if_pos hv]; exact hs
        · rw [if_neg hv]
          refine List.pairwise_cons.2 ⟨?_, hs⟩
          intro c hc
          rcases List.mem_cons.1 hc with rfl | hc
          · exact h1
          · exact lt_trans h1 (hp.1 c hc)
      · rw [if_neg h1]
        by_cases h2 : a = b
        · subst h2
          rw [if_pos rfl]
          by_cases hv : v = Memory.blank
          · rw [if_pos hv]; exact hp.2
          · rw [if_neg hv]; exact List.pairwise_cons.2 ⟨hp.1, hp.2⟩
        · rw [if_neg h2]
          refine List.pairwise_cons.2 ⟨?_, ih hp.2⟩
          intro c hc
          rcases Memory.mem_write m a v c hc with hc | ⟨rfl, _⟩
          · exact hp.1 c hc
          · show b < a
            omega
  · intro c hc
    rcases Memory.mem_write m a v c hc with hc | ⟨rfl, hv⟩
    · exact hb c hc
    · exact hv

theorem Memory.wf_nil : Memory.wf [] := by decide

theorem Memory.read_nil (a : Nat) : Memory.read [] a = Memory.blank := rfl

/-- The register file as the reset state has it is canonical. -/
theorem reset_mem_wf : State.reset.mem.wf := by decide

end Sys2Proof.Machine
end

