-- ==== Sys2Proof/Laws/RegMap.lean ====
section
/-! SUPPORT. The register map: every register is found at its address, and distinct registers have distinct addresses. -/

namespace Sys2Proof.Machine

theorem Reg.mem_all (n : Reg) : n ∈ Reg.all := by cases n <;> decide

/-- The address of a register is mapped, whatever the map. -/
theorem regAt?_addr_isSome (rm : RegMap) (n : Reg) : (regAt? rm (rm.addr n)).isSome = true := by
  rw [regAt?, List.find?_isSome]
  exact ⟨n, Reg.mem_all n, by simp⟩

/-- What is found at an address has that address. -/
theorem regAt?_addr (rm : RegMap) (a : Byte) (n : Reg) (h : regAt? rm a = some n) : rm.addr n = a := by
  have := List.find?_some h
  simpa using this

theorem addr_inj (rm : RegMap) (h : rm.wf) (n k : Reg) (e : rm.addr n = rm.addr k) : n = k :=
  List.inj_on_of_nodup_map h (Reg.mem_all n) (Reg.mem_all k) e

/-- With distinct addresses the register at the address of `n` is `n`. -/
theorem regAt?_of_wf (rm : RegMap) (h : rm.wf) (n : Reg) : regAt? rm (rm.addr n) = some n := by
  obtain ⟨k, hk⟩ := Option.isSome_iff_exists.1 (regAt?_addr_isSome rm n)
  rw [hk, addr_inj rm h k n (regAt?_addr rm _ k hk)]

theorem regKey_inj (rm : RegMap) (h : rm.wf) (n k : Reg) (e : regKey rm n = regKey rm k) : n = k :=
  addr_inj rm h n k (BitVec.eq_of_toNat_eq e)

theorem regKey_ne (rm : RegMap) (h : rm.wf) {n k : Reg} (hne : n ≠ k) : regKey rm n ≠ regKey rm k :=
  fun e => hne (regKey_inj rm h n k e)

theorem default_wf : Params.default.wf := by decide

end Sys2Proof.Machine
end

