-- ==== Sys2Proof/Laws/State.lean ====
section
/-! SUPPORT. What each update of the state leaves in each field: one lemma per update and field, true by rfl. -/

namespace Sys2Proof.Machine

@[simp] theorem setMem_ready (m : Memory) (s : State) : (setMem m s).ready = s.ready := rfl
@[simp] theorem setMem_pinCount (m : Memory) (s : State) : (setMem m s).pinCount = s.pinCount := rfl
@[simp] theorem setMem_snapLen (m : Memory) (s : State) : (setMem m s).snapLen = s.snapLen := rfl
@[simp] theorem setMem_snap (m : Memory) (s : State) : (setMem m s).snap = s.snap := rfl
@[simp] theorem setMem_cs (m : Memory) (s : State) : (setMem m s).cs = s.cs := rfl
@[simp] theorem setMem_cmd (m : Memory) (s : State) : (setMem m s).cmd = s.cmd := rfl
@[simp] theorem setMem_tx (m : Memory) (s : State) : (setMem m s).tx = s.tx := rfl
@[simp] theorem setMem_v (m : Memory) (s : State) : (setMem m s).v = s.v := rfl
@[simp] theorem setMem_i (m : Memory) (s : State) : (setMem m s).i = s.i := rfl
@[simp] theorem setMem_acc (m : Memory) (s : State) : (setMem m s).acc = s.acc := rfl
@[simp] theorem setMem_phase (m : Memory) (s : State) : (setMem m s).phase = s.phase := rfl
@[simp] theorem setMem_ps (m : Memory) (s : State) : (setMem m s).ps = s.ps := rfl
@[simp] theorem setMem_f (m : Memory) (s : State) : (setMem m s).f = s.f := rfl
@[simp] theorem setMem_emitList (m : Memory) (s : State) : (setMem m s).emitList = s.emitList := rfl
@[simp] theorem setMem_owner (m : Memory) (s : State) : (setMem m s).owner = s.owner := rfl
@[simp] theorem setMem_pendCs (m : Memory) (s : State) : (setMem m s).pendCs = s.pendCs := rfl
@[simp] theorem setMem_pendPs (m : Memory) (s : State) : (setMem m s).pendPs = s.pendPs := rfl
@[simp] theorem setMem_pollRun (m : Memory) (s : State) : (setMem m s).pollRun = s.pollRun := rfl
@[simp] theorem setMem_stopReq (m : Memory) (s : State) : (setMem m s).stopReq = s.stopReq := rfl
@[simp] theorem setMem_pollState (m : Memory) (s : State) : (setMem m s).pollState = s.pollState := rfl
@[simp] theorem setMem_pollErr (m : Memory) (s : State) : (setMem m s).pollErr = s.pollErr := rfl
@[simp] theorem setMem_irqQ (m : Memory) (s : State) : (setMem m s).irqQ = s.irqQ := rfl
@[simp] theorem setMem_resp (m : Memory) (s : State) : (setMem m s).resp = s.resp := rfl
@[simp] theorem setMem_mem (m : Memory) (s : State) : (setMem m s).mem = m := rfl
@[simp] theorem setMem_cfg (m : Memory) (s : State) : (setMem m s).cfg = s.cfg := rfl
@[simp] theorem setMem_hostPop (m : Memory) (s : State) : (setMem m s).hostPop = s.hostPop := rfl
@[simp] theorem setMem_inputs (m : Memory) (s : State) : (setMem m s).inputs = s.inputs := rfl

@[simp] theorem setInputs_ready (l : List Event) (s : State) : (setInputs l s).ready = s.ready := rfl
@[simp] theorem setInputs_pinCount (l : List Event) (s : State) : (setInputs l s).pinCount = s.pinCount := rfl
@[simp] theorem setInputs_snapLen (l : List Event) (s : State) : (setInputs l s).snapLen = s.snapLen := rfl
@[simp] theorem setInputs_snap (l : List Event) (s : State) : (setInputs l s).snap = s.snap := rfl
@[simp] theorem setInputs_cs (l : List Event) (s : State) : (setInputs l s).cs = s.cs := rfl
@[simp] theorem setInputs_cmd (l : List Event) (s : State) : (setInputs l s).cmd = s.cmd := rfl
@[simp] theorem setInputs_tx (l : List Event) (s : State) : (setInputs l s).tx = s.tx := rfl
@[simp] theorem setInputs_v (l : List Event) (s : State) : (setInputs l s).v = s.v := rfl
@[simp] theorem setInputs_i (l : List Event) (s : State) : (setInputs l s).i = s.i := rfl
@[simp] theorem setInputs_acc (l : List Event) (s : State) : (setInputs l s).acc = s.acc := rfl
@[simp] theorem setInputs_phase (l : List Event) (s : State) : (setInputs l s).phase = s.phase := rfl
@[simp] theorem setInputs_ps (l : List Event) (s : State) : (setInputs l s).ps = s.ps := rfl
@[simp] theorem setInputs_f (l : List Event) (s : State) : (setInputs l s).f = s.f := rfl
@[simp] theorem setInputs_emitList (l : List Event) (s : State) : (setInputs l s).emitList = s.emitList := rfl
@[simp] theorem setInputs_owner (l : List Event) (s : State) : (setInputs l s).owner = s.owner := rfl
@[simp] theorem setInputs_pendCs (l : List Event) (s : State) : (setInputs l s).pendCs = s.pendCs := rfl
@[simp] theorem setInputs_pendPs (l : List Event) (s : State) : (setInputs l s).pendPs = s.pendPs := rfl
@[simp] theorem setInputs_pollRun (l : List Event) (s : State) : (setInputs l s).pollRun = s.pollRun := rfl
@[simp] theorem setInputs_stopReq (l : List Event) (s : State) : (setInputs l s).stopReq = s.stopReq := rfl
@[simp] theorem setInputs_pollState (l : List Event) (s : State) : (setInputs l s).pollState = s.pollState := rfl
@[simp] theorem setInputs_pollErr (l : List Event) (s : State) : (setInputs l s).pollErr = s.pollErr := rfl
@[simp] theorem setInputs_irqQ (l : List Event) (s : State) : (setInputs l s).irqQ = s.irqQ := rfl
@[simp] theorem setInputs_resp (l : List Event) (s : State) : (setInputs l s).resp = s.resp := rfl
@[simp] theorem setInputs_mem (l : List Event) (s : State) : (setInputs l s).mem = s.mem := rfl
@[simp] theorem setInputs_cfg (l : List Event) (s : State) : (setInputs l s).cfg = s.cfg := rfl
@[simp] theorem setInputs_hostPop (l : List Event) (s : State) : (setInputs l s).hostPop = s.hostPop := rfl
@[simp] theorem setInputs_inputs (l : List Event) (s : State) : (setInputs l s).inputs = l := rfl

@[simp] theorem setPhase_ready (p : CsPhase) (s : State) : (setPhase p s).ready = s.ready := rfl
@[simp] theorem setPhase_pinCount (p : CsPhase) (s : State) : (setPhase p s).pinCount = s.pinCount := rfl
@[simp] theorem setPhase_snapLen (p : CsPhase) (s : State) : (setPhase p s).snapLen = s.snapLen := rfl
@[simp] theorem setPhase_snap (p : CsPhase) (s : State) : (setPhase p s).snap = s.snap := rfl
@[simp] theorem setPhase_cs (p : CsPhase) (s : State) : (setPhase p s).cs = s.cs := rfl
@[simp] theorem setPhase_cmd (p : CsPhase) (s : State) : (setPhase p s).cmd = s.cmd := rfl
@[simp] theorem setPhase_tx (p : CsPhase) (s : State) : (setPhase p s).tx = s.tx := rfl
@[simp] theorem setPhase_v (p : CsPhase) (s : State) : (setPhase p s).v = s.v := rfl
@[simp] theorem setPhase_i (p : CsPhase) (s : State) : (setPhase p s).i = s.i := rfl
@[simp] theorem setPhase_acc (p : CsPhase) (s : State) : (setPhase p s).acc = s.acc := rfl
@[simp] theorem setPhase_phase (p : CsPhase) (s : State) : (setPhase p s).phase = p := rfl
@[simp] theorem setPhase_ps (p : CsPhase) (s : State) : (setPhase p s).ps = s.ps := rfl
@[simp] theorem setPhase_f (p : CsPhase) (s : State) : (setPhase p s).f = s.f := rfl
@[simp] theorem setPhase_emitList (p : CsPhase) (s : State) : (setPhase p s).emitList = s.emitList := rfl
@[simp] theorem setPhase_owner (p : CsPhase) (s : State) : (setPhase p s).owner = s.owner := rfl
@[simp] theorem setPhase_pendCs (p : CsPhase) (s : State) : (setPhase p s).pendCs = s.pendCs := rfl
@[simp] theorem setPhase_pendPs (p : CsPhase) (s : State) : (setPhase p s).pendPs = s.pendPs := rfl
@[simp] theorem setPhase_pollRun (p : CsPhase) (s : State) : (setPhase p s).pollRun = s.pollRun := rfl
@[simp] theorem setPhase_stopReq (p : CsPhase) (s : State) : (setPhase p s).stopReq = s.stopReq := rfl
@[simp] theorem setPhase_pollState (p : CsPhase) (s : State) : (setPhase p s).pollState = s.pollState := rfl
@[simp] theorem setPhase_pollErr (p : CsPhase) (s : State) : (setPhase p s).pollErr = s.pollErr := rfl
@[simp] theorem setPhase_irqQ (p : CsPhase) (s : State) : (setPhase p s).irqQ = s.irqQ := rfl
@[simp] theorem setPhase_resp (p : CsPhase) (s : State) : (setPhase p s).resp = s.resp := rfl
@[simp] theorem setPhase_mem (p : CsPhase) (s : State) : (setPhase p s).mem = s.mem := rfl
@[simp] theorem setPhase_cfg (p : CsPhase) (s : State) : (setPhase p s).cfg = s.cfg := rfl
@[simp] theorem setPhase_hostPop (p : CsPhase) (s : State) : (setPhase p s).hostPop = s.hostPop := rfl
@[simp] theorem setPhase_inputs (p : CsPhase) (s : State) : (setPhase p s).inputs = s.inputs := rfl

@[simp] theorem setPs_ready (p : PsState) (s : State) : (setPs p s).ready = s.ready := rfl
@[simp] theorem setPs_pinCount (p : PsState) (s : State) : (setPs p s).pinCount = s.pinCount := rfl
@[simp] theorem setPs_snapLen (p : PsState) (s : State) : (setPs p s).snapLen = s.snapLen := rfl
@[simp] theorem setPs_snap (p : PsState) (s : State) : (setPs p s).snap = s.snap := rfl
@[simp] theorem setPs_cs (p : PsState) (s : State) : (setPs p s).cs = s.cs := rfl
@[simp] theorem setPs_cmd (p : PsState) (s : State) : (setPs p s).cmd = s.cmd := rfl
@[simp] theorem setPs_tx (p : PsState) (s : State) : (setPs p s).tx = s.tx := rfl
@[simp] theorem setPs_v (p : PsState) (s : State) : (setPs p s).v = s.v := rfl
@[simp] theorem setPs_i (p : PsState) (s : State) : (setPs p s).i = s.i := rfl
@[simp] theorem setPs_acc (p : PsState) (s : State) : (setPs p s).acc = s.acc := rfl
@[simp] theorem setPs_phase (p : PsState) (s : State) : (setPs p s).phase = s.phase := rfl
@[simp] theorem setPs_ps (p : PsState) (s : State) : (setPs p s).ps = p := rfl
@[simp] theorem setPs_f (p : PsState) (s : State) : (setPs p s).f = s.f := rfl
@[simp] theorem setPs_emitList (p : PsState) (s : State) : (setPs p s).emitList = s.emitList := rfl
@[simp] theorem setPs_owner (p : PsState) (s : State) : (setPs p s).owner = s.owner := rfl
@[simp] theorem setPs_pendCs (p : PsState) (s : State) : (setPs p s).pendCs = s.pendCs := rfl
@[simp] theorem setPs_pendPs (p : PsState) (s : State) : (setPs p s).pendPs = s.pendPs := rfl
@[simp] theorem setPs_pollRun (p : PsState) (s : State) : (setPs p s).pollRun = s.pollRun := rfl
@[simp] theorem setPs_stopReq (p : PsState) (s : State) : (setPs p s).stopReq = s.stopReq := rfl
@[simp] theorem setPs_pollState (p : PsState) (s : State) : (setPs p s).pollState = s.pollState := rfl
@[simp] theorem setPs_pollErr (p : PsState) (s : State) : (setPs p s).pollErr = s.pollErr := rfl
@[simp] theorem setPs_irqQ (p : PsState) (s : State) : (setPs p s).irqQ = s.irqQ := rfl
@[simp] theorem setPs_resp (p : PsState) (s : State) : (setPs p s).resp = s.resp := rfl
@[simp] theorem setPs_mem (p : PsState) (s : State) : (setPs p s).mem = s.mem := rfl
@[simp] theorem setPs_cfg (p : PsState) (s : State) : (setPs p s).cfg = s.cfg := rfl
@[simp] theorem setPs_hostPop (p : PsState) (s : State) : (setPs p s).hostPop = s.hostPop := rfl
@[simp] theorem setPs_inputs (p : PsState) (s : State) : (setPs p s).inputs = s.inputs := rfl

@[simp] theorem takeLock_ready (q : Sequencer) (s : State) : (takeLock q s).ready = s.ready := rfl
@[simp] theorem takeLock_pinCount (q : Sequencer) (s : State) : (takeLock q s).pinCount = s.pinCount := rfl
@[simp] theorem takeLock_snapLen (q : Sequencer) (s : State) : (takeLock q s).snapLen = s.snapLen := rfl
@[simp] theorem takeLock_snap (q : Sequencer) (s : State) : (takeLock q s).snap = s.snap := rfl
@[simp] theorem takeLock_cs (q : Sequencer) (s : State) : (takeLock q s).cs = s.cs := rfl
@[simp] theorem takeLock_cmd (q : Sequencer) (s : State) : (takeLock q s).cmd = s.cmd := rfl
@[simp] theorem takeLock_tx (q : Sequencer) (s : State) : (takeLock q s).tx = s.tx := rfl
@[simp] theorem takeLock_v (q : Sequencer) (s : State) : (takeLock q s).v = s.v := rfl
@[simp] theorem takeLock_i (q : Sequencer) (s : State) : (takeLock q s).i = s.i := rfl
@[simp] theorem takeLock_acc (q : Sequencer) (s : State) : (takeLock q s).acc = s.acc := rfl
@[simp] theorem takeLock_phase (q : Sequencer) (s : State) : (takeLock q s).phase = s.phase := rfl
@[simp] theorem takeLock_ps (q : Sequencer) (s : State) : (takeLock q s).ps = s.ps := rfl
@[simp] theorem takeLock_f (q : Sequencer) (s : State) : (takeLock q s).f = s.f := rfl
@[simp] theorem takeLock_emitList (q : Sequencer) (s : State) : (takeLock q s).emitList = s.emitList := rfl
@[simp] theorem takeLock_owner (q : Sequencer) (s : State) : (takeLock q s).owner = q.owner := rfl
@[simp] theorem takeLock_pendCs (q : Sequencer) (s : State) : (takeLock q s).pendCs = s.pendCs := rfl
@[simp] theorem takeLock_pendPs (q : Sequencer) (s : State) : (takeLock q s).pendPs = s.pendPs := rfl
@[simp] theorem takeLock_pollRun (q : Sequencer) (s : State) : (takeLock q s).pollRun = s.pollRun := rfl
@[simp] theorem takeLock_stopReq (q : Sequencer) (s : State) : (takeLock q s).stopReq = s.stopReq := rfl
@[simp] theorem takeLock_pollState (q : Sequencer) (s : State) : (takeLock q s).pollState = s.pollState := rfl
@[simp] theorem takeLock_pollErr (q : Sequencer) (s : State) : (takeLock q s).pollErr = s.pollErr := rfl
@[simp] theorem takeLock_irqQ (q : Sequencer) (s : State) : (takeLock q s).irqQ = s.irqQ := rfl
@[simp] theorem takeLock_resp (q : Sequencer) (s : State) : (takeLock q s).resp = s.resp := rfl
@[simp] theorem takeLock_mem (q : Sequencer) (s : State) : (takeLock q s).mem = s.mem := rfl
@[simp] theorem takeLock_cfg (q : Sequencer) (s : State) : (takeLock q s).cfg = s.cfg := rfl
@[simp] theorem takeLock_hostPop (q : Sequencer) (s : State) : (takeLock q s).hostPop = s.hostPop := rfl
@[simp] theorem takeLock_inputs (q : Sequencer) (s : State) : (takeLock q s).inputs = s.inputs := rfl

@[simp] theorem release_ready (q : Sequencer) (s : State) : (release q s).ready = s.ready := rfl
@[simp] theorem release_pinCount (q : Sequencer) (s : State) : (release q s).pinCount = s.pinCount := rfl
@[simp] theorem release_snapLen (q : Sequencer) (s : State) : (release q s).snapLen = s.snapLen := rfl
@[simp] theorem release_snap (q : Sequencer) (s : State) : (release q s).snap = s.snap := rfl
@[simp] theorem release_cs (q : Sequencer) (s : State) : (release q s).cs = s.cs := rfl
@[simp] theorem release_cmd (q : Sequencer) (s : State) : (release q s).cmd = s.cmd := rfl
@[simp] theorem release_tx (q : Sequencer) (s : State) : (release q s).tx = s.tx := rfl
@[simp] theorem release_v (q : Sequencer) (s : State) : (release q s).v = s.v := rfl
@[simp] theorem release_i (q : Sequencer) (s : State) : (release q s).i = s.i := rfl
@[simp] theorem release_acc (q : Sequencer) (s : State) : (release q s).acc = s.acc := rfl
@[simp] theorem release_phase (q : Sequencer) (s : State) : (release q s).phase = s.phase := rfl
@[simp] theorem release_ps (q : Sequencer) (s : State) : (release q s).ps = s.ps := rfl
@[simp] theorem release_f (q : Sequencer) (s : State) : (release q s).f = s.f := rfl
@[simp] theorem release_emitList (q : Sequencer) (s : State) : (release q s).emitList = s.emitList := rfl
@[simp] theorem release_owner (q : Sequencer) (s : State) : (release q s).owner = if s.owner = q.owner then .free else s.owner := rfl
@[simp] theorem release_pendCs (q : Sequencer) (s : State) : (release q s).pendCs = s.pendCs := rfl
@[simp] theorem release_pendPs (q : Sequencer) (s : State) : (release q s).pendPs = s.pendPs := rfl
@[simp] theorem release_pollRun (q : Sequencer) (s : State) : (release q s).pollRun = s.pollRun := rfl
@[simp] theorem release_stopReq (q : Sequencer) (s : State) : (release q s).stopReq = s.stopReq := rfl
@[simp] theorem release_pollState (q : Sequencer) (s : State) : (release q s).pollState = s.pollState := rfl
@[simp] theorem release_pollErr (q : Sequencer) (s : State) : (release q s).pollErr = s.pollErr := rfl
@[simp] theorem release_irqQ (q : Sequencer) (s : State) : (release q s).irqQ = s.irqQ := rfl
@[simp] theorem release_resp (q : Sequencer) (s : State) : (release q s).resp = s.resp := rfl
@[simp] theorem release_mem (q : Sequencer) (s : State) : (release q s).mem = s.mem := rfl
@[simp] theorem release_cfg (q : Sequencer) (s : State) : (release q s).cfg = s.cfg := rfl
@[simp] theorem release_hostPop (q : Sequencer) (s : State) : (release q s).hostPop = s.hostPop := rfl
@[simp] theorem release_inputs (q : Sequencer) (s : State) : (release q s).inputs = s.inputs := rfl

@[simp] theorem respond_ready (e : ErrCode) (d n : Byte) (s : State) : (respond e d n s).ready = s.ready := rfl
@[simp] theorem respond_pinCount (e : ErrCode) (d n : Byte) (s : State) : (respond e d n s).pinCount = s.pinCount := rfl
@[simp] theorem respond_snapLen (e : ErrCode) (d n : Byte) (s : State) : (respond e d n s).snapLen = s.snapLen := rfl
@[simp] theorem respond_snap (e : ErrCode) (d n : Byte) (s : State) : (respond e d n s).snap = s.snap := rfl
@[simp] theorem respond_cs (e : ErrCode) (d n : Byte) (s : State) : (respond e d n s).cs = .idle := rfl
@[simp] theorem respond_cmd (e : ErrCode) (d n : Byte) (s : State) : (respond e d n s).cmd = s.cmd := rfl
@[simp] theorem respond_tx (e : ErrCode) (d n : Byte) (s : State) : (respond e d n s).tx = s.tx := rfl
@[simp] theorem respond_v (e : ErrCode) (d n : Byte) (s : State) : (respond e d n s).v = s.v := rfl
@[simp] theorem respond_i (e : ErrCode) (d n : Byte) (s : State) : (respond e d n s).i = s.i := rfl
@[simp] theorem respond_acc (e : ErrCode) (d n : Byte) (s : State) : (respond e d n s).acc = s.acc := rfl
@[simp] theorem respond_phase (e : ErrCode) (d n : Byte) (s : State) : (respond e d n s).phase = s.phase := rfl
@[simp] theorem respond_ps (e : ErrCode) (d n : Byte) (s : State) : (respond e d n s).ps = s.ps := rfl
@[simp] theorem respond_f (e : ErrCode) (d n : Byte) (s : State) : (respond e d n s).f = s.f := rfl
@[simp] theorem respond_emitList (e : ErrCode) (d n : Byte) (s : State) : (respond e d n s).emitList = s.emitList := rfl
@[simp] theorem respond_owner (e : ErrCode) (d n : Byte) (s : State) : (respond e d n s).owner = s.owner := rfl
@[simp] theorem respond_pendCs (e : ErrCode) (d n : Byte) (s : State) : (respond e d n s).pendCs = s.pendCs := rfl
@[simp] theorem respond_pendPs (e : ErrCode) (d n : Byte) (s : State) : (respond e d n s).pendPs = s.pendPs := rfl
@[simp] theorem respond_pollRun (e : ErrCode) (d n : Byte) (s : State) : (respond e d n s).pollRun = s.pollRun := rfl
@[simp] theorem respond_stopReq (e : ErrCode) (d n : Byte) (s : State) : (respond e d n s).stopReq = s.stopReq := rfl
@[simp] theorem respond_pollState (e : ErrCode) (d n : Byte) (s : State) : (respond e d n s).pollState = s.pollState := rfl
@[simp] theorem respond_pollErr (e : ErrCode) (d n : Byte) (s : State) : (respond e d n s).pollErr = s.pollErr := rfl
@[simp] theorem respond_irqQ (e : ErrCode) (d n : Byte) (s : State) : (respond e d n s).irqQ = s.irqQ := rfl
@[simp] theorem respond_resp (e : ErrCode) (d n : Byte) (s : State) : (respond e d n s).resp = ⟨e.code, d, n⟩ := rfl
@[simp] theorem respond_mem (e : ErrCode) (d n : Byte) (s : State) : (respond e d n s).mem = s.mem := rfl
@[simp] theorem respond_cfg (e : ErrCode) (d n : Byte) (s : State) : (respond e d n s).cfg = s.cfg := rfl
@[simp] theorem respond_hostPop (e : ErrCode) (d n : Byte) (s : State) : (respond e d n s).hostPop = s.hostPop := rfl
@[simp] theorem respond_inputs (e : ErrCode) (d n : Byte) (s : State) : (respond e d n s).inputs = s.inputs := rfl

@[simp] theorem raise_ready (e : ErrCode) (n : Byte) (s : State) : (raise e n s).ready = s.ready := rfl
@[simp] theorem raise_pinCount (e : ErrCode) (n : Byte) (s : State) : (raise e n s).pinCount = s.pinCount := rfl
@[simp] theorem raise_snapLen (e : ErrCode) (n : Byte) (s : State) : (raise e n s).snapLen = s.snapLen := rfl
@[simp] theorem raise_snap (e : ErrCode) (n : Byte) (s : State) : (raise e n s).snap = s.snap := rfl
@[simp] theorem raise_cs (e : ErrCode) (n : Byte) (s : State) : (raise e n s).cs = .idle := rfl
@[simp] theorem raise_cmd (e : ErrCode) (n : Byte) (s : State) : (raise e n s).cmd = s.cmd := rfl
@[simp] theorem raise_tx (e : ErrCode) (n : Byte) (s : State) : (raise e n s).tx = s.tx := rfl
@[simp] theorem raise_v (e : ErrCode) (n : Byte) (s : State) : (raise e n s).v = s.v := rfl
@[simp] theorem raise_i (e : ErrCode) (n : Byte) (s : State) : (raise e n s).i = s.i := rfl
@[simp] theorem raise_acc (e : ErrCode) (n : Byte) (s : State) : (raise e n s).acc = s.acc := rfl
@[simp] theorem raise_phase (e : ErrCode) (n : Byte) (s : State) : (raise e n s).phase = s.phase := rfl
@[simp] theorem raise_ps (e : ErrCode) (n : Byte) (s : State) : (raise e n s).ps = s.ps := rfl
@[simp] theorem raise_f (e : ErrCode) (n : Byte) (s : State) : (raise e n s).f = s.f := rfl
@[simp] theorem raise_emitList (e : ErrCode) (n : Byte) (s : State) : (raise e n s).emitList = s.emitList := rfl
@[simp] theorem raise_owner (e : ErrCode) (n : Byte) (s : State) : (raise e n s).owner = if s.owner = .cs then .free else s.owner := rfl
@[simp] theorem raise_pendCs (e : ErrCode) (n : Byte) (s : State) : (raise e n s).pendCs = s.pendCs := rfl
@[simp] theorem raise_pendPs (e : ErrCode) (n : Byte) (s : State) : (raise e n s).pendPs = s.pendPs := rfl
@[simp] theorem raise_pollRun (e : ErrCode) (n : Byte) (s : State) : (raise e n s).pollRun = s.pollRun := rfl
@[simp] theorem raise_stopReq (e : ErrCode) (n : Byte) (s : State) : (raise e n s).stopReq = s.stopReq := rfl
@[simp] theorem raise_pollState (e : ErrCode) (n : Byte) (s : State) : (raise e n s).pollState = s.pollState := rfl
@[simp] theorem raise_pollErr (e : ErrCode) (n : Byte) (s : State) : (raise e n s).pollErr = s.pollErr := rfl
@[simp] theorem raise_irqQ (e : ErrCode) (n : Byte) (s : State) : (raise e n s).irqQ = s.irqQ := rfl
@[simp] theorem raise_resp (e : ErrCode) (n : Byte) (s : State) : (raise e n s).resp = ⟨e.code, 0x00, n⟩ := rfl
@[simp] theorem raise_mem (e : ErrCode) (n : Byte) (s : State) : (raise e n s).mem = s.mem := rfl
@[simp] theorem raise_cfg (e : ErrCode) (n : Byte) (s : State) : (raise e n s).cfg = s.cfg := rfl
@[simp] theorem raise_hostPop (e : ErrCode) (n : Byte) (s : State) : (raise e n s).hostPop = s.hostPop := rfl
@[simp] theorem raise_inputs (e : ErrCode) (n : Byte) (s : State) : (raise e n s).inputs = s.inputs := rfl

@[simp] theorem accept_ready (w : Byte) (s : State) : (accept w s).ready = s.ready := rfl
@[simp] theorem accept_pinCount (w : Byte) (s : State) : (accept w s).pinCount = s.pinCount := rfl
@[simp] theorem accept_snapLen (w : Byte) (s : State) : (accept w s).snapLen = s.snapLen := rfl
@[simp] theorem accept_snap (w : Byte) (s : State) : (accept w s).snap = s.snap := rfl
@[simp] theorem accept_cs (w : Byte) (s : State) : (accept w s).cs = .busy := rfl
@[simp] theorem accept_cmd (w : Byte) (s : State) : (accept w s).cmd = w := rfl
@[simp] theorem accept_tx (w : Byte) (s : State) : (accept w s).tx = 0x00 := rfl
@[simp] theorem accept_v (w : Byte) (s : State) : (accept w s).v = s.v := rfl
@[simp] theorem accept_i (w : Byte) (s : State) : (accept w s).i = s.i := rfl
@[simp] theorem accept_acc (w : Byte) (s : State) : (accept w s).acc = s.acc := rfl
@[simp] theorem accept_phase (w : Byte) (s : State) : (accept w s).phase = .start := rfl
@[simp] theorem accept_ps (w : Byte) (s : State) : (accept w s).ps = s.ps := rfl
@[simp] theorem accept_f (w : Byte) (s : State) : (accept w s).f = s.f := rfl
@[simp] theorem accept_emitList (w : Byte) (s : State) : (accept w s).emitList = s.emitList := rfl
@[simp] theorem accept_owner (w : Byte) (s : State) : (accept w s).owner = s.owner := rfl
@[simp] theorem accept_pendCs (w : Byte) (s : State) : (accept w s).pendCs = s.pendCs := rfl
@[simp] theorem accept_pendPs (w : Byte) (s : State) : (accept w s).pendPs = s.pendPs := rfl
@[simp] theorem accept_pollRun (w : Byte) (s : State) : (accept w s).pollRun = s.pollRun := rfl
@[simp] theorem accept_stopReq (w : Byte) (s : State) : (accept w s).stopReq = s.stopReq := rfl
@[simp] theorem accept_pollState (w : Byte) (s : State) : (accept w s).pollState = s.pollState := rfl
@[simp] theorem accept_pollErr (w : Byte) (s : State) : (accept w s).pollErr = s.pollErr := rfl
@[simp] theorem accept_irqQ (w : Byte) (s : State) : (accept w s).irqQ = s.irqQ := rfl
@[simp] theorem accept_resp (w : Byte) (s : State) : (accept w s).resp = s.resp := rfl
@[simp] theorem accept_mem (w : Byte) (s : State) : (accept w s).mem = s.mem := rfl
@[simp] theorem accept_cfg (w : Byte) (s : State) : (accept w s).cfg = s.cfg := rfl
@[simp] theorem accept_hostPop (w : Byte) (s : State) : (accept w s).hostPop = s.hostPop := rfl
@[simp] theorem accept_inputs (w : Byte) (s : State) : (accept w s).inputs = s.inputs := rfl

@[simp] theorem discardHandle_ready (s : State) : (discardHandle s).ready = false := rfl
@[simp] theorem discardHandle_pinCount (s : State) : (discardHandle s).pinCount = 0 := rfl
@[simp] theorem discardHandle_snapLen (s : State) : (discardHandle s).snapLen = 0 := rfl
@[simp] theorem discardHandle_snap (s : State) : (discardHandle s).snap = 0x00 := rfl
@[simp] theorem discardHandle_cs (s : State) : (discardHandle s).cs = s.cs := rfl
@[simp] theorem discardHandle_cmd (s : State) : (discardHandle s).cmd = s.cmd := rfl
@[simp] theorem discardHandle_tx (s : State) : (discardHandle s).tx = s.tx := rfl
@[simp] theorem discardHandle_v (s : State) : (discardHandle s).v = s.v := rfl
@[simp] theorem discardHandle_i (s : State) : (discardHandle s).i = s.i := rfl
@[simp] theorem discardHandle_acc (s : State) : (discardHandle s).acc = s.acc := rfl
@[simp] theorem discardHandle_phase (s : State) : (discardHandle s).phase = s.phase := rfl
@[simp] theorem discardHandle_ps (s : State) : (discardHandle s).ps = s.ps := rfl
@[simp] theorem discardHandle_f (s : State) : (discardHandle s).f = s.f := rfl
@[simp] theorem discardHandle_emitList (s : State) : (discardHandle s).emitList = s.emitList := rfl
@[simp] theorem discardHandle_owner (s : State) : (discardHandle s).owner = s.owner := rfl
@[simp] theorem discardHandle_pendCs (s : State) : (discardHandle s).pendCs = s.pendCs := rfl
@[simp] theorem discardHandle_pendPs (s : State) : (discardHandle s).pendPs = s.pendPs := rfl
@[simp] theorem discardHandle_pollRun (s : State) : (discardHandle s).pollRun = s.pollRun := rfl
@[simp] theorem discardHandle_stopReq (s : State) : (discardHandle s).stopReq = s.stopReq := rfl
@[simp] theorem discardHandle_pollState (s : State) : (discardHandle s).pollState = s.pollState := rfl
@[simp] theorem discardHandle_pollErr (s : State) : (discardHandle s).pollErr = s.pollErr := rfl
@[simp] theorem discardHandle_irqQ (s : State) : (discardHandle s).irqQ = s.irqQ := rfl
@[simp] theorem discardHandle_resp (s : State) : (discardHandle s).resp = s.resp := rfl
@[simp] theorem discardHandle_mem (s : State) : (discardHandle s).mem = s.mem := rfl
@[simp] theorem discardHandle_cfg (s : State) : (discardHandle s).cfg = s.cfg := rfl
@[simp] theorem discardHandle_hostPop (s : State) : (discardHandle s).hostPop = s.hostPop := rfl
@[simp] theorem discardHandle_inputs (s : State) : (discardHandle s).inputs = s.inputs := rfl

@[simp] theorem publishHandle_ready (c k : Nat) (w : Byte) (s : State) : (publishHandle c k w s).ready = true := rfl
@[simp] theorem publishHandle_pinCount (c k : Nat) (w : Byte) (s : State) : (publishHandle c k w s).pinCount = BitVec.ofNat 4 c := rfl
@[simp] theorem publishHandle_snapLen (c k : Nat) (w : Byte) (s : State) : (publishHandle c k w s).snapLen = BitVec.ofNat 4 k := rfl
@[simp] theorem publishHandle_snap (c k : Nat) (w : Byte) (s : State) : (publishHandle c k w s).snap = w := rfl
@[simp] theorem publishHandle_cs (c k : Nat) (w : Byte) (s : State) : (publishHandle c k w s).cs = s.cs := rfl
@[simp] theorem publishHandle_cmd (c k : Nat) (w : Byte) (s : State) : (publishHandle c k w s).cmd = s.cmd := rfl
@[simp] theorem publishHandle_tx (c k : Nat) (w : Byte) (s : State) : (publishHandle c k w s).tx = s.tx := rfl
@[simp] theorem publishHandle_v (c k : Nat) (w : Byte) (s : State) : (publishHandle c k w s).v = s.v := rfl
@[simp] theorem publishHandle_i (c k : Nat) (w : Byte) (s : State) : (publishHandle c k w s).i = s.i := rfl
@[simp] theorem publishHandle_acc (c k : Nat) (w : Byte) (s : State) : (publishHandle c k w s).acc = s.acc := rfl
@[simp] theorem publishHandle_phase (c k : Nat) (w : Byte) (s : State) : (publishHandle c k w s).phase = s.phase := rfl
@[simp] theorem publishHandle_ps (c k : Nat) (w : Byte) (s : State) : (publishHandle c k w s).ps = s.ps := rfl
@[simp] theorem publishHandle_f (c k : Nat) (w : Byte) (s : State) : (publishHandle c k w s).f = s.f := rfl
@[simp] theorem publishHandle_emitList (c k : Nat) (w : Byte) (s : State) : (publishHandle c k w s).emitList = s.emitList := rfl
@[simp] theorem publishHandle_owner (c k : Nat) (w : Byte) (s : State) : (publishHandle c k w s).owner = s.owner := rfl
@[simp] theorem publishHandle_pendCs (c k : Nat) (w : Byte) (s : State) : (publishHandle c k w s).pendCs = s.pendCs := rfl
@[simp] theorem publishHandle_pendPs (c k : Nat) (w : Byte) (s : State) : (publishHandle c k w s).pendPs = s.pendPs := rfl
@[simp] theorem publishHandle_pollRun (c k : Nat) (w : Byte) (s : State) : (publishHandle c k w s).pollRun = s.pollRun := rfl
@[simp] theorem publishHandle_stopReq (c k : Nat) (w : Byte) (s : State) : (publishHandle c k w s).stopReq = s.stopReq := rfl
@[simp] theorem publishHandle_pollState (c k : Nat) (w : Byte) (s : State) : (publishHandle c k w s).pollState = s.pollState := rfl
@[simp] theorem publishHandle_pollErr (c k : Nat) (w : Byte) (s : State) : (publishHandle c k w s).pollErr = s.pollErr := rfl
@[simp] theorem publishHandle_irqQ (c k : Nat) (w : Byte) (s : State) : (publishHandle c k w s).irqQ = s.irqQ := rfl
@[simp] theorem publishHandle_resp (c k : Nat) (w : Byte) (s : State) : (publishHandle c k w s).resp = s.resp := rfl
@[simp] theorem publishHandle_mem (c k : Nat) (w : Byte) (s : State) : (publishHandle c k w s).mem = s.mem := rfl
@[simp] theorem publishHandle_cfg (c k : Nat) (w : Byte) (s : State) : (publishHandle c k w s).cfg = s.cfg := rfl
@[simp] theorem publishHandle_hostPop (c k : Nat) (w : Byte) (s : State) : (publishHandle c k w s).hostPop = s.hostPop := rfl
@[simp] theorem publishHandle_inputs (c k : Nat) (w : Byte) (s : State) : (publishHandle c k w s).inputs = s.inputs := rfl

@[simp] theorem advance_ready (r : BusReturn) (s : State) : (advance r s).ready = s.ready := rfl
@[simp] theorem advance_pinCount (r : BusReturn) (s : State) : (advance r s).pinCount = s.pinCount := rfl
@[simp] theorem advance_snapLen (r : BusReturn) (s : State) : (advance r s).snapLen = s.snapLen := rfl
@[simp] theorem advance_snap (r : BusReturn) (s : State) : (advance r s).snap = s.snap := rfl
@[simp] theorem advance_cs (r : BusReturn) (s : State) : (advance r s).cs = s.cs := rfl
@[simp] theorem advance_cmd (r : BusReturn) (s : State) : (advance r s).cmd = s.cmd := rfl
@[simp] theorem advance_tx (r : BusReturn) (s : State) : (advance r s).tx = s.tx + 1 := rfl
@[simp] theorem advance_v (r : BusReturn) (s : State) : (advance r s).v = (match r with | .data b => b | _ => s.v) := rfl
@[simp] theorem advance_i (r : BusReturn) (s : State) : (advance r s).i = s.i := rfl
@[simp] theorem advance_acc (r : BusReturn) (s : State) : (advance r s).acc = s.acc := rfl
@[simp] theorem advance_phase (r : BusReturn) (s : State) : (advance r s).phase = s.phase := rfl
@[simp] theorem advance_ps (r : BusReturn) (s : State) : (advance r s).ps = s.ps := rfl
@[simp] theorem advance_f (r : BusReturn) (s : State) : (advance r s).f = s.f := rfl
@[simp] theorem advance_emitList (r : BusReturn) (s : State) : (advance r s).emitList = s.emitList := rfl
@[simp] theorem advance_owner (r : BusReturn) (s : State) : (advance r s).owner = s.owner := rfl
@[simp] theorem advance_pendCs (r : BusReturn) (s : State) : (advance r s).pendCs = s.pendCs := rfl
@[simp] theorem advance_pendPs (r : BusReturn) (s : State) : (advance r s).pendPs = s.pendPs := rfl
@[simp] theorem advance_pollRun (r : BusReturn) (s : State) : (advance r s).pollRun = s.pollRun := rfl
@[simp] theorem advance_stopReq (r : BusReturn) (s : State) : (advance r s).stopReq = s.stopReq := rfl
@[simp] theorem advance_pollState (r : BusReturn) (s : State) : (advance r s).pollState = s.pollState := rfl
@[simp] theorem advance_pollErr (r : BusReturn) (s : State) : (advance r s).pollErr = s.pollErr := rfl
@[simp] theorem advance_irqQ (r : BusReturn) (s : State) : (advance r s).irqQ = s.irqQ := rfl
@[simp] theorem advance_resp (r : BusReturn) (s : State) : (advance r s).resp = s.resp := rfl
@[simp] theorem advance_mem (r : BusReturn) (s : State) : (advance r s).mem = s.mem := rfl
@[simp] theorem advance_cfg (r : BusReturn) (s : State) : (advance r s).cfg = s.cfg := rfl
@[simp] theorem advance_hostPop (r : BusReturn) (s : State) : (advance r s).hostPop = s.hostPop := rfl
@[simp] theorem advance_inputs (r : BusReturn) (s : State) : (advance r s).inputs = s.inputs := rfl

@[simp] theorem emit_ready (p : PinIndex) (s : State) : (emit p s).ready = s.ready := rfl
@[simp] theorem emit_pinCount (p : PinIndex) (s : State) : (emit p s).pinCount = s.pinCount := rfl
@[simp] theorem emit_snapLen (p : PinIndex) (s : State) : (emit p s).snapLen = s.snapLen := rfl
@[simp] theorem emit_snap (p : PinIndex) (s : State) : (emit p s).snap = s.snap := rfl
@[simp] theorem emit_cs (p : PinIndex) (s : State) : (emit p s).cs = s.cs := rfl
@[simp] theorem emit_cmd (p : PinIndex) (s : State) : (emit p s).cmd = s.cmd := rfl
@[simp] theorem emit_tx (p : PinIndex) (s : State) : (emit p s).tx = s.tx := rfl
@[simp] theorem emit_v (p : PinIndex) (s : State) : (emit p s).v = s.v := rfl
@[simp] theorem emit_i (p : PinIndex) (s : State) : (emit p s).i = s.i := rfl
@[simp] theorem emit_acc (p : PinIndex) (s : State) : (emit p s).acc = s.acc := rfl
@[simp] theorem emit_phase (p : PinIndex) (s : State) : (emit p s).phase = s.phase := rfl
@[simp] theorem emit_ps (p : PinIndex) (s : State) : (emit p s).ps = s.ps := rfl
@[simp] theorem emit_f (p : PinIndex) (s : State) : (emit p s).f = s.f := rfl
@[simp] theorem emit_emitList (p : PinIndex) (s : State) : (emit p s).emitList = s.emitList := rfl
@[simp] theorem emit_owner (p : PinIndex) (s : State) : (emit p s).owner = s.owner := rfl
@[simp] theorem emit_pendCs (p : PinIndex) (s : State) : (emit p s).pendCs = s.pendCs := rfl
@[simp] theorem emit_pendPs (p : PinIndex) (s : State) : (emit p s).pendPs = s.pendPs := rfl
@[simp] theorem emit_pollRun (p : PinIndex) (s : State) : (emit p s).pollRun = s.pollRun := rfl
@[simp] theorem emit_stopReq (p : PinIndex) (s : State) : (emit p s).stopReq = s.stopReq := rfl
@[simp] theorem emit_pollState (p : PinIndex) (s : State) : (emit p s).pollState = s.pollState := rfl
@[simp] theorem emit_pollErr (p : PinIndex) (s : State) : (emit p s).pollErr = s.pollErr := rfl
@[simp] theorem emit_irqQ (p : PinIndex) (s : State) : (emit p s).irqQ = s.irqQ ++ [p] := rfl
@[simp] theorem emit_resp (p : PinIndex) (s : State) : (emit p s).resp = s.resp := rfl
@[simp] theorem emit_mem (p : PinIndex) (s : State) : (emit p s).mem = s.mem := rfl
@[simp] theorem emit_cfg (p : PinIndex) (s : State) : (emit p s).cfg = s.cfg := rfl
@[simp] theorem emit_hostPop (p : PinIndex) (s : State) : (emit p s).hostPop = s.hostPop := rfl
@[simp] theorem emit_inputs (p : PinIndex) (s : State) : (emit p s).inputs = s.inputs := rfl

@[simp] theorem pollOff_ready (s : State) : (pollOff s).ready = s.ready := rfl
@[simp] theorem pollOff_pinCount (s : State) : (pollOff s).pinCount = s.pinCount := rfl
@[simp] theorem pollOff_snapLen (s : State) : (pollOff s).snapLen = s.snapLen := rfl
@[simp] theorem pollOff_snap (s : State) : (pollOff s).snap = s.snap := rfl
@[simp] theorem pollOff_cs (s : State) : (pollOff s).cs = s.cs := rfl
@[simp] theorem pollOff_cmd (s : State) : (pollOff s).cmd = s.cmd := rfl
@[simp] theorem pollOff_tx (s : State) : (pollOff s).tx = s.tx := rfl
@[simp] theorem pollOff_v (s : State) : (pollOff s).v = s.v := rfl
@[simp] theorem pollOff_i (s : State) : (pollOff s).i = s.i := rfl
@[simp] theorem pollOff_acc (s : State) : (pollOff s).acc = s.acc := rfl
@[simp] theorem pollOff_phase (s : State) : (pollOff s).phase = s.phase := rfl
@[simp] theorem pollOff_ps (s : State) : (pollOff s).ps = .off := rfl
@[simp] theorem pollOff_f (s : State) : (pollOff s).f = s.f := rfl
@[simp] theorem pollOff_emitList (s : State) : (pollOff s).emitList = s.emitList := rfl
@[simp] theorem pollOff_owner (s : State) : (pollOff s).owner = s.owner := rfl
@[simp] theorem pollOff_pendCs (s : State) : (pollOff s).pendCs = s.pendCs := rfl
@[simp] theorem pollOff_pendPs (s : State) : (pollOff s).pendPs = s.pendPs := rfl
@[simp] theorem pollOff_pollRun (s : State) : (pollOff s).pollRun = false := rfl
@[simp] theorem pollOff_stopReq (s : State) : (pollOff s).stopReq = false := rfl
@[simp] theorem pollOff_pollState (s : State) : (pollOff s).pollState = .idle := rfl
@[simp] theorem pollOff_pollErr (s : State) : (pollOff s).pollErr = s.pollErr := rfl
@[simp] theorem pollOff_irqQ (s : State) : (pollOff s).irqQ = s.irqQ := rfl
@[simp] theorem pollOff_resp (s : State) : (pollOff s).resp = s.resp := rfl
@[simp] theorem pollOff_mem (s : State) : (pollOff s).mem = s.mem := rfl
@[simp] theorem pollOff_cfg (s : State) : (pollOff s).cfg = s.cfg := rfl
@[simp] theorem pollOff_hostPop (s : State) : (pollOff s).hostPop = s.hostPop := rfl
@[simp] theorem pollOff_inputs (s : State) : (pollOff s).inputs = s.inputs := rfl

@[simp] theorem setPend_cs_ready (t : Option Txn) (s : State) : (setPend .cs t s).ready = s.ready := rfl
@[simp] theorem setPend_cs_pinCount (t : Option Txn) (s : State) : (setPend .cs t s).pinCount = s.pinCount := rfl
@[simp] theorem setPend_cs_snapLen (t : Option Txn) (s : State) : (setPend .cs t s).snapLen = s.snapLen := rfl
@[simp] theorem setPend_cs_snap (t : Option Txn) (s : State) : (setPend .cs t s).snap = s.snap := rfl
@[simp] theorem setPend_cs_cs (t : Option Txn) (s : State) : (setPend .cs t s).cs = s.cs := rfl
@[simp] theorem setPend_cs_cmd (t : Option Txn) (s : State) : (setPend .cs t s).cmd = s.cmd := rfl
@[simp] theorem setPend_cs_tx (t : Option Txn) (s : State) : (setPend .cs t s).tx = s.tx := rfl
@[simp] theorem setPend_cs_v (t : Option Txn) (s : State) : (setPend .cs t s).v = s.v := rfl
@[simp] theorem setPend_cs_i (t : Option Txn) (s : State) : (setPend .cs t s).i = s.i := rfl
@[simp] theorem setPend_cs_acc (t : Option Txn) (s : State) : (setPend .cs t s).acc = s.acc := rfl
@[simp] theorem setPend_cs_phase (t : Option Txn) (s : State) : (setPend .cs t s).phase = s.phase := rfl
@[simp] theorem setPend_cs_ps (t : Option Txn) (s : State) : (setPend .cs t s).ps = s.ps := rfl
@[simp] theorem setPend_cs_f (t : Option Txn) (s : State) : (setPend .cs t s).f = s.f := rfl
@[simp] theorem setPend_cs_emitList (t : Option Txn) (s : State) : (setPend .cs t s).emitList = s.emitList := rfl
@[simp] theorem setPend_cs_owner (t : Option Txn) (s : State) : (setPend .cs t s).owner = s.owner := rfl
@[simp] theorem setPend_cs_pendCs (t : Option Txn) (s : State) : (setPend .cs t s).pendCs = t := rfl
@[simp] theorem setPend_cs_pendPs (t : Option Txn) (s : State) : (setPend .cs t s).pendPs = s.pendPs := rfl
@[simp] theorem setPend_cs_pollRun (t : Option Txn) (s : State) : (setPend .cs t s).pollRun = s.pollRun := rfl
@[simp] theorem setPend_cs_stopReq (t : Option Txn) (s : State) : (setPend .cs t s).stopReq = s.stopReq := rfl
@[simp] theorem setPend_cs_pollState (t : Option Txn) (s : State) : (setPend .cs t s).pollState = s.pollState := rfl
@[simp] theorem setPend_cs_pollErr (t : Option Txn) (s : State) : (setPend .cs t s).pollErr = s.pollErr := rfl
@[simp] theorem setPend_cs_irqQ (t : Option Txn) (s : State) : (setPend .cs t s).irqQ = s.irqQ := rfl
@[simp] theorem setPend_cs_resp (t : Option Txn) (s : State) : (setPend .cs t s).resp = s.resp := rfl
@[simp] theorem setPend_cs_mem (t : Option Txn) (s : State) : (setPend .cs t s).mem = s.mem := rfl
@[simp] theorem setPend_cs_cfg (t : Option Txn) (s : State) : (setPend .cs t s).cfg = s.cfg := rfl
@[simp] theorem setPend_cs_hostPop (t : Option Txn) (s : State) : (setPend .cs t s).hostPop = s.hostPop := rfl
@[simp] theorem setPend_cs_inputs (t : Option Txn) (s : State) : (setPend .cs t s).inputs = s.inputs := rfl

@[simp] theorem setPend_ps_ready (t : Option Txn) (s : State) : (setPend .ps t s).ready = s.ready := rfl
@[simp] theorem setPend_ps_pinCount (t : Option Txn) (s : State) : (setPend .ps t s).pinCount = s.pinCount := rfl
@[simp] theorem setPend_ps_snapLen (t : Option Txn) (s : State) : (setPend .ps t s).snapLen = s.snapLen := rfl
@[simp] theorem setPend_ps_snap (t : Option Txn) (s : State) : (setPend .ps t s).snap = s.snap := rfl
@[simp] theorem setPend_ps_cs (t : Option Txn) (s : State) : (setPend .ps t s).cs = s.cs := rfl
@[simp] theorem setPend_ps_cmd (t : Option Txn) (s : State) : (setPend .ps t s).cmd = s.cmd := rfl
@[simp] theorem setPend_ps_tx (t : Option Txn) (s : State) : (setPend .ps t s).tx = s.tx := rfl
@[simp] theorem setPend_ps_v (t : Option Txn) (s : State) : (setPend .ps t s).v = s.v := rfl
@[simp] theorem setPend_ps_i (t : Option Txn) (s : State) : (setPend .ps t s).i = s.i := rfl
@[simp] theorem setPend_ps_acc (t : Option Txn) (s : State) : (setPend .ps t s).acc = s.acc := rfl
@[simp] theorem setPend_ps_phase (t : Option Txn) (s : State) : (setPend .ps t s).phase = s.phase := rfl
@[simp] theorem setPend_ps_ps (t : Option Txn) (s : State) : (setPend .ps t s).ps = s.ps := rfl
@[simp] theorem setPend_ps_f (t : Option Txn) (s : State) : (setPend .ps t s).f = s.f := rfl
@[simp] theorem setPend_ps_emitList (t : Option Txn) (s : State) : (setPend .ps t s).emitList = s.emitList := rfl
@[simp] theorem setPend_ps_owner (t : Option Txn) (s : State) : (setPend .ps t s).owner = s.owner := rfl
@[simp] theorem setPend_ps_pendCs (t : Option Txn) (s : State) : (setPend .ps t s).pendCs = s.pendCs := rfl
@[simp] theorem setPend_ps_pendPs (t : Option Txn) (s : State) : (setPend .ps t s).pendPs = t := rfl
@[simp] theorem setPend_ps_pollRun (t : Option Txn) (s : State) : (setPend .ps t s).pollRun = s.pollRun := rfl
@[simp] theorem setPend_ps_stopReq (t : Option Txn) (s : State) : (setPend .ps t s).stopReq = s.stopReq := rfl
@[simp] theorem setPend_ps_pollState (t : Option Txn) (s : State) : (setPend .ps t s).pollState = s.pollState := rfl
@[simp] theorem setPend_ps_pollErr (t : Option Txn) (s : State) : (setPend .ps t s).pollErr = s.pollErr := rfl
@[simp] theorem setPend_ps_irqQ (t : Option Txn) (s : State) : (setPend .ps t s).irqQ = s.irqQ := rfl
@[simp] theorem setPend_ps_resp (t : Option Txn) (s : State) : (setPend .ps t s).resp = s.resp := rfl
@[simp] theorem setPend_ps_mem (t : Option Txn) (s : State) : (setPend .ps t s).mem = s.mem := rfl
@[simp] theorem setPend_ps_cfg (t : Option Txn) (s : State) : (setPend .ps t s).cfg = s.cfg := rfl
@[simp] theorem setPend_ps_hostPop (t : Option Txn) (s : State) : (setPend .ps t s).hostPop = s.hostPop := rfl
@[simp] theorem setPend_ps_inputs (t : Option Txn) (s : State) : (setPend .ps t s).inputs = s.inputs := rfl

end Sys2Proof.Machine
end

