-- ==== Sys2Proof/Laws/Bus.lean ====
section
/-! SUPPORT. What a completed transaction does: to a register it names, and in general. -/

namespace Sys2Proof.Machine

/-- A transaction completes exactly when its address is a register. -/
theorem busRun_isSome (rm : RegMap) (m : Memory) (t : Txn) (o : BusOutcome) :
    (busRun rm m t o).isSome = (regAt? rm t.addr).isSome := by
  cases t with
  | write a v =>
    cases hn : regAt? rm a <;> rcases o with _ | (_ | _) <;>
      simp [busRun, Txn.call, targetCall, targetWrite, Txn.addr, hn]
  | read a =>
    cases hn : regAt? rm a <;> rcases o with _ | (_ | _) <;> simp [busRun, Txn.call, targetCall, Txn.addr, hn]

/-- A write that completes with OK (R64). -/
theorem busRun_write_ok (rm : RegMap) (m : Memory) (n : Reg) (v : Byte) :
    busRun rm m (.write (rm.addr n) v) .ok = some (m.write (regKey rm n) v, .wrote) := by
  obtain ⟨k, hk⟩ := Option.isSome_iff_exists.1 (regAt?_addr_isSome rm n)
  simp [busRun, Txn.call, targetCall, targetWrite, hk, regKey]

/-- A write that completes with ERR (R61). -/
theorem busRun_write_err (rm : RegMap) (m : Memory) (n : Reg) (v : Byte) (took : Bool) :
    busRun rm m (.write (rm.addr n) v) (.err took) =
      some (if took then m.write (regKey rm n) v else m, .err) := by
  obtain ⟨k, hk⟩ := Option.isSome_iff_exists.1 (regAt?_addr_isSome rm n)
  cases took <;> simp [busRun, Txn.call, targetCall, targetWrite, hk, regKey]

/-- A read that completes with OK (R65). -/
theorem busRun_read_ok (rm : RegMap) (h : rm.wf) (m : Memory) (n : Reg) :
    busRun rm m (.read (rm.addr n)) .ok =
      some (if n = .intcap then m.write (regKey rm .intf) 0x00 else m, .data (m.read (regKey rm n))) := by
  simp [busRun, Txn.call, targetCall, readEffect, regAt?_of_wf rm h, regKey]

/-- A read that completes with ERR (R61). -/
theorem busRun_read_err (rm : RegMap) (h : rm.wf) (m : Memory) (n : Reg) (took : Bool) :
    busRun rm m (.read (rm.addr n)) (.err took) =
      some (if took = true ∧ n = .intcap then m.write (regKey rm .intf) 0x00 else m, .err) := by
  cases took <;> simp [busRun, Txn.call, targetCall, readEffect, regAt?_of_wf rm h, regKey]

/-- All a completion can do to the register file: nothing, the write it names, or the clearing of INTF. -/
theorem busRun_effect (rm : RegMap) (m m' : Memory) (t : Txn) (o : BusOutcome) (r : BusReturn)
    (h : busRun rm m t o = some (m', r)) :
    m' = m ∨ (∃ n v, t = .write (rm.addr n) v ∧ m' = m.write (regKey rm n) v) ∨
      (∃ n, t = .read (rm.addr n) ∧ regAt? rm (rm.addr n) = some .intcap ∧ m' = m.write (regKey rm .intf) 0x00) := by
  cases t with
  | write a v =>
    cases hn : regAt? rm a with
    | none => simp [busRun, Txn.call, targetCall, targetWrite, hn] at h
    | some n =>
      have ha := regAt?_addr rm a n hn
      subst ha
      rcases o with _ | (_ | _) <;> simp [busRun, Txn.call, targetCall, targetWrite, hn] at h
      · exact .inr (.inl ⟨n, v, rfl, h.1.symm⟩)
      · exact .inl h.1.symm
      · exact .inr (.inl ⟨n, v, rfl, h.1.symm⟩)
  | read a =>
    cases hn : regAt? rm a with
    | none => simp [busRun, Txn.call, targetCall, hn] at h
    | some n =>
      have ha := regAt?_addr rm a n hn
      subst ha
      by_cases hi : n = .intcap
      · subst hi
        rcases o with _ | (_ | _) <;> simp [busRun, Txn.call, targetCall, readEffect, hn] at h
        · exact .inr (.inr ⟨.intcap, rfl, hn, h.1.symm⟩)
        · exact .inl h.1.symm
        · exact .inr (.inr ⟨.intcap, rfl, hn, h.1.symm⟩)
      · rcases o with _ | (_ | _) <;> simp [busRun, Txn.call, targetCall, readEffect, hn, hi] at h <;>
          exact .inl h.1.symm

/-- Which return a completion gives: ERR exactly for the outcome ERR; OK of a write and OK(byte) of a read. -/
theorem busRun_return (rm : RegMap) (m m' : Memory) (t : Txn) (o : BusOutcome) (r : BusReturn)
    (h : busRun rm m t o = some (m', r)) :
    (∃ took, o = .err took ∧ r = .err) ∨ (o = .ok ∧ (∃ a v, t = .write a v) ∧ r = .wrote) ∨
      (o = .ok ∧ ∃ a, t = .read a ∧ r = .data (m.read a.toNat)) := by
  cases t with
  | write a v =>
    cases hn : regAt? rm a <;> rcases o with _ | (_ | _) <;>
      simp [busRun, Txn.call, targetCall, targetWrite, hn] at h <;> simp [h.2.symm]
  | read a =>
    cases hn : regAt? rm a <;> rcases o with _ | (_ | _) <;>
      simp [busRun, Txn.call, targetCall, hn] at h <;> simp [h.2.symm]

/-- What `back` is given when a transaction completes: the state with the pending entry cleared and the register file as
the completion leaves it, and nothing else changed (R58). -/
theorem completeTxn_eq (who : Sequencer) (back : BusReturn → State → State) (o : BusOutcome) (s : State) (x : Txn)
    (m : Memory) (r : BusReturn) (hp : s.pend who = some x) (hb : busRun s.cfg.regAddr s.mem x o = some (m, r)) :
    completeTxn who back o s = .next (back r (setPend who none (setMem m s))) := by
  simp only [completeTxn, hp, hb]

/-- A completion step that answers a next state: nothing was pending, or the pending transaction took its effect and
its outcome went to `back`. -/
theorem completeTxn_cases (who : Sequencer) (back : BusReturn → State → State) (o : BusOutcome) (s t : State)
    (h : completeTxn who back o s = .next t) :
    (s.pend who = none ∧ t = s) ∨
      ∃ x m r, s.pend who = some x ∧ busRun s.cfg.regAddr s.mem x o = some (m, r) ∧
        t = back r (setPend who none (setMem m s)) := by
  simp only [completeTxn] at h
  cases hp : s.pend who with
  | none => simp only [hp] at h; exact .inl ⟨rfl, by injection h with h; exact h.symm⟩
  | some x =>
    simp only [hp] at h
    cases hb : busRun s.cfg.regAddr s.mem x o with
    | none => simp [hb] at h
    | some mr =>
      obtain ⟨m, r⟩ := mr
      simp only [hb] at h
      injection h with h
      exact .inr ⟨x, m, r, rfl, hb, h.symm⟩

/-- An abandoned transaction's effect is one a completion can have. -/
theorem abandon_effect (rm : RegMap) (took : Bool) (m m' : Memory) (p : Option Txn)
    (h : abandon rm took m p = some m') :
    (p = none ∧ m' = m) ∨ ∃ t r, p = some t ∧ busRun rm m t (.err took) = some (m', r) := by
  cases p with
  | none => exact .inl ⟨rfl, by simpa [abandon] using h.symm⟩
  | some t =>
    simp only [abandon] at h
    split at h
    · cases h
    · rename_i m'' r hb
      injection h with h
      subst h
      exact .inr ⟨t, r, rfl, hb⟩

/-- `T[n]` after a write of register `k`. -/
theorem target_setMem_write (s : State) (hm : s.mem.wf) (hw : s.cfg.regAddr.wf) (n k : Reg) (v : Byte) :
    (setMem (s.mem.write (regKey s.cfg.regAddr k) v) s).target n = if n = k then v else s.target n := by
  simp only [State.target, setMem_mem, setMem_cfg]
  by_cases h : n = k
  · subst h
    rw [if_pos rfl]
    exact Memory.read_write_same s.mem hm _ _
  · rw [if_neg h]
    exact Memory.read_write_other s.mem _ _ _ (regKey_ne _ hw (Ne.symm h))

end Sys2Proof.Machine
end

