-- ==== Sys2Proof/Laws/Engine.lean ====
section
/-! SUPPORT. The run of a command among the other agents: the equations of `drive`, the two parts every command's meaning
has, and the induction over a schedule packaged once, for a command and for `step`. -/

namespace Sys2Proof.Machine

/-! The equations of the run. -/

theorem drive_nil (turn : State → State) (back : BusReturn → State → State) (s : State) :
    drive turn back [] s = .next (setInputs [] s) := rfl

theorem drive_cons (turn : State → State) (back : BusReturn → State → State) (e : Event) (es : List Event)
    (s t : State) (h : agentStep turn back e (setInputs es s) = .next t) :
    drive turn back (e :: es) s = if t.cs = .idle then .next t else drive turn back es t := by
  simp only [drive, h]

theorem runCommand_busy (turn : State → State) (back : BusReturn → State → State) (s : State) (h : s.cs = .busy) :
    runCommand turn back s = drive turn back s.inputs s := by
  simp [runCommand, h]

theorem runCommand_idle (turn : State → State) (back : BusReturn → State → State) (s : State) (h : s.cs = .idle) :
    runCommand turn back s = .next s := by
  simp [runCommand, h]

theorem busy_of_not_idle {s : State} (h : ¬ s.cs = .idle) : s.cs = .busy := by
  cases hc : s.cs
  · exact absurd hc h
  · rfl

/-! The two parts of a command. -/

/-- The CS's local step of a command. -/
def turnPart : Instr → State → State
  | .init n => commandTurn initStart (initTxn n) (initFinish n)
  | .read p => commandTurn (pinStart p) readTxn (readFinish p)
  | .setOn p => commandTurn (pinStart p) (rmwTxn .port (fun v => v ||| mask p)) finishOk
  | .setOff p => commandTurn (pinStart p) (rmwTxn .port (fun v => v &&& nmask p)) finishOk
  | .toggle p => commandTurn (pinStart p) (rmwTxn .port (fun v => v ^^^ mask p)) finishOk
  | .allOn => commandTurn allOnStart (portWriteTxn (fun s => allMask s.pinCount.toNat)) finishOk
  | .allOff => commandTurn allOffStart (portWriteTxn (fun _ => 0x00)) finishOk
  | .cfgInIrq p => commandTurn (pinStart p) (cfgTxn p) finishOk
  | .pollStart => pollStartTurn
  | .pollStop => pollStopTurn

/-- What the CS does with an outcome during a command. -/
def backPart : Instr → BusReturn → State → State
  | .init n => onReturn (initOk n) initFail
  | .read _ => onReturn advance busFail
  | .setOn _ => onReturn advance busFail
  | .setOff _ => onReturn advance busFail
  | .toggle _ => onReturn advance busFail
  | .allOn => onReturn advance busFail
  | .allOff => onReturn advance busFail
  | .cfgInIrq _ => onReturn advance cfgFail
  | .pollStart => noReturn
  | .pollStop => noReturn

/-- Every meaning is the run of its two parts. -/
theorem exec_eq (i : Instr) (s : State) : exec i s = runCommand (turnPart i) (backPart i) s := by
  cases i <;> rfl

theorem step_busy (s : State) (h : s.cs = .busy) : step s = runAccepted s := by simp [step, h]

theorem step_idle (s : State) (h : s.cs = .idle) : step s = idleStep s := by simp [step, h]

/-! The induction over a schedule. -/

/-- What every agent's step keeps, from states in which the command runs, the run keeps. -/
theorem drive_keeps {turn : State → State} {back : BusReturn → State → State} {P : State → Prop} {E : Event → Prop}
    (hin : ∀ l s, P s → P (setInputs l s))
    (hstep : ∀ e s t, E e → P s → s.cs = .busy → agentStep turn back e s = .next t → P t) :
    ∀ (l : List Event) (s t : State), (∀ e ∈ l, E e) → P s → s.cs = .busy → drive turn back l s = .next t → P t
  | [], s, t, _, hp, _, h => by
    rw [drive_nil] at h
    injection h with h
    exact h ▸ hin _ _ hp
  | e :: es, s, t, hE, hp, hb, h => by
    cases ha : agentStep turn back e (setInputs es s) with
    | next u =>
      rw [drive_cons turn back e es s u ha] at h
      have hu : P u := hstep e _ u (hE e (by simp)) (hin _ _ hp) (by simpa using hb) ha
      by_cases hc : u.cs = .idle
      · rw [if_pos hc] at h
        injection h with h
        exact h ▸ hu
      · rw [if_neg hc] at h
        exact drive_keeps hin hstep es u t (fun e he => hE e (by simp [he])) hu (busy_of_not_idle hc) h
    | fault r => simp only [drive, ha] at h; cases h
    | refused r => simp only [drive, ha] at h; cases h

/-- A run that every agent's step lets go on answers a next state. -/
theorem drive_answers {turn : State → State} {back : BusReturn → State → State} {P : State → Prop}
    (hin : ∀ l s, P s → P (setInputs l s))
    (hstep : ∀ e s, P s → s.cs = .busy → ∃ t, agentStep turn back e s = .next t ∧ P t) :
    ∀ (l : List Event) (s : State), P s → s.cs = .busy → ∃ t, drive turn back l s = .next t ∧ P t
  | [], s, hp, _ => ⟨_, drive_nil turn back s, hin _ _ hp⟩
  | e :: es, s, hp, hb => by
    obtain ⟨u, ha, hu⟩ := hstep e (setInputs es s) (hin _ _ hp) (by simpa using hb)
    rw [drive_cons turn back e es s u ha]
    by_cases hc : u.cs = .idle
    · exact ⟨u, by rw [if_pos hc], hu⟩
    · rw [if_neg hc]
      exact drive_answers hin hstep es u hu (busy_of_not_idle hc)

/-! The command word of a running command stays (R76). -/

theorem issue_cases (who : Sequencer) (x : Txn) (s : State) :
    (issue who x s = s) ∨ (s.owner = who.owner ∧ s.pend who = none ∧ issue who x s = setPend who (some x) s) := by
  by_cases h : canIssue who s = true
  · have h' := h
    simp only [canIssue, Bool.and_eq_true, decide_eq_true_eq] at h'
    exact .inr ⟨h'.1, h'.2, by simp only [issue, h, if_true]⟩
  · exact .inl (by simp only [issue]; rw [if_neg h])

theorem issue_cmd (who : Sequencer) (x : Txn) (s : State) : (issue who x s).cmd = s.cmd := by
  rcases issue_cases who x s with h | ⟨_, _, h⟩ <;> rw [h]
  cases who <;> rfl

theorem pinStart_cmd (p : Nat) (s : State) : (pinStart p s).cmd = s.cmd := by
  simp only [pinStart]; split <;> [rfl; (split <;> rfl)]

theorem commandTurn_cmd (start : State → State) (txn : State → Option Txn) (finish : State → State)
    (h1 : ∀ s, (start s).cmd = s.cmd) (h2 : ∀ s, (finish s).cmd = s.cmd) (s : State) :
    (commandTurn start txn finish s).cmd = s.cmd := by
  simp only [commandTurn]
  split
  · exact h1 s
  · split <;> rfl
  · split
    · exact issue_cmd _ _ _
    · rfl
  · exact h2 s

theorem finishOk_cmd (s : State) : (finishOk s).cmd = s.cmd := rfl

theorem turnPart_cmd (i : Instr) (s : State) : (turnPart i s).cmd = s.cmd := by
  cases i
  case init n =>
    refine commandTurn_cmd initStart (initTxn n) (initFinish n) (fun s => ?_) (fun s => ?_) s
    · simp only [initStart]; split <;> rfl
    · simp only [initFinish]; split <;> rfl
  case read p => exact commandTurn_cmd (pinStart p) readTxn (readFinish p) (pinStart_cmd p) (by intro s; rfl) s
  case setOn p => exact commandTurn_cmd (pinStart p) _ finishOk (pinStart_cmd p) finishOk_cmd s
  case setOff p => exact commandTurn_cmd (pinStart p) _ finishOk (pinStart_cmd p) finishOk_cmd s
  case toggle p => exact commandTurn_cmd (pinStart p) _ finishOk (pinStart_cmd p) finishOk_cmd s
  case allOn =>
    refine commandTurn_cmd allOnStart _ finishOk (fun s => ?_) finishOk_cmd s
    simp only [allOnStart]; split <;> [rfl; (split <;> rfl)]
  case allOff =>
    refine commandTurn_cmd allOffStart _ finishOk (fun s => ?_) finishOk_cmd s
    simp only [allOffStart]; split <;> rfl
  case cfgInIrq p => exact commandTurn_cmd (pinStart p) _ finishOk (pinStart_cmd p) finishOk_cmd s
  case pollStart => simp only [turnPart, pollStartTurn]; split <;> [rfl; (split <;> rfl)]
  case pollStop => rfl

theorem backPart_cmd (i : Instr) (r : BusReturn) (s : State) : (backPart i r s).cmd = s.cmd := by
  cases i <;> cases r <;>
    simp only [backPart, onReturn, noReturn, busFail, cfgFail, initFail, initOk, initBeginSnap, advance_cmd, raise_cmd,
      discardHandle_cmd] <;>
    (try split) <;> simp

theorem psTurn_cmd (s : State) : (psTurn s).cmd = s.cmd := by
  simp only [psTurn]
  split <;> try rfl
  · simp only [psHead]; split <;> rfl
  · simp only [psLock]; split
    · simp [issue_cmd]
    · rfl
  · simp only [psEmit]; split
    · split <;> rfl
    · split
      · simp [issue_cmd]
      · rfl

theorem psReturn_cmd (r : BusReturn) (s : State) : (psReturn r s).cmd = s.cmd := by
  simp only [psReturn]
  split <;> try rfl
  simp only [psFlags]; split <;> rfl

/-- An agent's step that is no controller reset keeps the command word, if the command's parts do. -/
theorem agentStep_cmd {turn : State → State} {back : BusReturn → State → State} (ht : ∀ s, (turn s).cmd = s.cmd)
    (hb : ∀ r s, (back r s).cmd = s.cmd) (e : Event) (he : e.isReset = false) (s t : State)
    (h : agentStep turn back e s = .next t) : t.cmd = s.cmd := by
  cases e with
  | submit w => injection h with h; rw [← h]
  | pop =>
    injection h with h
    rw [← h]; simp only [irqPop]; split <;> rfl
  | reset d => cases he
  | csTurn =>
    injection h with h
    rw [← h]; split
    · exact ht s
    · rfl
  | psTurn => injection h with h; rw [← h]; exact psTurn_cmd s
  | complete who o =>
    cases who with
    | cs =>
      rcases completeTxn_cases .cs back o s t h with ⟨_, rfl⟩ | ⟨x, m, r, _, _, rfl⟩
      · rfl
      · rw [hb]; rfl
    | ps =>
      rcases completeTxn_cases .ps psReturn o s t h with ⟨_, rfl⟩ | ⟨x, m, r, _, _, rfl⟩
      · rfl
      · rw [psReturn_cmd]; rfl
  | env n b => injection h with h; rw [← h]; rfl

/-- A controller reset leaves the CS IDLE (R158). -/
theorem hostReset_idle (d : ResetDraw) (s t : State) (h : hostReset d s = .next t) : t.cs = .idle := by
  simp only [hostReset] at h
  split at h
  · cases h
  · split at h
    · cases h
    · injection h with h
      rw [← h]; rfl

/-! The induction over `step`. -/

/-- What accepting a word and every agent's step keep, `step` keeps. The agent's step is that of the command the word in
`c.cmd` decodes to, or of an illegal one, or of no command. -/
theorem step_keeps {P : State → Prop} {E : Event → Prop}
    (hin : ∀ l s, P s → P (setInputs l s))
    (hacc : ∀ w s, P s → s.cs = .idle → P (accept w s))
    (hidle : ∀ e s t, E e → P s → s.cs = .idle → agentStep id noReturn e s = .next t → P t)
    (hcmd : ∀ i e s t, E e → P s → s.cs = .busy → decode s.cmd = .ok i →
      agentStep (turnPart i) (backPart i) e s = .next t → P t)
    (hill : ∀ e s t, E e → P s → s.cs = .busy → (∃ r, decode s.cmd = .error r) →
      agentStep (raise .illegalCommand 0x00) noReturn e s = .next t → P t)
    (s t : State) (hE : ∀ e ∈ s.inputs, E e) (hp : P s) (h : step s = .next t) : P t := by
  have run : ∀ (turn : State → State) (back : BusReturn → State → State) (D : Byte → Prop),
      (∀ s, (turn s).cmd = s.cmd) → (∀ r s, (back r s).cmd = s.cmd) →
      (∀ e s t, E e → P s → s.cs = .busy → D s.cmd → agentStep turn back e s = .next t → P t) →
      ∀ s t : State, (∀ e ∈ s.inputs, E e) → P s → s.cs = .busy → D s.cmd → runCommand turn back s = .next t → P t := by
    intro turn back D ht hb hs s t hE hp hbusy hD h
    rw [runCommand_busy _ _ _ hbusy] at h
    refine (drive_keeps (P := fun s => P s ∧ (s.cs = .busy → D s.cmd)) (E := E)
      (fun l s hp => ⟨hin l s hp.1, hp.2⟩) ?_ s.inputs s t hE ⟨hp, fun _ => hD⟩ hbusy h).1
    intro e s t he hp hbusy hstep
    refine ⟨hs e s t he hp.1 hbusy (hp.2 hbusy) hstep, fun ht' => ?_⟩
    by_cases hr : e.isReset = true
    · cases e <;> simp [Event.isReset] at hr
      rename_i d
      have := hostReset_idle d s t hstep
      rw [this] at ht'; cases ht'
    · rw [agentStep_cmd ht hb e (by simpa using hr) s t hstep]
      exact hp.2 hbusy
  have accepted : ∀ s t : State, (∀ e ∈ s.inputs, E e) → P s → s.cs = .busy → runAccepted s = .next t → P t := by
    intro s t hE hp hbusy h
    simp only [runAccepted] at h
    cases hd : decode s.cmd with
    | ok i =>
      simp only [hd] at h
      rw [exec_eq] at h
      exact run _ _ (fun w => decode w = .ok i) (turnPart_cmd i) (backPart_cmd i)
        (fun e s t he hp hb hD h => hcmd i e s t he hp hb hD h) s t hE hp hbusy hd h
    | error r =>
      simp only [hd] at h
      exact run (raise .illegalCommand 0x00) noReturn (fun w => ∃ r, decode w = .error r) (by intro s; rfl) (by intro r s; rfl)
        (fun e s t he hp hb hD h => hill e s t he hp hb hD h) s t hE hp hbusy ⟨r, hd⟩ h
  cases hc : s.cs with
  | busy =>
    rw [step_busy s hc] at h
    exact accepted s t hE hp hc h
  | idle =>
    rw [step_idle s hc] at h
    simp only [idleStep] at h
    split at h
    · injection h with h; exact h ▸ hp
    · rename_i w es heq
      have hE' : ∀ e ∈ es, E e := fun e he => hE e (by rw [heq]; simp [he])
      exact accepted (accept w (setInputs es s)) t hE' (hacc w _ (hin es s hp) hc) rfl h
    · rename_i e es _ heq
      exact hidle e _ t (hE e (by rw [heq]; simp)) (hin es s hp) hc h

end Sys2Proof.Machine
end

