-- ==== Sys2Proof/Laws/Commands.lean ====
section
/-! SUPPORT. What one local step of the CS, and what one returned outcome, can do in any command: the inversion lemmas that
invariants of `step` are proved from. -/

namespace Sys2Proof.Machine

theorem issuable_read (rm : RegMap) (n : Reg) (h : n ∈ readable) : issuable rm (.read (rm.addr n)) = true := by
  simp only [issuable, List.contains_iff_mem, List.mem_map]
  exact ⟨n, h, rfl⟩

theorem issuable_write (rm : RegMap) (n : Reg) (v : Byte) (h : n ∈ writable) : issuable rm (.write (rm.addr n) v) = true := by
  simp only [issuable, List.contains_iff_mem, List.mem_map]
  exact ⟨n, h, rfl⟩

/-- A transaction the controller issues names a register. -/
theorem mapped_of_issuable (rm : RegMap) (x : Txn) (h : issuable rm x = true) : mapped rm x = true := by
  cases x with
  | read a =>
    simp only [issuable, List.contains_iff_mem, List.mem_map] at h
    obtain ⟨n, _, rfl⟩ := h
    exact regAt?_addr_isSome rm n
  | write a v =>
    simp only [issuable, List.contains_iff_mem, List.mem_map] at h
    obtain ⟨n, _, rfl⟩ := h
    exact regAt?_addr_isSome rm n

/-- The frame of a command with transactions, one case for each of its four phases. -/
theorem commandTurn_cases (start : State → State) (txn : State → Option Txn) (finish : State → State) (s : State) :
    (s.phase = .start ∧ commandTurn start txn finish s = start s) ∨
    (s.phase = .acquire ∧ s.owner ≠ .free ∧ commandTurn start txn finish s = s) ∨
    (s.phase = .acquire ∧ s.owner = .free ∧ commandTurn start txn finish s = setPhase .body (takeLock .cs s)) ∨
    (s.phase = .body ∧ ∃ x, txn s = some x ∧ commandTurn start txn finish s = issue .cs x s) ∨
    (s.phase = .body ∧ txn s = none ∧ commandTurn start txn finish s = setPhase .respond (release .cs s)) ∨
    (s.phase = .respond ∧ commandTurn start txn finish s = finish s) := by
  simp only [commandTurn]
  cases hp : s.phase <;> simp
  · by_cases ho : s.owner = .free <;> simp [ho]
  · cases hx : txn s <;> simp

theorem pinStart_cases (p : Nat) (s : State) :
    (∃ e n, e ≠ .ok ∧ pinStart p s = raise e n s) ∨
      (s.ready = true ∧ legalPin p = true ∧ pinStart p s = setPhase .acquire s) := by
  simp only [pinStart]
  cases hr : s.ready
  · exact .inl ⟨.notInitialized, 0x00, by decide, by simp⟩
  · cases hl : legalPin p
    · exact .inl ⟨.invalidPinIndex, 0x00, by decide, by simp⟩
    · exact .inr (by simp)

/-- The state POLL_START leaves when it starts the loop (R114). -/
def pollStarted (s : State) : State :=
  respond .ok 0x00 0x00 { s with pollRun := true, stopReq := false, pollErr := 0, pollState := .idle, ps := .head }

/-- How a command ends: the last step of the commands with transactions. -/
def finishPart : Instr → State → State
  | .init n => initFinish n
  | .read p => readFinish p
  | _ => finishOk

/-- All a local step of the CS can leave, in any command and any phase. -/
inductive TurnLeaves (i : Instr) (s : State) : State → Prop
  | refuse (e : ErrCode) (n : Byte) (he : e ≠ .ok) (hp : s.phase = .start) : TurnLeaves i s (raise e n s)
  | check (hp : s.phase = .start) (hi : i ≠ .pollStart ∧ i ≠ .pollStop) : TurnLeaves i s (setPhase .acquire s)
  | discard (n : Nat) (hi : i = .init n) (hp : s.phase = .start) (hr : s.pollRun = false) :
      TurnLeaves i s (setPhase .acquire (discardHandle s))
  | wait (hp : s.phase = .acquire) (ho : s.owner ≠ .free) : TurnLeaves i s s
  | lock (hp : s.phase = .acquire) (ho : s.owner = .free) : TurnLeaves i s (setPhase .body (takeLock .cs s))
  | issue (x : Txn) (hp : s.phase = .body) (hx : issuable s.cfg.regAddr x = true) : TurnLeaves i s (issue .cs x s)
  | unlock (hp : s.phase = .body) : TurnLeaves i s (setPhase .respond (release .cs s))
  | finish (hp : s.phase = .respond) : TurnLeaves i s (finishPart i s)
  | startRefused (e : ErrCode) (n : Byte) (he : e ≠ .ok) (hi : i = .pollStart) : TurnLeaves i s (raise e n s)
  | started (hi : i = .pollStart) (hr : s.pollRun = false) (hy : s.ready = true) : TurnLeaves i s (pollStarted s)
  | stop (hi : i = .pollStop) : TurnLeaves i s (pollStopTurn s)

/-- What the first step of a command with transactions can leave. -/
inductive StartLeaves (i : Instr) (s : State) : State → Prop
  | refuse (e : ErrCode) (n : Byte) (he : e ≠ .ok) : StartLeaves i s (raise e n s)
  | check : StartLeaves i s (setPhase .acquire s)
  | discard (n : Nat) (hi : i = .init n) (hr : s.pollRun = false) :
      StartLeaves i s (setPhase .acquire (discardHandle s))

theorem commandTurn_leaves (i : Instr) (s : State) (start : State → State) (txn : State → Option Txn)
    (finish : State → State) (hi : i ≠ .pollStart ∧ i ≠ .pollStop) (hs : StartLeaves i s (start s))
    (hx : ∀ x, txn s = some x → issuable s.cfg.regAddr x = true) (hf : finish s = finishPart i s) :
    TurnLeaves i s (commandTurn start txn finish s) := by
  rcases commandTurn_cases start txn finish s with ⟨hp, h⟩ | ⟨hp, ho, h⟩ | ⟨hp, ho, h⟩ | ⟨hp, x, hx', h⟩ | ⟨hp, _, h⟩ |
    ⟨hp, h⟩ <;> rw [h]
  · generalize start s = u at hs ⊢
    cases hs with
    | refuse e n he => exact .refuse e n he hp
    | check => exact .check hp hi
    | discard n hi hr => exact .discard n hi hp hr
  · exact .wait hp ho
  · exact .lock hp ho
  · exact .issue x hp (hx x hx')
  · exact .unlock hp
  · rw [hf]; exact .finish hp

theorem pinStart_leaves (i : Instr) (p : Nat) (s : State) : StartLeaves i s (pinStart p s) := by
  rcases pinStart_cases p s with ⟨e, n, he, h⟩ | ⟨_, _, h⟩ <;> rw [h]
  · exact .refuse e n he
  · exact .check

theorem rmwTxn_issuable (n : Reg) (hr : n ∈ readable) (h : n ∈ writable) (g : Byte → Byte) (s : State) (x : Txn)
    (hx : rmwTxn n g s = some x) : issuable s.cfg.regAddr x = true := by
  simp only [rmwTxn] at hx
  split at hx
  · injection hx with hx; subst hx; exact issuable_read _ _ hr
  · split at hx
    · injection hx with hx; subst hx; exact issuable_write _ _ _ h
    · cases hx

theorem portWriteTxn_issuable (g : State → Byte) (s : State) (x : Txn) (hx : portWriteTxn g s = some x) :
    issuable s.cfg.regAddr x = true := by
  simp only [portWriteTxn] at hx
  split at hx
  · injection hx with hx; subst hx; exact issuable_write _ _ _ (by decide)
  · cases hx

theorem readTxn_issuable (s : State) (x : Txn) (hx : readTxn s = some x) : issuable s.cfg.regAddr x = true := by
  simp only [readTxn] at hx
  split at hx
  · injection hx with hx; subst hx; exact issuable_read _ _ (by decide)
  · cases hx

theorem initTxn_issuable (n : Nat) (s : State) (x : Txn) (hx : initTxn n s = some x) :
    issuable s.cfg.regAddr x = true := by
  simp only [initTxn] at hx
  split at hx
  · injection hx with hx; subst hx; exact issuable_write _ _ _ (by decide)
  · split at hx
    · injection hx with hx; subst hx; exact issuable_write _ _ _ (by decide)
    · split at hx
      · injection hx with hx; subst hx; exact issuable_write _ _ _ (by decide)
      · split at hx
        · injection hx with hx; subst hx; exact issuable_read _ _ (by decide)
        · cases hx

theorem cfgTxn_issuable (p : Nat) (s : State) (x : Txn) (hx : cfgTxn p s = some x) :
    issuable s.cfg.regAddr x = true := by
  simp only [cfgTxn] at hx
  split at hx
  · cases hx
  · rename_i n hn
    have hmem := List.mem_of_getElem? hn
    split at hx
    · injection hx with hx; subst hx
      refine issuable_read _ _ ?_
      revert hmem
      cases n <;> decide
    · injection hx with hx; subst hx
      refine issuable_write _ _ _ ?_
      revert hmem
      cases n <;> decide

/-- The inversion of a local step of the CS. -/
theorem turnPart_leaves (i : Instr) (s : State) : TurnLeaves i s (turnPart i s) := by
  cases i with
  | init n =>
    refine commandTurn_leaves _ s _ _ _ (by simp) ?_ (initTxn_issuable n s) rfl
    simp only [initStart]
    cases hp : s.pollRun
    · exact .discard n rfl hp
    · exact .refuse .illegalState 0x00 (by decide)
  | read p => exact commandTurn_leaves _ s _ _ _ (by simp) (pinStart_leaves _ p s) (readTxn_issuable s) rfl
  | setOn p =>
    exact commandTurn_leaves _ s _ _ _ (by simp) (pinStart_leaves _ p s) (rmwTxn_issuable _ (by decide) (by decide) _ s) rfl
  | setOff p =>
    exact commandTurn_leaves _ s _ _ _ (by simp) (pinStart_leaves _ p s) (rmwTxn_issuable _ (by decide) (by decide) _ s) rfl
  | toggle p =>
    exact commandTurn_leaves _ s _ _ _ (by simp) (pinStart_leaves _ p s) (rmwTxn_issuable _ (by decide) (by decide) _ s) rfl
  | allOn =>
    refine commandTurn_leaves _ s _ _ _ (by simp) ?_ (portWriteTxn_issuable _ s) rfl
    simp only [allOnStart]
    split
    · exact .refuse _ _ (by decide)
    · split
      · exact .refuse _ _ (by decide)
      · exact .check
  | allOff =>
    refine commandTurn_leaves _ s _ _ _ (by simp) ?_ (portWriteTxn_issuable _ s) rfl
    simp only [allOffStart]
    split
    · exact .refuse _ _ (by decide)
    · exact .check
  | cfgInIrq p => exact commandTurn_leaves _ s _ _ _ (by simp) (pinStart_leaves _ p s) (cfgTxn_issuable p s) rfl
  | pollStart =>
    simp only [turnPart, pollStartTurn]
    split
    · exact .startRefused _ _ (by decide) rfl
    · split
      · exact .startRefused _ _ (by decide) rfl
      · exact .started rfl (by simp_all) (by simp_all)
  | pollStop => exact .stop rfl

/-- All that a returned outcome can leave, in any command. -/
inductive BackLeaves (i : Instr) (r : BusReturn) (s : State) : State → Prop
  | fail (e : ErrCode) (n : Byte) (he : e ≠ .ok) (hr : r = .err) : BackLeaves i r s (raise e n s)
  | discard (n : Nat) (hi : i = .init n) (hr : r = .err) : BackLeaves i r s (raise .busFail s.tx (discardHandle s))
  | count (hi : ∀ n, i ≠ .init n) (hr : r ≠ .err) : BackLeaves i r s (advance r s)
  | snapshot (n : Nat) (hi : i = .init n) (hr : r ≠ .err) : BackLeaves i r s (initOk n r s)
  | none (hi : i = .pollStart ∨ i = .pollStop) : BackLeaves i r s s

/-- The inversion of a returned outcome. -/
theorem backPart_leaves (i : Instr) (r : BusReturn) (s : State) : BackLeaves i r s (backPart i r s) := by
  have plain : (∀ n, i ≠ .init n) → BackLeaves i r s (onReturn advance busFail r s) := by
    intro hi
    cases r
    · exact .fail .busFail s.tx (by decide) rfl
    · exact .count hi (by simp)
    · exact .count hi (by simp)
  cases i with
  | init n =>
    cases r
    · exact .discard n rfl rfl
    · exact .snapshot n rfl (by simp)
    · exact .snapshot n rfl (by simp)
  | cfgInIrq p =>
    cases r
    · simp only [backPart, onReturn, cfgFail]
      split
      · exact .fail .busFail 0x00 (by decide) rfl
      · exact .fail .partialConfig s.tx (by decide) rfl
    · exact .count (by simp) (by simp)
    · exact .count (by simp) (by simp)
  | pollStart => exact .none (.inl rfl)
  | pollStop => exact .none (.inr rfl)
  | _ => exact plain (by simp)

/-- INIT's bookkeeping of an OK outcome: only scratch changes. -/
theorem initOk_eq (n : Nat) (r : BusReturn) (s : State) :
    ∃ a k, initOk n r s = advance r { s with acc := a, i := k } := by
  cases r with
  | data b => exact ⟨_, _, rfl⟩
  | _ =>
    simp only [initOk, initBeginSnap]
    split
    · exact ⟨0x00, 0, rfl⟩
    · exact ⟨s.acc, s.i, rfl⟩

end Sys2Proof.Machine
end

