-- ==== Sys2Proof/Laws/Operands.lean ====
section
/-! SUPPORT. The bit-mask algebra in terms of single bits. -/

namespace Sys2Proof.Machine

theorem mask_eq (p : Nat) : mask p = (1 : Byte) <<< p := by
  apply BitVec.eq_of_toNat_eq
  simp [mask, trunc8, BitVec.toNat_shiftLeft, Nat.shiftLeft_eq]

theorem nmask_eq (p : Nat) : nmask p = ~~~ ((1 : Byte) <<< p) := by
  rw [nmask, mask_eq]

theorem allMask_eq (n : Nat) : allMask n = BitVec.ofNat 8 (2 ^ n - 1) := by
  simp [allMask, trunc8, Nat.shiftLeft_eq]

theorem legalPin_iff (p : Nat) : legalPin p = true ↔ p ≤ 7 := by simp [legalPin]

theorem legalCount_iff (n : Nat) : legalCount n = true ↔ 1 ≤ n ∧ n ≤ 8 := by simp [legalCount]

theorem getLsbD_mask (p q : Nat) (hp : p < 8) : (mask p).getLsbD q = decide (q = p) := by
  rw [mask_eq]
  by_cases hq : q < 8
  · have : ∀ p < 8, ∀ q < 8, ((1 : Byte) <<< p).getLsbD q = decide (q = p) := by decide
    exact this p hp q hq
  · have h : q ≠ p := by omega
    rw [BitVec.getLsbD_of_ge _ _ (by omega)]
    simp [h]

/-- Only the bit named is assigned. -/
theorem getLsbD_putBit (w : Byte) (p q : Nat) (b : Bool) (hp : p < 8) :
    (putBit w p b).getLsbD q = if q = p then b else w.getLsbD q := by
  by_cases hq : q < 8
  · cases b
    · simp only [putBit, nmask, Bool.false_eq_true, if_false, BitVec.getLsbD_and, BitVec.getLsbD_not, getLsbD_mask p q hp,
        hq, decide_true, Bool.true_and]
      by_cases h : q = p <;> simp [h]
    · simp only [putBit, if_true, BitVec.getLsbD_or, getLsbD_mask p q hp]
      by_cases h : q = p <;> simp [h]
  · have h : q ≠ p := by omega
    rw [if_neg h, BitVec.getLsbD_of_ge _ _ (by omega), BitVec.getLsbD_of_ge _ _ (by omega)]

/-- The isolated bit is 1 or 0, as the bit is. -/
theorem isolateBit_eq (v : Byte) (p : Nat) (hp : p ≤ 7) : isolateBit v p = if v.getLsbD p then 1 else 0 := by
  have h : ∀ p < 8, ∀ v : Byte, isolateBit v p = if v.getLsbD p then 1 else 0 := by decide +kernel
  exact h p (by omega) v

end Sys2Proof.Machine
end

