-- ==== Sys2Proof/Laws/PerInstr.lean ====
section
/-! SUPPORT. The family ArgField: the word of every encodable command carries its opcode and its operand, whole, in the two
fields (30_encoding.md R78, R80). -/

namespace Sys2Proof.Laws.ArgField

/-- No bit of the opcode or of an encodable operand is dropped by the encoding. -/
def Statement (i : Instr) : Prop :=
  i.wf = true → opField (encode i) = i.opcode ∧ argField (encode i) = i.arg

theorem fields (a b : Nat) (ha : a < 16) (hb : b < 16) :
    opField (BitVec.ofNat 4 a ++ BitVec.ofNat 4 b) = a ∧ argField (BitVec.ofNat 4 a ++ BitVec.ofNat 4 b) = b := by
  have h : ∀ a < 16, ∀ b < 16,
      opField (BitVec.ofNat 4 a ++ BitVec.ofNat 4 b) = a ∧ argField (BitVec.ofNat 4 a ++ BitVec.ofNat 4 b) = b := by
    decide
  exact h a ha b hb

theorem withOperand (i : Instr) (p : Nat) (ho : i.opcode < 16) (ha : i.arg = p) (hw : i.wf = fitsArg p) :
    Statement i := by
  intro h
  rw [hw, fitsArg, decide_eq_true_eq] at h
  exact fields i.opcode i.arg ho (ha ▸ h)

theorem withoutOperand (i : Instr) (ho : i.opcode < 16) (ha : i.arg = 0) : Statement i :=
  fun _ => fields i.opcode i.arg ho (ha ▸ by decide)

theorem init (n : Nat) : Statement (.init n) := withOperand _ n (by simp [Instr.opcode]) rfl rfl
theorem read (p : Nat) : Statement (.read p) := withOperand _ p (by simp [Instr.opcode]) rfl rfl
theorem setOn (p : Nat) : Statement (.setOn p) := withOperand _ p (by simp [Instr.opcode]) rfl rfl
theorem setOff (p : Nat) : Statement (.setOff p) := withOperand _ p (by simp [Instr.opcode]) rfl rfl
theorem toggle (p : Nat) : Statement (.toggle p) := withOperand _ p (by simp [Instr.opcode]) rfl rfl
theorem allOn : Statement .allOn := withoutOperand _ (by decide) rfl
theorem allOff : Statement .allOff := withoutOperand _ (by decide) rfl
theorem cfgInIrq (p : Nat) : Statement (.cfgInIrq p) := withOperand _ p (by simp [Instr.opcode]) rfl rfl
theorem pollStart : Statement .pollStart := withoutOperand _ (by decide) rfl
theorem pollStop : Statement .pollStop := withoutOperand _ (by decide) rfl

end Sys2Proof.Laws.ArgField
end

