-- ==== Sys2Proof/Laws/Poll.lean ====
section
/-! SUPPORT. What one local step of the PS, and what one outcome returned to it, can do: the inversion lemmas of the poll
sequencer. -/

namespace Sys2Proof.Machine

/-- All a local step of the PS can leave. -/
inductive PsLeaves (s : State) : State → Prop
  | stay : PsLeaves s s
  | stopped (hp : s.ps = .head) (hr : s.stopReq = true) : PsLeaves s (pollOff s)
  | goOn (hp : s.ps = .head) (hr : s.stopReq = false) : PsLeaves s (setPs .lock s)
  | lock (hp : s.ps = .lock) (ho : s.owner = .free) :
      PsLeaves s (setPs .flags (issue .ps (.read (s.cfg.regAddr.addr .intf)) (takeLock .ps s)))
  | deliver (p : PinIndex) (rest : List PinIndex) (hp : s.ps = .emit) (hl : s.emitList = p :: rest)
      (hq : queueRoom s = true) : PsLeaves s { emit p s with emitList := rest }
  | capture (hp : s.ps = .emit) (hl : s.emitList = []) (ho : s.owner = .ps) (hn : s.pendPs = none) :
      PsLeaves s (setPs .ack (setPend .ps (some (.read (s.cfg.regAddr.addr .intcap))) s))
  | wake (hp : s.ps = .sleep) : PsLeaves s (setPs .head s)

/-- The inversion of a local step of the PS. -/
theorem psTurn_leaves (s : State) : PsLeaves s (psTurn s) := by
  simp only [psTurn]
  cases hp : s.ps <;> simp only
  case off => exact .stay
  case head =>
    simp only [psHead]
    cases hr : s.stopReq
    · exact .goOn hp hr
    · exact .stopped hp hr
  case lock =>
    simp only [psLock]
    split
    · exact .lock hp (by assumption)
    · exact .stay
  case flags => exact .stay
  case emit =>
    simp only [psEmit]
    split
    · rename_i p rest hl
      split
      · exact .deliver p rest hp hl (by assumption)
      · exact .stay
    · rename_i hl
      split
      · rename_i hc
        have h' := hc
        simp only [canIssue, Bool.and_eq_true, decide_eq_true_eq] at h'
        simp only [issue, hc, if_true]
        exact .capture hp hl h'.1 h'.2
      · exact .stay
  case ack => exact .stay
  case sleep => exact .wake hp

/-- All that an outcome returned to the PS can leave. -/
inductive PsBack (r : BusReturn) (s : State) : State → Prop
  | none (hp : s.ps ≠ .flags ∧ s.ps ≠ .ack ∨ r = .wrote) : PsBack r s s
  | zero (hp : s.ps = .flags) (hr : r = .data 0x00) :
      PsBack r s { release .ps s with pollState := .idle, ps := .sleep }
  | fired (f : Byte) (hp : s.ps = .flags) (hr : r = .data f) (hf : f ≠ 0x00) :
      PsBack r s { s with
        f := f, pollState := .fired, emitList := decodeFlags s.cfg.decodePolicy f, ps := .emit }
  | acked (hp : s.ps = .ack) (b : Byte) (hr : r = .data b) : PsBack r s (psAck s)
  | failed (hp : s.ps = .flags ∨ s.ps = .ack) (hr : r = .err) : PsBack r s (psFail s)

/-- The inversion of an outcome returned to the PS. -/
theorem psReturn_leaves (r : BusReturn) (s : State) : PsBack r s (psReturn r s) := by
  cases hp : s.ps <;> cases r <;> simp only [psReturn, hp]
  case flags.err => exact .failed (.inl hp) rfl
  case ack.err => exact .failed (.inr hp) rfl
  case flags.data f =>
    simp only [psFlags]
    split
    · rename_i hf; subst hf; exact .zero hp rfl
    · rename_i hf; exact .fired f hp rfl hf
  case ack.data b => exact .acked hp b rfl
  all_goals first | exact .none (.inr rfl) | exact .none (.inl (by simp [hp]))

end Sys2Proof.Machine
end

