-- ==== Sys2Proof/Laws/Step.lean ====
section
/-! SUPPORT. The induction over `step` in its parts: what every piece of every agent's step keeps, `step` keeps. -/

namespace Sys2Proof.Machine

/-- A controller reset that answers a next state (R158). -/
theorem hostReset_cases (d : ResetDraw) (s t : State) (h : hostReset d s = .next t) :
    ∃ m m', abandon s.cfg.regAddr d.csTook s.mem s.pendCs = some m ∧
      abandon s.cfg.regAddr d.psTook m s.pendPs = some m' ∧ t = resetController d (setMem m' s) := by
  simp only [hostReset] at h
  split at h
  · cases h
  · rename_i m hm
    split at h
    · cases h
    · rename_i m' hm'
      injection h with h
      exact ⟨m, m', hm, hm', h.symm⟩

/-- The premises of the induction over `step`, one for each piece of an agent's step. `P` is the property kept, `E` what is
known of the events. -/
structure StepParts (P : State → Prop) (E : Event → Prop) : Prop where
  inputs : ∀ l s, P s → P (setInputs l s)
  accept : ∀ w s, P s → s.cs = .idle → P (accept w s)
  pop : ∀ s, P s → P (irqPop s)
  reset : ∀ d m m' s, E (.reset d) → P s → abandon s.cfg.regAddr d.csTook s.mem s.pendCs = some m →
    abandon s.cfg.regAddr d.psTook m s.pendPs = some m' → P (resetController d (setMem m' s))
  turn : ∀ i s u, P s → s.cs = .busy → decode s.cmd = .ok i → s.pendCs = none → u = turnPart i s →
    TurnLeaves i s u → P u
  illegal : ∀ s, P s → s.cs = .busy → (∃ r, decode s.cmd = .error r) → s.pendCs = none →
    P (raise .illegalCommand 0x00 s)
  back : ∀ i x m r o s u, P s → s.cs = .busy → decode s.cmd = .ok i → s.pendCs = some x →
    busRun s.cfg.regAddr s.mem x o = some (m, r) → u = backPart i r (setPend .cs none (setMem m s)) →
    BackLeaves i r (setPend .cs none (setMem m s)) u → P u
  noBack : ∀ x m r o s, P s → (s.cs = .idle ∨ ∃ r, decode s.cmd = .error r) → s.pendCs = some x →
    busRun s.cfg.regAddr s.mem x o = some (m, r) → P (setPend .cs none (setMem m s))
  psTurn : ∀ s u, P s → PsLeaves s u → P u
  psBack : ∀ x m r o s u, P s → s.pendPs = some x → busRun s.cfg.regAddr s.mem x o = some (m, r) →
    PsBack r (setPend .ps none (setMem m s)) u → P u
  env : ∀ n b s, E (.env n b) → P s → P (envWrite n b s)

/-- One agent's step keeps what its pieces keep. -/
theorem StepParts.agentStep {P : State → Prop} {E : Event → Prop} (hP : StepParts P E) {turn : State → State}
    {back : BusReturn → State → State} (e : Event) (s t : State) (he : E e) (hp : P s)
    (ht : s.pendCs = none → P (turn s))
    (hb : ∀ x m r o, s.pendCs = some x → busRun s.cfg.regAddr s.mem x o = some (m, r) →
      P (back r (setPend .cs none (setMem m s))))
    (h : agentStep turn back e s = .next t) : P t := by
  cases e with
  | submit w => injection h with h; exact h ▸ hp
  | pop => injection h with h; exact h ▸ hP.pop s hp
  | reset d =>
    obtain ⟨m, m', hm, hm', rfl⟩ := hostReset_cases d s t h
    exact hP.reset d m m' s he hp hm hm'
  | csTurn =>
    injection h with h
    subst h
    split
    · exact ht (by assumption)
    · exact hp
  | psTurn => injection h with h; exact h ▸ hP.psTurn s _ hp (psTurn_leaves s)
  | complete who o =>
    cases who with
    | cs =>
      rcases completeTxn_cases .cs back o s t h with ⟨_, rfl⟩ | ⟨x, m, r, hx, hr, rfl⟩
      · exact hp
      · exact hb x m r o hx hr
    | ps =>
      rcases completeTxn_cases .ps psReturn o s t h with ⟨_, rfl⟩ | ⟨x, m, r, hx, hr, rfl⟩
      · exact hp
      · exact hP.psBack x m r o s _ hp hx hr (psReturn_leaves r _)
  | env n b => injection h with h; exact h ▸ hP.env n b s he hp

/-- What every piece of every agent's step keeps, `step` keeps. -/
theorem StepParts.step {P : State → Prop} {E : Event → Prop} (hP : StepParts P E) (s t : State)
    (hE : ∀ e ∈ s.inputs, E e) (hp : P s) (h : step s = .next t) : P t := by
  refine step_keeps (P := P) (E := E) hP.inputs hP.accept ?_ ?_ ?_ s t hE hp h
  · intro e s t he hp hi h
    exact hP.agentStep e s t he hp (fun _ => hp)
      (fun x m r o hx hr => hP.noBack x m r o s hp (.inl hi) hx hr) h
  · intro i e s t he hp hb hd h
    exact hP.agentStep e s t he hp (fun hn => hP.turn i s _ hp hb hd hn rfl (turnPart_leaves i s))
      (fun x m r o hx hr => hP.back i x m r o s _ hp hb hd hx hr rfl (backPart_leaves i r _)) h
  · intro e s t he hp hb hd h
    exact hP.agentStep e s t he hp (fun hn => hP.illegal s hp hb hd hn)
      (fun x m r o hx hr => hP.noBack x m r o s hp (.inr hd) hx hr) h

end Sys2Proof.Machine
end

