-- ==== Sys2Proof/Tests/Slice0.lean ====
section
/-! SUPPORT. Small tests, their expected results taken from spec/95_test_vectors.md (the vector is named in each), and one
witness for the hypotheses of each statement of Certificates/Slice0/Obligations.lean. -/

namespace Sys2Proof.Tests

open Sys2Proof Sys2Proof.Machine

/-! Well-formedness: one ill-formed command for each check of WellFormed.lean. -/

theorem test_wf_init_refused : (Instr.init 16).wf = false := by decide
theorem test_wf_read_refused : (Instr.read 16).wf = false := by decide
theorem test_wf_set_on_refused : (Instr.setOn 16).wf = false := by decide
theorem test_wf_set_off_refused : (Instr.setOff 16).wf = false := by decide
theorem test_wf_toggle_refused : (Instr.toggle 16).wf = false := by decide
theorem test_wf_cfg_refused : (Instr.cfgInIrq 16).wf = false := by decide

/-! Decoding: each word written out bit by bit from R80, OP and then ARG (95_test_vectors.md 2.1). -/

theorem test_decode_init : decode 0b0001_0011 = .ok (.init 3) := by decide
theorem test_decode_init_15 : decode 0b0001_1111 = .ok (.init 15) := by decide
theorem test_decode_read : decode 0b0010_0111 = .ok (.read 7) := by decide
theorem test_decode_read_8 : decode 0b0010_1000 = .ok (.read 8) := by decide
theorem test_decode_set_on : decode 0b0011_1111 = .ok (.setOn 15) := by decide
theorem test_decode_set_off : decode 0b0100_0100 = .ok (.setOff 4) := by decide
theorem test_decode_toggle : decode 0b0101_0110 = .ok (.toggle 6) := by decide
theorem test_decode_all_on : decode 0b0110_0000 = .ok .allOn := by decide
theorem test_decode_all_off : decode 0b0111_0000 = .ok .allOff := by decide
theorem test_decode_cfg : decode 0b1000_0010 = .ok (.cfgInIrq 2) := by decide
theorem test_decode_poll_start : decode 0b1001_0000 = .ok .pollStart := by decide
theorem test_decode_poll_stop : decode 0b1010_0000 = .ok .pollStop := by decide
theorem test_decode_illegal :
    [(0x00 : Byte), 0x0F, 0x61, 0x7F, 0x91, 0xA8, 0xB0, 0xFF].all (fun w => (decode w).toOption.isNone) = true := by
  decide
theorem test_decode_takes_one_byte : decodeBytes [0x31, 0x60] = .ok (.setOn 1, [0x60]) := by decide
theorem test_decode_nothing : decodeBytes [] = .error .noByte := by decide
theorem test_table_word : decodeTableWord 8 0x82 = some (.cfgInIrq 2) := by decide
theorem test_encode : encode (.toggle 6) = 0x56 ∧ encode .pollStop = 0xA0 := by decide

/-! The masks (95_test_vectors.md 2.2) and the flag decoder (2.8). -/

theorem test_mask : (List.range 8).map mask = [0x01, 0x02, 0x04, 0x08, 0x10, 0x20, 0x40, 0x80] := by decide
theorem test_nmask : (List.range 8).map nmask = [0xFE, 0xFD, 0xFB, 0xF7, 0xEF, 0xDF, 0xBF, 0x7F] := by decide
theorem test_all_mask :
    [1, 2, 3, 4, 5, 6, 7, 8].map allMask = [0x01, 0x03, 0x07, 0x0F, 0x1F, 0x3F, 0x7F, 0xFF] := by decide
theorem test_dec_lowest :
    [(0x01 : Byte), 0x04, 0x80, 0x06, 0x90, 0xFF].map (decodeFlags .lowestFirst) = [[0], [2], [7], [1], [4], [0]] := by
  decide
theorem test_dec_all :
    [(0x06 : Byte), 0x90, 0xFF].map (decodeFlags .allAscending) = [[1, 2], [4, 7], [0, 1, 2, 3, 4, 5, 6, 7]] := by decide

/-! One step each. -/

/-- A usable handle with three pins and snapshot 0x05. -/
def usable : State := { State.reset with ready := true, pinCount := 3, snapLen := 3, snap := 0x05 }

/-- A usable handle whose poll loop runs, the PS in `p`. -/
def polling (p : PsState) : State := { usable with pollRun := true, ps := p }

/-- `s` when the host submits `w` next and the agents of `l` follow. -/
def submitting (w : Byte) (l : List Event) (s : State) : State := { s with inputs := .submit w :: l }

/-- A field of the state one step leaves. -/
def result {α : Type} (g : State → α) (s : State) : Option α :=
  match step s with
  | .next t => some (g t)
  | _ => none

/-- INIT-2. -/
theorem test_init_masks_the_snapshot :
    result (fun t => (t.snap, t.snapLen, t.pinCount, t.ready, t.resp))
      (submitting 0x13 (served 6) (envWrite .port 0xFF State.reset)) = some (0x07, 3, 3, true, ⟨0, 0, 0⟩) := by decide

/-- INIT-7. -/
theorem test_init_fails_in_the_snapshot :
    result (fun t => (t.ready, t.snap, t.resp, t.owner))
      (submitting 0x13 (failedAt 4 false) (envWrite .port 0x05 usable)) = some (false, 0, ⟨1, 0, 4⟩, .free) := by decide

/-- READ-12. -/
theorem test_read_refreshes_its_entry :
    result (fun t => (t.resp, t.snap)) (submitting 0x21 (served 1) (envWrite .port 0x02 usable)) =
      some (⟨0, 1, 0⟩, 0x07) := by decide

/-- READ-13. -/
theorem test_read_above_the_snapshot :
    result (fun t => (t.resp, t.snap)) (submitting 0x25 (served 1) (envWrite .port 0xFF usable)) =
      some (⟨0, 1, 0⟩, 0x05) := by decide

/-- SETON-4. -/
theorem test_set_on :
    result (fun t => (t.target .port, t.resp)) (submitting 0x35 (served 2) (envWrite .port 0xDF usable)) =
      some (0xFF, ⟨0, 0, 0⟩) := by decide

/-- MUT-2, the write in effect. -/
theorem test_set_on_write_fails :
    result (fun t => (t.target .port, t.resp)) (submitting 0x31 (failedAt 1 true) (envWrite .port 0x10 usable)) =
      some (0x12, ⟨1, 0, 1⟩) := by decide

/-- SETOFF-4. -/
theorem test_set_off :
    result (fun t => (t.target .port, t.resp)) (submitting 0x44 (served 2) (envWrite .port 0x5A usable)) =
      some (0x4A, ⟨0, 0, 0⟩) := by decide

/-- MUT-4. -/
theorem test_set_off_not_initialized :
    result (fun t => t.resp) (submitting 0x43 (served 2) State.reset) = some ⟨6, 0, 0⟩ := by decide

/-- TOGGLE-3. -/
theorem test_toggle :
    result (fun t => (t.target .port, t.resp)) (submitting 0x56 (served 2) (envWrite .port 0xA5 usable)) =
      some (0xE5, ⟨0, 0, 0⟩) := by decide

/-- MUT-3. -/
theorem test_toggle_invalid_index :
    result (fun t => t.resp) (submitting 0x5C (served 2) usable) = some ⟨2, 0, 0⟩ := by decide

/-- ALLON-12. -/
theorem test_all_on :
    result (fun t => (t.target .port, t.resp)) (submitting 0x60 (served 1) (envWrite .port 0xF0 usable)) =
      some (0x07, ⟨0, 0, 0⟩) := by decide

/-- ALLON-10. -/
theorem test_all_on_bad_count :
    result (fun t => t.resp) (submitting 0x60 (served 1) { usable with pinCount := 12, snapLen := 0, snap := 0 }) =
      some ⟨3, 0, 0⟩ := by decide

/-- ALLOFF-2. -/
theorem test_all_off :
    result (fun t => (t.target .port, t.resp))
      (submitting 0x70 (served 1) (envWrite .port 0xFF { usable with pinCount := 9, snapLen := 0, snap := 0 })) =
      some (0x00, ⟨0, 0, 0⟩) := by decide

/-- CFG-2. -/
theorem test_cfg :
    result (fun t => [t.target .dir, t.target .gppu, t.target .ipol, t.target .gpinten])
      (submitting 0x80 (served 8) (envWrite .dir 0x81 (envWrite .gppu 0x80 (envWrite .gpinten 0x10 usable)))) =
      some [0x81, 0x81, 0x01, 0x11] := by decide

/-- CFG failure at k = 3, the write of GPPU not in effect. -/
theorem test_cfg_partial :
    result (fun t => (t.resp, [t.target .dir, t.target .gppu, t.target .ipol]))
      (submitting 0x82 (failedAt 3 false) usable) = some (⟨4, 0, 3⟩, [0x04, 0x00, 0x00]) := by decide

/-- POLL-7. -/
theorem test_poll_start :
    result (fun t => (t.resp, t.ps, status t)) (submitting 0x90 [.csTurn] usable) = some (⟨0, 0, 0⟩, .head, 0x05) := by
  decide

/-- POLL-8. -/
theorem test_poll_start_refused :
    result (fun t => (t.resp, t.ps)) (submitting 0x90 [.csTurn] (polling .sleep)) = some (⟨7, 0, 0⟩, .sleep) := by decide

/-- POLL-11. -/
theorem test_poll_stop :
    result (fun t => (t.resp, status t)) (submitting 0xA0 [.csTurn] (polling .sleep)) = some (⟨0, 0, 0⟩, 0x0D) := by
  decide

/-- POLL-10, and ERR-4: no handle is needed. -/
theorem test_poll_stop_while_off :
    result (fun t => (t.resp, t.stopReq)) (submitting 0xA0 [.csTurn] State.reset) = some (⟨0, 0, 0⟩, false) := by decide

/-- ERR-1. -/
theorem test_illegal_command :
    result (fun t => t.resp) (submitting 0x61 [.csTurn] State.reset) = some ⟨5, 0, 0⟩ := by decide

/-- POLL-5. -/
theorem test_poll_read_fails :
    result (fun t => (status t, t.ps, t.owner, t.irqQ))
      { polling .flags with
        owner := .ps, pendPs := some (.read 0x07), inputs := [.complete .ps (.err false)] } =
      some (0x21, .off, .free, []) := by decide

/-- Q-1. -/
theorem test_irq_pop :
    result (fun t => (t.hostPop, t.irqQ, irqCount t)) { usable with irqQ := [2, 5], inputs := [.pop] } =
      some (⟨true, 2⟩, [5], 1) := by decide

/-- The draws of a reset at which nothing abandoned took effect but as said. -/
def draw (cs ps : Bool) : ResetDraw := ⟨cs, ps, 0, 0, 0, 0, 0, .start, 0, []⟩

/-- RST-2, the write in effect. -/
theorem test_reset :
    result (fun t => (t.cs, t.owner, t.target .port, status t))
      { envWrite .port 0x10 usable with
        cs := .busy, cmd := 0x31, phase := .body, owner := .cs, pendCs := some (.write 0x09 0x12),
        inputs := [.reset (draw true false)] } = some (.idle, .free, 0x12, 0x00) := by decide

/-- What the host's probe does: the word runs as the first command after reset. -/
theorem test_with_fetch_word :
    result (fun t => (t.ready, t.pinCount, t.resp)) (State.reset.withFetchWord 8 0x18) = some (true, 8, ⟨0, 0, 0⟩) := by
  decide

/-! Witnesses: a state and operands that meet all the hypotheses of each statement together, at the ends of the ranges its
clauses name. -/

/-- `s` with the word `w` accepted, and the agents of `l` to follow. -/
def accepted (w : Byte) (l : List Event) (s : State) : State := { accept w s with inputs := l }

/-- A next state is answered, of which `g` holds. -/
def answers (g : State → Bool) : Result → Bool
  | .next t => g t
  | _ => false

theorem witness_DecodeOfEncodeIsTheCommand :
    (Instr.init 0).wf = true ∧ (Instr.cfgInIrq 15).wf = true ∧ Instr.allOn.wf = true := by decide

theorem witness_EncodeOfDecodeIsTheWord : decode 0x1F = .ok (.init 15) ∧ decode 0xA0 = .ok .pollStop := by decide

theorem witness_StepRunsTheAcceptedCommand :
    (let s := submitting 0x60 (served 1) usable
     s.cs = .idle ∧ s.inputs = .submit 0x60 :: served 1 ∧ decode 0x60 = .ok .allOn) ∧
    (let s := accepted 0x13 [] usable
     s.cs = .busy ∧ decode s.cmd = .ok (.init 3)) ∧
    (let s := { usable with inputs := [.psTurn] }
     s.cs = .idle ∧ s.inputs = [.psTurn] ∧ ∀ w, Event.psTurn ≠ .submit w) ∧
    (usable.cs = .idle ∧ usable.inputs = []) :=
  ⟨by decide, by decide, ⟨by decide, by decide, fun _ => by simp⟩, by decide⟩

theorem witness_OtherAgentsInterleaveWithACommand :
    (let s := accepted 0x60 [.reset (draw false false)] usable
     s.cs = .busy ∧ s.inputs = [.reset (draw false false)] ∧ (Event.reset (draw false false)).ofCommand = false ∧
       answers (fun _ => true) (agentStep id noReturn (.reset (draw false false)) { s with inputs := [] }) = true) ∧
    (let s := accepted 0x60 [.env .port 3, .csTurn] usable
     s.cs = .busy ∧ s.inputs = [.env .port 3, .csTurn] ∧ (Event.env .port 3).ofCommand = false ∧
       answers (fun _ => true) (agentStep id noReturn (.env .port 3) { s with inputs := [.csTurn] }) = true) ∧
    (let s := accepted 0x60 [.submit 0x70] usable
     s.cs = .busy ∧ s.inputs = [.submit 0x70] ∧ (Event.submit 0x70).ofCommand = false) := by decide

theorem witness_IllegalWordEndsAsIllegalCommand :
    let s := submitting 0xFF [.csTurn] usable
    s.cs = .idle ∧ s.pendCs = none ∧ s.owner ≠ .cs ∧ decode 0xFF = .error (.reservedOpcode 15) ∧
      s.inputs = [.submit 0xFF, .csTurn] := by decide

theorem witness_InitWithLegalCountCompletes :
    (let s := accepted 0x11 (served 4) State.reset
     Accepted s ∧ 1 ≤ 1 ∧ 1 ≤ 8 ∧ s.pollRun = false ∧ s.owner = .free ∧ s.cfg.regAddr.wf ∧
       s.inputs = served (3 + 1) ++ []) ∧
    (let s := accepted 0x18 (served 11) usable
     Accepted s ∧ 1 ≤ 8 ∧ 8 ≤ 8 ∧ s.pollRun = false ∧ s.owner = .free ∧ s.cfg.regAddr.wf ∧
       s.inputs = served (3 + 8) ++ []) := by decide

theorem witness_InitWithIllegalCountCompletes :
    ∀ n ∈ [0, 9, 15], let s := accepted (encode (.init n)) (served 3) usable
      Accepted s ∧ (n = 0 ∨ 9 ≤ n) ∧ n ≤ 15 ∧ s.pollRun = false ∧ s.owner = .free ∧ s.inputs = served 3 ++ [] := by
  decide

theorem witness_InitFailureDiscardsTheHandle :
    (let s := accepted 0x18 (failedAt 0 true) usable
     Accepted s ∧ s.pollRun = false ∧ s.owner = .free ∧ s.cfg.regAddr.wf ∧ 0 < 3 + (if 1 ≤ 8 ∧ 8 ≤ 8 then 8 else 0) ∧
       s.inputs = failedAt 0 true ++ []) ∧
    (let s := accepted 0x18 (failedAt 10 false) usable
     Accepted s ∧ s.pollRun = false ∧ s.owner = .free ∧ s.cfg.regAddr.wf ∧ 10 < 3 + (if 1 ≤ 8 ∧ 8 ≤ 8 then 8 else 0) ∧
       s.inputs = failedAt 10 false ++ []) ∧
    (let s := accepted 0x1F (failedAt 2 true) usable
     Accepted s ∧ s.pollRun = false ∧ s.owner = .free ∧ s.cfg.regAddr.wf ∧
       2 < 3 + (if 1 ≤ 15 ∧ 15 ≤ 8 then 15 else 0) ∧ s.inputs = failedAt 2 true ++ []) := by decide

theorem witness_TransactionsAreIssuedInOrder :
    (∀ k ∈ [0, 3, 10], let s := accepted 0x18 (issuing k) usable
      Accepted s ∧ s.pollRun = false ∧ s.owner = .free ∧ s.cfg.regAddr.wf ∧
        k < 3 + (if 1 ≤ 8 ∧ 8 ≤ 8 then 8 else 0) ∧ s.inputs = issuing k) ∧
    (∀ kn ∈ [(0, Reg.dir), (7, Reg.gpinten)], let s := accepted 0x87 (issuing kn.1) usable
      7 ≤ 7 ∧ [Reg.dir, .gppu, .ipol, .gpinten][kn.1 / 2]? = some kn.2 ∧ Accepted s ∧ s.ready = true ∧
        s.owner = .free ∧ s.cfg.regAddr.wf ∧ s.mem.wf ∧ s.inputs = issuing kn.1) := by decide

theorem witness_RefusedWhileTheLoopRuns :
    (let s := accepted 0x10 [.csTurn] (polling .sleep)
     Accepted s ∧ s.pollRun = true ∧ s.inputs = [.csTurn]) ∧
    (let s := accepted 0x90 [.csTurn] { polling .flags with owner := .ps }
     Accepted s ∧ s.pollRun = true ∧ s.inputs = [.csTurn]) := by decide

theorem witness_ReadAnswersTheLevel :
    (let s := accepted 0x27 (served 1) usable
     7 ≤ 7 ∧ Accepted s ∧ s.ready = true ∧ s.owner = .free ∧ s.cfg.regAddr.wf ∧ s.inputs = served 1 ++ []) ∧
    (let s := accepted 0x20 (failedAt 0 true) usable
     0 ≤ 7 ∧ Accepted s ∧ s.ready = true ∧ s.owner = .free ∧ s.cfg.regAddr.wf ∧ s.inputs = failedAt 0 true ++ []) := by
  decide

theorem witness_SinglePinMutationsWriteTheComputedPort :
    ∀ l ∈ [served 2, failedAt 0 false, failedAt 1 true], let s := accepted 0x37 l usable
      7 ≤ 7 ∧ Accepted s ∧ s.ready = true ∧ s.owner = .free ∧ s.cfg.regAddr.wf ∧ s.inputs = l ++ [] := by decide

theorem witness_AllOnDrivesTheConfiguredPins :
    (∀ n ∈ [1, 8], let s := accepted 0x60 (served 1) { usable with pinCount := BitVec.ofNat 4 n }
      Accepted s ∧ s.ready = true ∧ 1 ≤ s.pinCount.toNat ∧ s.pinCount.toNat ≤ 8 ∧ s.owner = .free ∧
        s.inputs = served 1 ++ []) ∧
    (∀ n ∈ [1, 8], let s := accepted 0x60 (failedAt 0 true) { usable with pinCount := BitVec.ofNat 4 n }
      Accepted s ∧ s.ready = true ∧ 1 ≤ s.pinCount.toNat ∧ s.pinCount.toNat ≤ 8 ∧ s.owner = .free ∧
        s.inputs = failedAt 0 true ++ []) ∧
    (∀ n ∈ [0, 9], let s := accepted 0x60 [.csTurn] { usable with pinCount := BitVec.ofNat 4 n }
      Accepted s ∧ s.ready = true ∧ (s.pinCount.toNat = 0 ∨ 9 ≤ s.pinCount.toNat) ∧ s.inputs = [.csTurn]) := by decide

theorem witness_AllOffClearsThePort :
    ∀ l ∈ [served 1, failedAt 0 true], let s := accepted 0x70 l usable
      Accepted s ∧ s.ready = true ∧ s.owner = .free ∧ s.inputs = l ++ [] := by decide

theorem witness_NotInitializedChangesOnlyTheResponse :
    ∀ w ∈ [(0x2F : Byte), 0x30, 0x48, 0x57, 0x87, 0x60, 0x70, 0x90], let s := accepted w [.csTurn] State.reset
      Accepted s ∧ s.ready = false ∧ s.pollRun = false ∧ s.inputs = [.csTurn] := by decide

theorem witness_InvalidPinIndexChangesOnlyTheResponse :
    (∀ w ∈ [(0x28 : Byte), 0x38, 0x48, 0x58, 0x88], let s := accepted w [.csTurn] usable
      7 < 8 ∧ Accepted s ∧ s.ready = true ∧ s.inputs = [.csTurn]) ∧
    (let s := accepted 0x2F [.csTurn] usable
     7 < 15 ∧ Accepted s ∧ s.ready = true ∧ s.inputs = [.csTurn]) := by decide

theorem witness_SetOnLosesAnUpdateInBetween :
    (∀ i ∈ [Instr.setOn 0, .setOff 7, .toggle 7],
      let l := servedAround 1 (.env .port 0x80) 1 ++ []
      let s := accepted (encode i) l usable
      Accepted s ∧ s.ready = true ∧ s.owner = .free ∧ s.cfg.regAddr.wf ∧ s.mem.wf ∧ s.inputs = l) ∧
    (∀ kn ∈ [(0, Reg.dir), (3, Reg.gpinten)],
      let l := servedAround (2 * kn.1 + 1) (.env kn.2 0x01) (7 - 2 * kn.1) ++ []
      let s := accepted 0x87 l usable
      7 ≤ 7 ∧ [Reg.dir, .gppu, .ipol, .gpinten][kn.1]? = some kn.2 ∧ Accepted s ∧ s.ready = true ∧ s.owner = .free ∧
        s.cfg.regAddr.wf ∧ s.mem.wf ∧ s.inputs = l) := by decide

/-- The PS reads and acknowledges a flag while the command waits for the lock. -/
theorem witness_QuietMutationChangesOnlyItsBit :
    ∀ i ∈ [Instr.setOn 7, .setOff 7, .toggle 7, .cfgInIrq 7],
      let s := accepted (encode i)
        ([.psTurn, .csTurn, .complete .ps .ok, .csTurn, .psTurn, .psTurn, .complete .ps .ok, .csTurn, .psTurn] ++
          okTxns 10)
        (envWrite .intf 0x04 (polling .lock))
      Accepted s ∧ LockInv s ∧ s.cfg.regAddr.wf ∧ s.mem.wf ∧ Quiet s.inputs ∧ NoReset s.inputs ∧
        answers (fun t => t.cs = .idle && t.resp.code == 0) (exec i s) = true := by decide +kernel

theorem witness_ToggleTwiceRestoresThePort :
    let l := .submit 0x57 :: served 2 ++ .submit 0x57 :: served 2 ++ []
    let s := { usable with inputs := l }
    decode 0x57 = .ok (.toggle 7) ∧ 7 ≤ 7 ∧ s.cs = .idle ∧ LockInv s ∧ s.ready = true ∧ s.owner = .free ∧
      s.cfg.regAddr.wf ∧ s.mem.wf ∧ s.inputs = l := by decide

theorem witness_CfgInIrqConfiguresThePin :
    let s := accepted 0x87 (served 8) usable
    7 ≤ 7 ∧ Accepted s ∧ s.ready = true ∧ s.owner = .free ∧ s.cfg.regAddr.wf ∧ s.mem.wf ∧ s.inputs = served 8 ++ [] := by
  decide

theorem witness_CfgInIrqFailureReportsItsPosition :
    ∀ k ∈ [0, 1, 7], let s := accepted 0x87 (failedAt k true) usable
      7 ≤ 7 ∧ k < 8 ∧ Accepted s ∧ s.ready = true ∧ s.owner = .free ∧ s.cfg.regAddr.wf ∧ s.mem.wf ∧
        s.inputs = failedAt k true ++ [] := by decide

theorem witness_PollStartStartsTheLoop :
    let s := accepted 0x90 [.csTurn] usable
    Accepted s ∧ s.pollRun = false ∧ s.ready = true ∧ s.inputs = [.csTurn] := by decide

theorem witness_PollStopRaisesTheStopSignal :
    ∀ u ∈ [State.reset, polling .sleep], let s := accepted 0xA0 [.csTurn] u
      Accepted s ∧ s.inputs = [.csTurn] := by decide

theorem witness_PortWritersChangeOnlyThePort :
    ∀ i ∈ [Instr.setOn 7, .setOff 7, .toggle 7, .allOn, .allOff], let s := accepted (encode i) (served 2) usable
      Accepted s ∧ s.cfg.regAddr.wf ∧ OnlyCommand s.inputs ∧ answers (fun t => t.cs = .idle) (exec i s) = true := by
  decide

theorem witness_ReadChangesOnlyItsSnapshotEntry :
    let s := accepted 0x22 (served 1) (envWrite .port 0 usable)
    Accepted s ∧ s.cfg.regAddr.wf ∧ OnlyCommand s.inputs ∧ answers (fun t => t.snap == 0x01) (exec (.read 2) s) = true :=
  by decide

theorem witness_InitChangesOnlyItsThreeRegisters :
    let s := accepted 0x18 (served 11) usable
    Accepted s ∧ s.cfg.regAddr.wf ∧ OnlyCommand s.inputs ∧ answers (fun t => t.cs = .idle) (exec (.init 8) s) = true := by
  decide

theorem witness_CfgInIrqChangesOnlyItsFourRegisters :
    let s := accepted 0x87 (served 8) usable
    Accepted s ∧ s.cfg.regAddr.wf ∧ OnlyCommand s.inputs ∧
      answers (fun t => t.cs = .idle) (exec (.cfgInIrq 7) s) = true := by decide

/-- The states in which a transaction of the CS or of the PS is pending. -/
def pendingTxn (who : Sequencer) (x : Txn) : State := setPend who (some x) (envWrite .intf 0x10 usable)

theorem witness_CompletedWriteSetsItsRegister :
    ∀ who ∈ [Sequencer.cs, .ps], let s := pendingTxn who (.write 0x00 0xFF)
      s.cfg.regAddr.wf ∧ s.mem.wf ∧ s.pend who = some (.write (s.cfg.regAddr.addr .dir) 0xFF) := by decide

theorem witness_CompletedReadReturnsItsRegister :
    ∀ who ∈ [Sequencer.cs, .ps], ∀ n ∈ [Reg.dir, .intcap, .olat],
      let s := pendingTxn who (.read (RegMap.default.addr n))
      s.cfg.regAddr.wf ∧ s.mem.wf ∧ s.pend who = some (.read (s.cfg.regAddr.addr n)) := by decide

theorem witness_FailedTransactionMayTakeEffect :
    (let s := pendingTxn .cs (.write 0x09 0x12)
     s.cfg.regAddr.wf ∧ s.mem.wf ∧ s.pend .cs = some (.write (s.cfg.regAddr.addr .port) 0x12)) ∧
    (let s := pendingTxn .ps (.read 0x08)
     s.cfg.regAddr.wf ∧ s.mem.wf ∧ s.pend .ps = some (.read (s.cfg.regAddr.addr .intcap))) := by decide

theorem witness_EnvironmentSetsAnyRegister : usable.cfg.regAddr.wf ∧ usable.mem.wf := by decide

theorem witness_HungTransactionStallsTheCommand :
    let s := { accepted 0x31 [.csTurn, .psTurn, .env .port 1] (polling .lock) with
      phase := .body, owner := .cs, pendCs := some (.read 0x09) }
    s.cs = .busy ∧ s.pendCs = some (.read 0x09) ∧ s.owner = .cs ∧ NoReset s.inputs ∧
      (∀ e ∈ s.inputs, e.completesCs = false) ∧ answers (fun _ => true) (exec (.setOn 1) s) = true := by decide

theorem witness_HungPollReadStallsTheLoop :
    (let s := { submitting 0x31 [.csTurn, .csTurn, .psTurn] (polling .flags) with
      owner := .ps, pendPs := some (.read 0x07), stopReq := true }
     LockInv s ∧ s.ps = .flags ∧ NoReset s.inputs ∧ (∀ e ∈ s.inputs, e.completesPs = false) ∧ s.stopReq = true ∧
       answers (fun t => t.cs = .busy) (step s) = true) ∧
    (let s := { accepted 0x31 [.csTurn, .complete .cs .ok] (polling .ack) with
      phase := .acquire, owner := .ps, pendPs := some (.read 0x08) }
     LockInv s ∧ s.ps = .ack ∧ NoReset s.inputs ∧ (∀ e ∈ s.inputs, e.completesPs = false) ∧ s.cs = .busy ∧
       s.phase = .acquire ∧ answers (fun t => t.cs = .busy) (step s) = true) ∧
    (let s := { accepted 0x31 [.csTurn, .csTurn] (polling .ack) with owner := .ps, pendPs := some (.read 0x08) }
     LockInv s ∧ s.ps = .ack ∧ NoReset s.inputs ∧ (∀ e ∈ s.inputs, e.completesPs = false) ∧ s.cs = .busy ∧
       s.phase = .start ∧ hasTransactions s.cmd = true ∧ answers (fun t => t.cs = .busy) (step s) = true) :=
  ⟨by decide, by decide, by decide⟩

theorem witness_HeadChecksTheStopSignal :
    (let s := { polling .head with stopReq := true }
     s.ps = .head ∧ s.stopReq = true ∧ LockInv s) ∧
    ((polling .head).ps = .head ∧ (polling .head).stopReq = false ∧ LockInv (polling .head)) := by decide

theorem witness_LockReadsTheFlagsAndSleepEnds :
    (let s := { polling .lock with owner := .cs }
     s.ps = .lock ∧ s.owner ≠ .free) ∧
    ((polling .lock).ps = .lock ∧ (polling .lock).owner = .free ∧ (polling .lock).pendPs = none) ∧
    ((polling .sleep).ps = .sleep ∧ LockInv (polling .sleep)) := by decide

theorem witness_FlagByteDecidesTheIteration :
    ∀ f ∈ [(0x00 : Byte), 0x01, 0xFF],
      let s := { envWrite .intf f (polling .flags) with owner := .ps, pendPs := some (.read 0x07) }
      s.ps = .flags ∧ s.owner = .ps ∧ s.pendPs = some (.read (s.cfg.regAddr.addr .intf)) ∧ s.cfg.regAddr.wf ∧
        s.target .intf = f := by decide

theorem witness_DecoderFollowsItsPolicy : (0x01 : Byte) ≠ 0 ∧ (0xFF : Byte) ≠ 0 := by decide

/-- The PS at EMIT with `l` to deliver, the queue as given and its depth 1. -/
def emitting (l q : List PinIndex) : State :=
  { polling .emit with
    owner := .ps, pollState := .fired, f := 0x08, emitList := l, irqQ := q,
    cfg := { Params.default with irqDepth := some 1 } }

theorem witness_EmitDeliversThenAcknowledges :
    ((emitting [3] []).ps = .emit ∧ (emitting [3] []).emitList = 3 :: [] ∧
      ∀ d ∈ (emitting [3] []).cfg.irqDepth, (emitting [3] []).irqQ.length < d) ∧
    ((emitting [3] [2]).ps = .emit ∧ (emitting [3] [2]).emitList = 3 :: [] ∧
      (emitting [3] [2]).cfg.irqDepth = some 1 ∧ 1 ≤ (emitting [3] [2]).irqQ.length) ∧
    ((emitting [] []).ps = .emit ∧ (emitting [] []).emitList = [] ∧ (emitting [] []).owner = .ps ∧
      (emitting [] []).pendPs = none) := by decide

theorem witness_AcknowledgeReturnsToHead :
    let s := { polling .ack with owner := .ps, pollState := .fired, pendPs := some (.read 0x08) }
    s.ps = .ack ∧ s.owner = .ps ∧ s.pendPs = some (.read (s.cfg.regAddr.addr .intcap)) ∧ s.cfg.regAddr.wf := by decide

theorem witness_BusFailureStopsTheLoop :
    (let s := { polling .flags with owner := .ps, pendPs := some (.read 0x07) }
     s.cfg.regAddr.wf ∧ s.ps = .flags ∧ s.pendPs = some (.read (s.cfg.regAddr.addr .intf)) ∧ s.owner = .ps) ∧
    (let s := { polling .ack with owner := .ps, pendPs := some (.read 0x08) }
     s.cfg.regAddr.wf ∧ s.ps = .ack ∧ s.pendPs = some (.read (s.cfg.regAddr.addr .intcap)) ∧ s.owner = .ps) := by decide

theorem witness_PollIterationDeliversTheDecodedPins :
    ∀ q ∈ [(DecodePolicy.lowestFirst, 1), (.allAscending, 8)],
      let l := [.psTurn, .psTurn, .complete .ps .ok] ++ List.replicate (q.2 + 1) .psTurn ++ [.complete .ps .ok] ++ []
      let s := { envWrite .intf 0xFF (polling .head) with
        cfg := { Params.default with decodePolicy := q.1 }, inputs := l }
      s.cs = .idle ∧ s.ps = .head ∧ s.stopReq = false ∧ LockInv s ∧ s.owner = .free ∧ s.cfg.regAddr.wf ∧ s.mem.wf ∧
        s.cfg.irqDepth = none ∧ s.target .intf ≠ 0 ∧
        (decodeFlags s.cfg.decodePolicy (s.target .intf)).length = q.2 ∧ s.inputs = l := by decide

theorem witness_FullQueueHoldsTheBus :
    let s := { accepted 0x31 [.psTurn, .csTurn, .complete .cs .ok, .complete .ps .ok] (emitting [3] [2]) with
      phase := .acquire }
    s.cs = .busy ∧ decode s.cmd = .ok (.setOn 1) ∧ s.phase = .acquire ∧ LockInv s ∧ s.ps = .emit ∧ s.emitList ≠ [] ∧
      s.cfg.irqDepth = some 1 ∧ 1 ≤ s.irqQ.length ∧ NoReset s.inputs ∧ (∀ e ∈ s.inputs, e ≠ .pop) ∧
      answers (fun _ => true) (exec (.setOn 1) s) = true := by decide

theorem witness_IrqPopTakesTheHead :
    ({ usable with irqQ := [2, 5] } : State).irqQ = 2 :: [5] ∧ usable.irqQ = [] := by decide

theorem witness_ControllerResetSetsEveryElement :
    (PendMapped usable ∧ usable.pendCs = none ∧ usable.pendPs = none) ∧
    (let s := pendingTxn .cs (.write 0x09 0x12)
     PendMapped s ∧ s.pendCs = some (.write (s.cfg.regAddr.addr .port) 0x12) ∧ s.pendPs = none) ∧
    (let s := pendingTxn .cs (.read 0x09)
     PendMapped s ∧ s.cfg.regAddr.wf ∧ s.pendCs = some (.read (s.cfg.regAddr.addr .port)) ∧ s.pendPs = none) ∧
    (let s := pendingTxn .ps (.read 0x07)
     PendMapped s ∧ s.cfg.regAddr.wf ∧ s.pendCs = none ∧ s.pendPs = some (.read (s.cfg.regAddr.addr .intf))) ∧
    (let s := pendingTxn .ps (.read 0x08)
     PendMapped s ∧ s.cfg.regAddr.wf ∧ s.pendCs = none ∧ s.pendPs = some (.read (s.cfg.regAddr.addr .intcap))) := by
  decide

/-- A state from which a step runs a whole command while the PS waits for the lock. -/
def running : State := submitting 0x18 (.psTurn :: served 11) (polling .head)

theorem witness_StepKeepsTheLockDiscipline :
    LockInv running ∧ answers (fun t => t.cs = .idle) (step running) = true := by decide

theorem witness_StepKeepsThePollFlags :
    PollInv running ∧ answers (fun t => t.cs = .idle) (step running) = true := by decide

theorem witness_StepKeepsTheHandle :
    let s := submitting 0x18 (served 11) usable
    HandleInv s ∧ SnapBuild s ∧ answers (fun t => t.snapLen == 8) (step s) = true := by decide

/-- The clauses about a snapshot being built: two of three pins read, the third read pending. -/
theorem witness_StepKeepsTheHandle_building :
    let s := { accepted 0x13 [.complete .cs .ok, .csTurn, .csTurn] State.reset with
      phase := .body, owner := .cs, tx := 5, i := 2, acc := 0x03, pendCs := some (.read 0x09) }
    HandleInv s ∧ SnapBuild s ∧ answers (fun t => t.snapLen == 3) (step s) = true := by decide

theorem witness_StepKeepsTheRegisterFile :
    let s := submitting 0x87 (served 8) usable
    MemInv s ∧ answers (fun t => t.target .gpinten == 0x80) (step s) = true := by decide

theorem witness_StepKeepsTheQueue :
    let s := { emitting [3] [] with inputs := [.psTurn] }
    QueueInv s ∧ EmitInv s ∧ answers (fun t => t.irqQ == [3]) (step s) = true := by decide

theorem witness_StepIssuesOnlyItsTransactions :
    let s := submitting 0x37 (issuing 1) usable
    PendIssuable s ∧ answers (fun t => t.pendCs == some (.write 0x09 0x80)) (step s) = true := by decide

/-- What is no transaction of the controller: R50, R51, R52, R57 (reads) and R64 (writes). -/
theorem test_not_issuable :
    ([Reg.defval, .intcon, .iocon, .olat].all fun n => !issuable RegMap.default (.read (RegMap.default.addr n))) = true ∧
      ([Reg.intf, .intcap, .defval, .iocon, .olat].all
        fun n => !issuable RegMap.default (.write (RegMap.default.addr n) 0)) = true := by decide

theorem witness_EveryStepAnswersANextState : PendMapped running ∧ PendMapped (pendingTxn .cs (.write 0x09 0x12)) := by
  decide

theorem witness_UntouchedRegistersChangeOnlyByTheEnvironment :
    ∀ n ∈ [Reg.defval, .iocon, .intcap, .olat],
      let s := submitting 0x87 (served 8) (envWrite n 0x5A usable)
      s.cfg.regAddr.wf ∧ MemInv s ∧ PendIssuable s ∧ Quiet s.inputs ∧
        answers (fun t => t.target n == 0x5A) (step s) = true := by decide

theorem witness_OnlyTheirCommandsSetTheFlags :
    (let s := submitting 0x13 (served 6) State.reset
     s.ready = false ∧ answers (fun t => t.ready) (step s) = true) ∧
    (let s := submitting 0x90 [.csTurn] usable
     s.pollRun = false ∧ answers (fun t => t.pollRun) (step s) = true) ∧
    (let s := submitting 0xA0 [.csTurn] (polling .sleep)
     s.stopReq = false ∧ answers (fun t => t.stopReq) (step s) = true) := by decide

theorem witness_ServedCommandEnds :
    (let l := (List.replicate 30 [Event.csTurn, .complete .cs .ok]).flatten ++ []
     let s := accepted 0x18 l usable
     s.cs = .busy ∧ LockInv s ∧ PendMapped s ∧ s.owner ≠ .ps ∧ s.inputs = l) := by decide

/-! The witness of the endless run: CS, BA, PS and BA in turn. -/

/-- The schedule. -/
def round (k : Nat) : Event :=
  match k % 4 with
  | 0 => .csTurn
  | 1 => .complete .cs .ok
  | 2 => .psTurn
  | _ => .complete .ps .ok

/-- ALL_OFF has been accepted. -/
def start : State := accepted 0x70 [] usable

theorem round_cases (k : Nat) :
    round k = .csTurn ∨ round k = .complete .cs .ok ∨ round k = .psTurn ∨ round k = .complete .ps .ok := by
  simp only [round]
  split <;> simp

/-- ALL_OFF ends within twenty events. -/
theorem trace_ended : (trace round start 20).cs = .idle := by decide

theorem answers_eq (r : Result) (u : State) (h : answers (fun t => decide (t = u)) r = true) : r = .next u := by
  cases r <;> simp [answers] at h
  rw [h]

/-- From then on nothing changes. -/
theorem trace_after (k : Nat) : trace round start (20 + k) = trace round start 20 := by
  have fixed : ∀ e ∈ [Event.csTurn, .complete .cs .ok, .psTurn, .complete .ps .ok],
      answers (fun t => decide (t = trace round start 20)) (microStep e (trace round start 20)) = true := by
    decide +kernel
  induction k with
  | zero => rfl
  | succ k ih =>
    have hm : microStep (round (20 + k)) (trace round start 20) = .next (trace round start 20) :=
      answers_eq _ _ (fixed _ (by rcases round_cases (20 + k) with h | h | h | h <;> simp [h]))
    show (match microStep (round (20 + k)) (trace round start (20 + k)) with
      | .next t => t
      | _ => trace round start (20 + k)) = _
    rw [ih, hm]

theorem round_recurs (k r : Nat) (hr : r < 4) : ∃ j, k ≤ j ∧ round j = round r := by
  refine ⟨4 * k + r, by omega, ?_⟩
  simp only [round]
  rw [Nat.mul_add_mod, Nat.mod_eq_of_lt hr]

theorem witness_FairCommandEnds :
    Accepted start ∧ LockInv start ∧ PendMapped start ∧ start.cfg.irqDepth = none ∧
      (∀ k, (round k).isReset = false) ∧ BusLive round start ∧ TurnsRecur round ∧ LockFair round start := by
  refine ⟨by decide, by decide, by decide, by decide, ?_, ?_, ?_, ?_⟩
  · intro k
    rcases round_cases k with h | h | h | h <;> simp [h, Event.isReset]
  · intro who k _
    cases who
    · obtain ⟨j, hj, h⟩ := round_recurs k 1 (by decide)
      exact ⟨j, hj, .ok, h⟩
    · obtain ⟨j, hj, h⟩ := round_recurs k 3 (by decide)
      exact ⟨j, hj, .ok, h⟩
  · intro k
    exact ⟨round_recurs k 0 (by decide), round_recurs k 2 (by decide)⟩
  · intro who hinf
    obtain ⟨j, hj, he⟩ := hinf 20
    obtain ⟨i, rfl⟩ := Nat.exists_eq_add_of_le hj
    rw [trace_after] at he
    exfalso
    revert he
    cases who <;> decide +kernel

/-! A second witness, with the poll loop running: the PS holds the lock when ALL_OFF is accepted, so the command waits, and
goes on polling a zero flag byte after the command has ended. -/

/-- ALL_OFF has been accepted while the PS waits for its flag byte. -/
def startPolling : State :=
  accepted 0x70 [] { polling .flags with owner := .ps, pendPs := some (.read 0x07) }

/-- After twenty events the run repeats every twelve. -/
theorem trace_repeats (k : Nat) :
    trace round startPolling (20 + (k + 12)) = trace round startPolling (20 + k) := by
  induction k with
  | zero =>
    exact of_decide_eq_true (by decide +kernel)
  | succ k ih =>
    have hr : round (20 + (k + 12)) = round (20 + k) := by
      simp only [round]
      rw [show 20 + (k + 12) = 20 + k + 4 * 3 by omega, Nat.add_mul_mod_self_left]
    show (match microStep (round (20 + (k + 12))) (trace round startPolling (20 + (k + 12))) with
      | .next t => t
      | _ => trace round startPolling (20 + (k + 12))) =
      match microStep (round (20 + k)) (trace round startPolling (20 + k)) with
      | .next t => t
      | _ => trace round startPolling (20 + k)
    rw [hr, ih]

theorem trace_mod (q r : Nat) : trace round startPolling (20 + (12 * q + r)) = trace round startPolling (20 + r) := by
  induction q with
  | zero => simp
  | succ q ih =>
    rw [show 12 * (q + 1) + r = 12 * q + r + 12 by omega, trace_repeats, ih]

/-- The PS takes the lock at the third event of one of those rounds. -/
theorem lock_recurs :
    acquireEnabled .ps (trace round startPolling (20 + 2)) ∨ acquireEnabled .ps (trace round startPolling (20 + 6)) ∨
      acquireEnabled .ps (trace round startPolling (20 + 10)) := by decide +kernel

/-- The command ended before. -/
theorem command_ended : ∀ r < 12, (trace round startPolling (20 + r)).cs = .idle := by decide +kernel

theorem witness_FairCommandEnds_polling :
    Accepted startPolling ∧ LockInv startPolling ∧ startPolling.pollRun = true ∧ startPolling.owner = .ps ∧
      PendMapped startPolling ∧ startPolling.cfg.irqDepth = none ∧ (∀ k, (round k).isReset = false) ∧
      BusLive round startPolling ∧ TurnsRecur round ∧ LockFair round startPolling := by
  refine ⟨by decide, by decide, by decide, by decide, by decide, by decide, ?_, ?_, ?_, ?_⟩
  · intro k
    rcases round_cases k with h | h | h | h <;> simp [h, Event.isReset]
  · intro who k _
    cases who
    · obtain ⟨j, hj, h⟩ := round_recurs k 1 (by decide)
      exact ⟨j, hj, .ok, h⟩
    · obtain ⟨j, hj, h⟩ := round_recurs k 3 (by decide)
      exact ⟨j, hj, .ok, h⟩
  · intro k
    exact ⟨round_recurs k 0 (by decide), round_recurs k 2 (by decide)⟩
  · intro who hinf k
    cases who with
    | cs =>
      obtain ⟨j, hj, he⟩ := hinf 20
      obtain ⟨i, rfl⟩ := Nat.exists_eq_add_of_le hj
      have hi : (trace round startPolling (20 + i)).cs = .idle := by
        rw [← Nat.div_add_mod i 12, trace_mod]
        exact command_ended _ (Nat.mod_lt _ (by decide))
      have hb := he.2.1
      rw [hi] at hb
      cases hb
    | ps =>
      have ready : ∀ r, r % 4 = 2 → acquireEnabled .ps (trace round startPolling (20 + r)) →
          ∃ j, k ≤ j ∧ acquireEnabled .ps (trace round startPolling j) ∧ round j = turnEvent .ps := by
        intro r hr he
        refine ⟨20 + (12 * k + r), by omega, by rw [trace_mod]; exact he, ?_⟩
        simp only [round]
        rw [show (20 + (12 * k + r)) % 4 = 2 by omega]
        rfl
      rcases lock_recurs with h | h | h
      · exact ready 2 (by decide) h
      · exact ready 6 (by decide) h
      · exact ready 10 (by decide) h

end Sys2Proof.Tests
end

section
/-! Proofs of 00_scope.md: the steps of the other agents among the steps of a running command (R7, R12). -/

namespace Sys2Proof.Machine

/-! Whether a command runs, and the schedule, are left alone by every other agent's step but a reset. -/

@[simp] theorem issue_cs (who : Sequencer) (x : Txn) (s : State) : (issue who x s).cs = s.cs := by
  rcases issue_cases who x s with h | ⟨_, _, h⟩ <;> rw [h]
  cases who <;> rfl

@[simp] theorem issue_inputs (who : Sequencer) (x : Txn) (s : State) : (issue who x s).inputs = s.inputs := by
  rcases issue_cases who x s with h | ⟨_, _, h⟩ <;> rw [h]
  cases who <;> rfl

theorem irqPop_frame (s : State) : (irqPop s).cs = s.cs ∧ (irqPop s).inputs = s.inputs := by
  simp only [irqPop]
  split <;> exact ⟨rfl, rfl⟩

theorem PsLeaves.frame {s u : State} (h : PsLeaves s u) : u.cs = s.cs ∧ u.inputs = s.inputs := by
  cases h <;> simp

theorem PsBack.frame {r : BusReturn} {s u : State} (h : PsBack r s u) : u.cs = s.cs ∧ u.inputs = s.inputs := by
  cases h <;> simp [psAck, psFail]

/-- A step of the PS, of BA for the PS, of TE or of H other than a reset. -/
theorem agentStep_frame {turn : State → State} {back : BusReturn → State → State} {e : Event} {s t : State}
    (he : e.ofCommand = false) (hr : e.isReset = false) (h : agentStep turn back e s = .next t) :
    t.cs = s.cs ∧ t.inputs = s.inputs := by
  cases e with
  | submit w => injection h with h; subst h; exact ⟨rfl, rfl⟩
  | pop => injection h with h; subst h; exact irqPop_frame s
  | reset d => cases hr
  | csTurn => cases he
  | psTurn => injection h with h; subst h; exact (psTurn_leaves s).frame
  | complete who o =>
    cases who with
    | cs => cases he
    | ps =>
      rcases completeTxn_cases .ps psReturn o s t h with ⟨_, rfl⟩ | ⟨x, m, r, _, _, rfl⟩
      · exact ⟨rfl, rfl⟩
      · exact (psReturn_leaves r (setPend .ps none (setMem m s))).frame
  | env n b => injection h with h; subst h; exact ⟨rfl, rfl⟩

theorem agentStep_reset_idle {turn : State → State} {back : BusReturn → State → State} {e : Event} {s t : State}
    (hr : e.isReset = true) (h : agentStep turn back e s = .next t) : t.cs = .idle := by
  cases e with
  | reset d => exact hostReset_idle d s t h
  | _ => cases hr

/-- The parts of a command play no role in another agent's step. -/
theorem agentStep_parts_irrelevant (turn turn' : State → State) (back back' : BusReturn → State → State) (e : Event)
    (s : State) (he : e.ofCommand = false) : agentStep turn back e s = agentStep turn' back' e s := by
  cases e with
  | csTurn => cases he
  | complete who o =>
    cases who with
    | cs => cases he
    | ps => rfl
  | _ => rfl

/-! The run of a command whose next event is another agent's. -/

theorem exec_busy (i : Instr) (s : State) (h : s.cs = .busy) :
    exec i s = drive (turnPart i) (backPart i) s.inputs s := by
  rw [exec_eq, runCommand_busy _ _ _ h]

theorem exec_after_other_agent (i : Instr) (s t : State) (e : Event) (es : List Event) (hb : s.cs = .busy)
    (hin : s.inputs = e :: es) (he : e.ofCommand = false)
    (ht : agentStep id noReturn e (setInputs es s) = .next t) :
    exec i s = if e.isReset then .next t else exec i t := by
  have hstep : agentStep (turnPart i) (backPart i) e (setInputs es s) = .next t :=
    (agentStep_parts_irrelevant _ id _ noReturn e _ he).trans ht
  rw [exec_busy i s hb, hin, drive_cons _ _ e es s t hstep]
  cases hr : e.isReset with
  | true => simp [agentStep_reset_idle hr ht]
  | false =>
    obtain ⟨hcs, hinputs⟩ := agentStep_frame he hr ht
    have htb : t.cs = .busy := hcs.trans hb
    have hti : t.inputs = es := hinputs
    simp [exec_busy i t htb, htb, hti]

/-- Settles O6: the other agents' steps do not depend on the command and, but for a reset, leave it running on the rest of
the schedule; a submit while BUSY is the one of them that changes nothing at all (R79). -/
theorem otherAgentsInterleaveWithACommand : Obligations.OtherAgentsInterleaveWithACommand := by
  unfold Obligations.OtherAgentsInterleaveWithACommand
  intro i s e es hb hin he
  refine ⟨fun t ht => exec_after_other_agent i s t e es hb hin he ht, ?_⟩
  rintro w rfl
  exact exec_after_other_agent i s (setInputs es s) (.submit w) es hb hin he rfl

end Sys2Proof.Machine
end

section
/-! Proofs of 10_state.md: what every step keeps of the lock, the handle, the poll flags and the interrupt queue, which
commands set a flag, the host's views of the state, and its reset values. -/

namespace Sys2Proof.Machine

/-! What the steps of the two sequencers leave alone: the CS the poll loop's state but for POLL_START and POLL_STOP, the
PS the handle and the running command. -/

/-- The running command, its scratch as INIT uses it, its transaction and the parameters are the same (R20, R21, R24). -/
abbrev SameCommand (s t : State) : Prop :=
  t.cs = s.cs ∧ t.cmd = s.cmd ∧ t.tx = s.tx ∧ t.i = s.i ∧ t.acc = s.acc ∧ t.phase = s.phase ∧ t.pendCs = s.pendCs ∧
    t.cfg = s.cfg

theorem issue_cs_frame (x : Txn) (s : State) : SamePoll s (issue .cs x s) ∧ SameHandle s (issue .cs x s) := by
  rcases issue_cases .cs x s with h | ⟨_, _, h⟩ <;> simp [h, SamePoll, SameHandle]

theorem issue_ps_frame (x : Txn) (s : State) : SameHandle s (issue .ps x s) ∧ SameCommand s (issue .ps x s) := by
  rcases issue_cases .ps x s with h | ⟨_, _, h⟩ <;> simp [h, SameHandle, SameCommand]

theorem issue_owner (who : Sequencer) (x : Txn) (s : State) : (issue who x s).owner = s.owner := by
  rcases issue_cases who x s with h | ⟨_, _, h⟩ <;> rw [h]
  cases who <;> rfl

theorem finishPart_samePoll (i : Instr) (s : State) : SamePoll s (finishPart i s) := by
  cases i with
  | init n =>
    simp only [finishPart, initFinish]
    split <;> simp [SamePoll]
  | _ => simp [finishPart, finishOk, readFinish, SamePoll]

/-- Only POLL_START and POLL_STOP touch the poll loop's state. -/
theorem TurnLeaves.samePoll_or {i : Instr} {s u : State} (h : TurnLeaves i s u) :
    SamePoll s u ∨ (i = .pollStart ∧ s.pollRun = false ∧ u = pollStarted s) ∨ (i = .pollStop ∧ u = pollStopTurn s) := by
  cases h with
  | started hi hr _ => exact .inr (.inl ⟨hi, hr, rfl⟩)
  | stop hi => exact .inr (.inr ⟨hi, rfl⟩)
  | issue x _ _ => exact .inl (issue_cs_frame x s).1
  | finish _ => exact .inl (finishPart_samePoll i s)
  | _ => exact .inl (by simp [SamePoll])

/-- A returned outcome ends the command with an error, INIT's handle discarded with it, or changes scratch only. -/
theorem backLeaves_cases {i : Instr} {r : BusReturn} {s u : State} (h : BackLeaves i r s u) :
    (∃ e n, u = raise e n s) ∨ u = raise .busFail s.tx (discardHandle s) ∨
      ∃ tx v k a, u = { s with tx := tx, v := v, i := k, acc := a } := by
  cases h with
  | fail e n => exact .inl ⟨e, n, rfl⟩
  | discard => exact .inr (.inl rfl)
  | count => exact .inr (.inr ⟨_, _, _, _, rfl⟩)
  | snapshot n _ _ =>
    obtain ⟨a, k, hu⟩ := initOk_eq n r s
    exact .inr (.inr ⟨_, _, k, a, hu⟩)
  | none => exact .inr (.inr ⟨s.tx, s.v, s.i, s.acc, rfl⟩)

theorem BackLeaves.samePoll {i : Instr} {r : BusReturn} {s u : State} (h : BackLeaves i r s u) : SamePoll s u := by
  rcases backLeaves_cases h with ⟨e, n, rfl⟩ | rfl | ⟨tx, v, k, a, rfl⟩ <;> simp [SamePoll]

theorem PsLeaves.sameCommand {s u : State} (h : PsLeaves s u) : SameHandle s u ∧ SameCommand s u := by
  cases h with
  | lock _ _ => exact issue_ps_frame _ (takeLock .ps s)
  | _ => simp [SameHandle, SameCommand]

theorem PsBack.sameCommand {r : BusReturn} {s u : State} (h : PsBack r s u) : SameHandle s u ∧ SameCommand s u := by
  cases h <;> simp [psAck, psFail, SameHandle, SameCommand]

theorem irqPop_sameCommand (s : State) : SameHandle s (irqPop s) ∧ SameCommand s (irqPop s) := by
  simp only [irqPop]
  split <;> simp [SameHandle, SameCommand]

/-! The lock discipline (R24, R74), the CS's half and the PS's half. -/

/-- The CS's half of `LockInv`. -/
abbrev CsLock (s : State) : Prop :=
  (s.owner = .cs ↔ s.cs = .busy ∧ s.phase = .body) ∧
  (s.pendCs ≠ none → s.owner = .cs) ∧
  (s.cs = .busy → s.phase ≠ .start → hasTransactions s.cmd = true)

/-- The PS's half of `LockInv`. -/
abbrev PsLock (s : State) : Prop :=
  (s.owner = .ps ↔ s.ps = .flags ∨ s.ps = .emit ∨ s.ps = .ack) ∧
  s.pendPs = psPending s ∧
  (s.pollRun = true ↔ s.ps ≠ .off)

theorem lockInv_iff (s : State) : LockInv s ↔ CsLock s ∧ PsLock s := by
  simp only [LockInv, CsLock, PsLock, and_assoc]

theorem CsLock.congr {s t : State} (hc : SameCommand s t) (ho : t.owner = .cs ↔ s.owner = .cs) (h : CsLock s) :
    CsLock t := by
  obtain ⟨hcs, hcmd, -, -, -, hphase, hpend, -⟩ := hc
  simpa only [CsLock, ho, hcs, hcmd, hphase, hpend] using h

theorem PsLock.congr {s t : State} (hp : SamePoll s t) (ho : t.owner = .ps ↔ s.owner = .ps) (h : PsLock s) :
    PsLock t := by
  obtain ⟨hps, -, -, hpend, hrun, -, -, -, -, -, hcfg⟩ := hp
  simpa only [PsLock, psPending, ho, hps, hpend, hrun, hcfg] using h

/-- Once no command runs the CS has neither the lock nor a transaction. -/
theorem CsLock.of_idle {t : State} (hi : t.cs = .idle) (ho : t.owner ≠ .cs) (hp : t.pendCs = none) : CsLock t := by
  simp [CsLock, hi, ho, hp]

theorem raise_owner_ne_cs (e : ErrCode) (n : Byte) (s : State) : (raise e n s).owner ≠ .cs := by
  simp only [raise_owner]
  split
  · simp
  · assumption

theorem raise_owner_ps (e : ErrCode) (n : Byte) (s : State) : (raise e n s).owner = .ps ↔ s.owner = .ps := by
  cases ho : s.owner <;> simp [ho]

theorem CsLock.raise {s : State} (hp : s.pendCs = none) (e : ErrCode) (n : Byte) : CsLock (raise e n s) :=
  .of_idle rfl (raise_owner_ne_cs e n s) hp

theorem finishPart_idle (i : Instr) (s : State) :
    (finishPart i s).cs = .idle ∧ (finishPart i s).owner = s.owner ∧ (finishPart i s).pendCs = s.pendCs := by
  cases i with
  | init n =>
    simp only [finishPart, initFinish]
    split <;> simp
  | _ => simp [finishPart, finishOk, readFinish]

theorem hasTransactions_iff {w : Byte} {i : Instr} (h : decode w = .ok i) :
    hasTransactions w = true ↔ i ≠ .pollStart ∧ i ≠ .pollStop := by
  cases i <;> simp [hasTransactions, h]

/-- Before POLL_START or POLL_STOP has ended the CS is in its first phase, and does not hold the lock. -/
theorem CsLock.owner_ne_cs_of_no_transactions {s : State} (h : CsLock s) (hn : hasTransactions s.cmd = false) :
    s.owner ≠ .cs := by
  intro ho
  obtain ⟨hown, -, htx⟩ := h
  obtain ⟨hb, hp⟩ := hown.1 ho
  simpa [hn] using htx hb (by simp [hp])

/-- Whatever the CS does with the lock, the PS's hold on it stays as it is. -/
theorem TurnLeaves.owner_ps {i : Instr} {s u : State} (h : TurnLeaves i s u) : u.owner = .ps ↔ s.owner = .ps := by
  cases h with
  | refuse e n | startRefused e n => exact raise_owner_ps e n s
  | lock _ ho => simp [ho, Sequencer.owner]
  | issue x _ _ => rw [issue_owner]
  | unlock _ => cases ho : s.owner <;> simp [ho, Sequencer.owner]
  | finish _ => rw [(finishPart_idle i s).2.1]
  | _ => simp [pollStarted, pollStopTurn]

theorem BackLeaves.owner_ps {i : Instr} {r : BusReturn} {s u : State} (h : BackLeaves i r s u) :
    u.owner = .ps ↔ s.owner = .ps := by
  rcases backLeaves_cases h with ⟨e, n, rfl⟩ | rfl | ⟨tx, v, k, a, rfl⟩
  · exact raise_owner_ps e n s
  · exact raise_owner_ps _ _ (discardHandle s)
  · exact Iff.rfl

theorem TurnLeaves.csLock {i : Instr} {s u : State} (h : TurnLeaves i s u) (hb : s.cs = .busy)
    (hd : decode s.cmd = .ok i) (hn : s.pendCs = none) (hs : CsLock s) : CsLock u := by
  have htx := hasTransactions_iff hd
  have hfree : i = .pollStart ∨ i = .pollStop → s.owner ≠ .cs := fun hi =>
    hs.owner_ne_cs_of_no_transactions (by rw [Bool.eq_false_iff, Ne, htx]; tauto)
  obtain ⟨hown, hpend, hcmd⟩ := hs
  cases h with
  | refuse e n | startRefused e n => exact .raise hn e n
  | check hp hi => simp [CsLock, hown, hn, hp, htx.2 hi]
  | discard n hi hp _ => simp [CsLock, hown, hn, hp, htx.2 (by simp [hi])]
  | wait => exact ⟨hown, hpend, hcmd⟩
  | lock hp ho => simp [CsLock, Sequencer.owner, hb, hn, hcmd hb (by simp [hp])]
  | issue x hp _ =>
    rcases issue_cases .cs x s with hu | ⟨ho, _, hu⟩ <;> rw [hu]
    · exact ⟨hown, hpend, hcmd⟩
    · exact ⟨hown, fun _ => ho, hcmd⟩
  | unlock hp => simp [CsLock, Sequencer.owner, hn, hown.2 ⟨hb, hp⟩, hcmd hb (by simp [hp])]
  | finish hp =>
    obtain ⟨hi, ho, hpu⟩ := finishPart_idle i s
    exact .of_idle hi (by rw [ho, Ne, hown]; simp [hp]) (hpu.trans hn)
  | started hi => exact .of_idle rfl (hfree (.inl hi)) hn
  | stop hi => exact .of_idle rfl (hfree (.inr hi)) hn

theorem csLock_of_backLeaves {i : Instr} {r : BusReturn} {s u : State} (h : BackLeaves i r s u) (hn : s.pendCs = none)
    (hs : CsLock s) : CsLock u := by
  rcases backLeaves_cases h with ⟨e, n, rfl⟩ | rfl | ⟨tx, v, k, a, rfl⟩
  · exact .raise hn e n
  · exact .raise (s := discardHandle s) hn _ _
  · exact hs

/-- Whatever the PS does with the lock, the CS's hold on it stays as it is. -/
theorem PsLeaves.owner_cs {s u : State} (h : PsLeaves s u) : u.owner = .cs ↔ s.owner = .cs := by
  cases h with
  | lock _ ho => simp [issue_owner, ho, Sequencer.owner]
  | _ => simp

theorem release_ps_owner_cs (s : State) : (release .ps s).owner = .cs ↔ s.owner = .cs := by
  cases ho : s.owner <;> simp [ho, Sequencer.owner]

theorem PsBack.owner_cs {r : BusReturn} {s u : State} (h : PsBack r s u) : u.owner = .cs ↔ s.owner = .cs := by
  cases h with
  | zero | acked | failed => exact release_ps_owner_cs s
  | _ => exact Iff.rfl

theorem PsLeaves.psLock {s u : State} (h : PsLeaves s u) (hs : PsLock s) : PsLock u := by
  obtain ⟨hown, hpend, hrun⟩ := hs
  cases h with
  | stay => exact ⟨hown, hpend, hrun⟩
  | stopped hp _ | goOn hp _ | wake hp => simp [PsLock, psPending, hown, hpend, hrun, hp]
  | lock hp ho =>
    have hn : s.pendPs = none := by simp [hpend, psPending, hp]
    have hi : canIssue .ps (takeLock .ps s) = true := by simp [canIssue, State.pend, hn]
    simp [PsLock, psPending, issue, hi, Sequencer.owner, hrun, hp]
  | deliver p rest hp _ _ => exact ⟨hown, hpend, hrun⟩
  | capture hp _ ho _ => simp [PsLock, psPending, ho, hrun, hp]

theorem psPending_eq_some {s : State} {x : Txn} (h : psPending s = some x) :
    (s.ps = .flags ∨ s.ps = .ack) ∧ ∃ a, x = .read a := by
  cases hp : s.ps <;> simp [psPending, hp] at h <;> simp [← h]

/-- A read never returns OK without a byte. -/
theorem busRun_read_ne_wrote {rm : RegMap} {m m' : Memory} {a : Byte} {o : BusOutcome} {r : BusReturn}
    (h : busRun rm m (.read a) o = some (m', r)) : r ≠ .wrote := by
  rintro rfl
  simpa using busRun_return rm m m' _ o _ h

theorem psLock_of_psBack {s u : State} {x : Txn} {m : Memory} {r : BusReturn} {o : BusOutcome} (hs : PsLock s)
    (hx : s.pendPs = some x) (hr : busRun s.cfg.regAddr s.mem x o = some (m, r))
    (h : PsBack r (setPend .ps none (setMem m s)) u) : PsLock u := by
  obtain ⟨hown, hpend, hrun⟩ := hs
  obtain ⟨hps, a, rfl⟩ := psPending_eq_some (hpend.symm.trans hx)
  have ho : s.owner = .ps := hown.2 (by tauto)
  have hlive : s.pollRun = true := hrun.2 (by rcases hps with h | h <;> simp [h])
  cases h with
  | none hp =>
    rcases hp with ⟨hf, ha⟩ | hp
    · exact absurd hps (not_or.2 ⟨hf, ha⟩)
    · exact absurd hp (busRun_read_ne_wrote hr)
  | zero | fired | acked | failed => simp [PsLock, psPending, psAck, psFail, Sequencer.owner, ho, hlive]

theorem PsLock.pollStarted {s : State} (hs : PsLock s) (hrun : s.pollRun = false) : PsLock (pollStarted s) := by
  obtain ⟨hown, hpend, hlive⟩ := hs
  have hoff : s.ps = .off := by simpa [hrun] using hlive
  simp [PsLock, psPending, Machine.pollStarted, hown, hpend, hoff]

theorem lockInv_stepParts : StepParts LockInv (fun _ => True) where
  inputs _ _ h := h
  accept w s h hi := by
    obtain ⟨⟨hown, hpend, -⟩, hps⟩ := (lockInv_iff s).1 h
    refine (lockInv_iff _).2 ⟨⟨?_, hpend, ?_⟩, hps⟩ <;> simp [hown, hi]
  pop s h := by
    simp only [irqPop]
    split <;> exact h
  reset d m m' s _ _ _ _ := by simp [LockInv, psPending, resetController, State.reset]
  turn i s u h hb hd hn _ hu := by
    obtain ⟨hcs, hps⟩ := (lockInv_iff s).1 h
    refine (lockInv_iff u).2 ⟨hu.csLock hb hd hn hcs, ?_⟩
    rcases hu.samePoll_or with hsame | ⟨-, hrun, rfl⟩ | ⟨-, rfl⟩
    · exact hps.congr hsame hu.owner_ps
    · exact hps.pollStarted hrun
    · exact hps
  illegal s h _ _ hn :=
    have ⟨_, hps⟩ := (lockInv_iff s).1 h
    (lockInv_iff _).2 ⟨.raise hn _ _, hps.congr (by simp [SamePoll]) (raise_owner_ps _ _ s)⟩
  back i x m r o s u h _ _ _ _ _ hu := by
    obtain ⟨⟨hown, -, hcmd⟩, hps⟩ := (lockInv_iff s).1 h
    exact (lockInv_iff u).2 ⟨csLock_of_backLeaves hu rfl ⟨hown, by simp, hcmd⟩, hps.congr hu.samePoll hu.owner_ps⟩
  noBack x m r o s h _ _ _ := by
    obtain ⟨⟨hown, -, hcmd⟩, hps⟩ := (lockInv_iff s).1 h
    exact (lockInv_iff _).2 ⟨⟨hown, by simp, hcmd⟩, hps⟩
  psTurn s u h hu :=
    have ⟨hcs, hps⟩ := (lockInv_iff s).1 h
    (lockInv_iff u).2 ⟨hcs.congr hu.sameCommand.2 hu.owner_cs, hu.psLock hps⟩
  psBack x m r o s u h hx hr hu :=
    have ⟨hcs, hps⟩ := (lockInv_iff s).1 h
    (lockInv_iff u).2 ⟨hcs.congr hu.sameCommand.2 hu.owner_cs, psLock_of_psBack hps hx hr hu⟩
  env _ _ _ _ h := h

/-- Only the holder of the lock has a transaction pending (R24, R75). -/
theorem LockInv.one_pending {s : State} (h : LockInv s) : s.pendCs = none ∨ s.pendPs = none := by
  obtain ⟨⟨-, hcs, -⟩, hown, hps, -⟩ := (lockInv_iff s).1 h
  by_contra hboth
  obtain ⟨hc, hp⟩ := not_or.1 hboth
  obtain ⟨x, hx⟩ := Option.ne_none_iff_exists'.1 hp
  obtain ⟨hmicro, -⟩ := psPending_eq_some (hps.symm.trans hx)
  exact absurd ((hcs hc).symm.trans (hown.2 (by tauto))) (by decide)

/-- Settles O49, by the induction over `step`: the CS's steps keep its half of the discipline and leave the PS's half
alone, and the other way round. -/
theorem stepKeepsTheLockDiscipline : Obligations.StepKeepsTheLockDiscipline := by
  unfold Obligations.StepKeepsTheLockDiscipline
  intro s t h hstep
  have ht : LockInv t := lockInv_stepParts.step s t (fun _ _ => trivial) h hstep
  exact ⟨ht, ht.one_pending⟩

/-! The handle and the snapshot being built (R16 to R19, R91 to R93). -/

theorem clearFrom_iff (w : Byte) (n : Nat) : ClearFrom w n ↔ ∀ q, n ≤ q → w.getLsbD q = false := by
  have bit : ∀ q < 8, (w &&& ~~~ (BitVec.ofNat 8 (2 ^ n - 1))).getLsbD q = (w.getLsbD q && decide (n ≤ q)) := by
    intro q hq
    simp only [BitVec.getLsbD_and, BitVec.getLsbD_not, BitVec.getLsbD_ofNat, Nat.testBit_two_pow_sub_one, hq]
    by_cases hn : n ≤ q
    · simp [hn]
    · simp [hn, Nat.lt_of_not_le hn]
  constructor
  · intro h q hq
    by_cases h8 : q < 8
    · simpa [h, hq] using (bit q h8).symm
    · exact BitVec.getLsbD_of_ge _ _ (by omega)
  · intro h
    refine BitVec.eq_of_getLsbD_eq fun q h8 => ?_
    rw [bit q h8]
    by_cases hq : n ≤ q
    · simp [h q hq]
    · simp [hq]

theorem clearFrom_zero (n : Nat) : ClearFrom 0 n := by simp [ClearFrom]

/-- Assigning a bit below `m` sets none at or above it. -/
theorem ClearFrom.putBit {w : Byte} {n m p : Nat} (h : ClearFrom w n) (hnm : n ≤ m) (hpm : p < m) (hp : p < 8)
    (b : Bool) : ClearFrom (putBit w p b) m := by
  rw [clearFrom_iff] at h ⊢
  intro q hq
  rw [getLsbD_putBit w p q b hp, if_neg (by omega)]
  exact h q (by omega)

theorem decode_init_lt {w : Byte} {n : Nat} (h : decode w = .ok (.init n)) : n < 16 := by
  simp only [decode, needsZeroArg] at h
  split at h
  · cases h
    exact (w.extractLsb' 0 4).isLt
  all_goals (try split at h) <;> cases h

theorem mem_runningInit? (n : Nat) (s : State) :
    n ∈ runningInit? s ↔ s.cs = .busy ∧ decode s.cmd = .ok (.init n) := by
  rw [Option.mem_def]
  unfold runningInit?
  split
  · rename_i m hb hd
    simp [hb, hd]
  · rename_i hno
    simp only [reduceCtorEq, false_iff]
    exact fun ⟨hb, hd⟩ => hno n hb hd

/-- Of INIT's transactions the first three are writes and the others reads of the pin whose turn it is (R90, R91). -/
theorem initTxn_cases {n : Nat} {s : State} {x : Txn} (h : initTxn n s = some x) :
    (s.tx.toNat < 3 ∧ ∃ a v, x = .write a v) ∨ (3 ≤ s.tx.toNat ∧ s.i < n ∧ ∃ a, x = .read a) := by
  simp only [initTxn] at h
  split at h
  · cases h; exact .inl ⟨by bv_omega, _, _, rfl⟩
  · split at h
    · cases h; exact .inl ⟨by bv_omega, _, _, rfl⟩
    · split at h
      · cases h; exact .inl ⟨by bv_omega, _, _, rfl⟩
      · split at h
        · rename_i hc
          simp only [Bool.and_eq_true, decide_eq_true_eq] at hc
          cases h; exact .inr ⟨by bv_omega, hc.2, _, rfl⟩
        · cases h

/-- After INIT's last transaction every configured pin has been read. -/
theorem initTxn_none {n : Nat} {s : State} (hl : legalCount n = true) (h : initTxn n s = none) :
    3 ≤ s.tx.toNat ∧ n ≤ s.i := by
  simp only [initTxn, hl, Bool.true_and, decide_eq_true_eq] at h
  split_ifs at h
  exact ⟨by bv_omega, by omega⟩

/-- What `SnapBuild` says of a running INIT `n` with a legal count. -/
abbrev Building (n : Nat) (s : State) : Prop :=
  (s.phase = .start ∨ s.phase = .acquire → s.tx = 0) ∧
  (∀ x ∈ s.pendCs, initTxn n s = some x) ∧
  (s.phase = .body → 3 ≤ s.tx.toNat → s.i ≤ n ∧ ClearFrom s.acc s.i) ∧
  (s.phase = .respond → ClearFrom s.acc n)

theorem SnapBuild.building {s : State} (h : SnapBuild s) {n : Nat} (hb : s.cs = .busy)
    (hd : decode s.cmd = .ok (.init n)) (hl : legalCount n = true) : Building n s :=
  h.2 n ((mem_runningInit? n s).2 ⟨hb, hd⟩) hl

theorem SnapBuild.of_idle {s : State} (hi : s.cs = .idle) (hp : s.pendCs = none) : SnapBuild s :=
  ⟨fun _ => hp, fun n hn => by simp [((mem_runningInit? n s).1 hn).1] at hi⟩

theorem SnapBuild.congr {s t : State} (hc : SameCommand s t) (h : SnapBuild s) : SnapBuild t := by
  obtain ⟨hcs, hcmd, htx, hi, hacc, hphase, hpend, hcfg⟩ := hc
  simpa only [SnapBuild, runningInit?, initTxn, hcs, hcmd, htx, hi, hacc, hphase, hpend, hcfg] using h

theorem HandleInv.congr {s t : State} (hs : SameHandle s t) (h : HandleInv s) : HandleInv t := by
  obtain ⟨hready, hcount, hlen, hsnap⟩ := hs
  simpa only [HandleInv, hready, hcount, hlen, hsnap] using h

theorem HandleInv.discard (s : State) : HandleInv (discardHandle s) := by
  simp [HandleInv, ClearFrom]

theorem handleInv_publish {n : Nat} (hl : legalCount n = true) {w : Byte} (hw : ClearFrom w n) (s : State) :
    HandleInv (publishHandle n n w s) := by
  obtain ⟨h1, h8⟩ := (legalCount_iff n).1 hl
  have hn : (BitVec.ofNat 4 n).toNat = n := by simp; omega
  refine ⟨by simp, fun _ => ?_, ?_, ?_⟩
  · simp only [publishHandle_pinCount, publishHandle_snapLen, hn, hl, if_true]
  · rw [publishHandle_snapLen, hn]; exact h8
  · rw [publishHandle_snapLen, publishHandle_snap, hn]; exact hw

theorem handleInv_publish_illegal {n : Nat} (hl : legalCount n = false) (hn : n < 16) (s : State) :
    HandleInv (publishHandle n 0 0x00 s) := by
  have hn : (BitVec.ofNat 4 n).toNat = n := by simp; omega
  refine ⟨by simp, fun _ => ?_, by simp, by simp [ClearFrom]⟩
  simp [hn, hl]

/-- READ's level lies below the length of the snapshot, or is not kept (R99). -/
theorem handleInv_readFinish (p : Nat) {s : State} (h : HandleInv s) : HandleInv (readFinish p s) := by
  obtain ⟨hoff, hon, hlen, hclear⟩ := h
  by_cases hp : p < s.snapLen.toNat
  · refine ⟨fun hr => ?_, hon, hlen, ?_⟩
    · have hz : s.snapLen = 0 := (hoff hr).2.1
      simp [hz] at hp
    · simp only [readFinish, respond_snap, hp, if_true]
      exact hclear.putBit le_rfl hp (by omega) _
  · refine HandleInv.congr ?_ ⟨hoff, hon, hlen, hclear⟩
    simp [SameHandle, readFinish, hp]

theorem handleInv_finishPart {i : Instr} {s : State} (hb : s.cs = .busy) (hd : decode s.cmd = .ok i)
    (hp : s.phase = .respond) (h : HandleInv s) (hs : SnapBuild s) : HandleInv (finishPart i s) := by
  cases i with
  | init n =>
    simp only [finishPart, initFinish]
    cases hl : legalCount n
    · exact (handleInv_publish_illegal hl (decode_init_lt hd) s).congr (by simp [SameHandle])
    · obtain ⟨-, -, -, hacc⟩ := hs.building hb hd hl
      exact (handleInv_publish hl (hacc hp) s).congr (by simp [SameHandle])
  | read p => exact handleInv_readFinish p h
  | _ => exact h

theorem TurnLeaves.handleInv {i : Instr} {s u : State} (hu : TurnLeaves i s u) (hb : s.cs = .busy)
    (hd : decode s.cmd = .ok i) (h : HandleInv s) (hs : SnapBuild s) : HandleInv u := by
  cases hu with
  | discard => exact .discard s
  | issue x _ _ => exact h.congr (issue_cs_frame x s).2
  | finish hp => exact handleInv_finishPart hb hd hp h hs
  | _ => exact h

theorem handleInv_of_backLeaves {i : Instr} {r : BusReturn} {s u : State} (hu : BackLeaves i r s u)
    (h : HandleInv s) : HandleInv u := by
  rcases backLeaves_cases hu with ⟨e, n, rfl⟩ | rfl | ⟨tx, v, k, a, rfl⟩
  · exact h
  · exact .discard s
  · exact h

/-- The CS has a transaction pending only in the body of a command. -/
theorem TurnLeaves.body_of_pending {i : Instr} {s u : State} (hu : TurnLeaves i s u) (hb : s.cs = .busy)
    (hn : s.pendCs = none) (hout : ¬ (u.cs = .busy ∧ u.phase = .body)) : u.pendCs = none := by
  cases hu with
  | issue x hp _ =>
    rcases issue_cases .cs x s with hu | ⟨_, _, hu⟩ <;> rw [hu] at hout ⊢
    · exact hn
    · exact absurd ⟨hb, hp⟩ hout
  | finish _ => exact (finishPart_idle i s).2.2.trans hn
  | _ => exact hn

theorem backLeaves_pendCs {i : Instr} {r : BusReturn} {s u : State} (hu : BackLeaves i r s u) : u.pendCs = s.pendCs := by
  rcases backLeaves_cases hu with ⟨e, n, rfl⟩ | rfl | ⟨tx, v, k, a, rfl⟩ <;> rfl

/-- A local step of a running INIT. -/
theorem building_turn {n : Nat} {s : State} (hl : legalCount n = true) (hn : s.pendCs = none) (h : Building n s)
    (hb : (turnPart (.init n) s).cs = .busy) : Building n (turnPart (.init n) s) := by
  obtain ⟨htx, -, hbody, hresp⟩ := h
  simp only [turnPart] at hb ⊢
  rcases commandTurn_cases initStart (initTxn n) (initFinish n) s with ⟨hp, hu⟩ | ⟨hp, -, hu⟩ | ⟨hp, -, hu⟩ |
    ⟨hp, x, hx, hu⟩ | ⟨hp, hx, hu⟩ | ⟨hp, hu⟩ <;> rw [hu] at hb ⊢
  · simp only [initStart] at hb ⊢
    split at hb
    · cases hb
    · rename_i hr
      simp [Building, hr, hn, htx (.inl hp)]
  · simp [Building, hn, hp, htx (.inr hp)]
  · simp [Building, hn, htx (.inr hp)]
  · rcases issue_cases .cs x s with hu | ⟨_, _, hu⟩ <;> rw [hu]
    · exact ⟨htx, by simp [hn], hbody, hresp⟩
    · exact ⟨htx, fun y hy => hx.trans hy, hbody, hresp⟩
  · obtain ⟨h3, hi⟩ := initTxn_none hl hx
    obtain ⟨hle, hacc⟩ := hbody hp h3
    rw [le_antisymm hle hi] at hacc
    exact ⟨by simp, by simp [hn], by simp, fun _ => hacc⟩
  · rw [show initFinish n s = finishPart (.init n) s from rfl, (finishPart_idle _ s).1] at hb
    cases hb

/-- The third write of INIT begins the snapshot (R89). -/
theorem building_wrote {n : Nat} {s : State} (hl : legalCount n = true) (hp : s.phase = .body) (hn : s.pendCs = none)
    (h3 : s.tx.toNat < 3) : Building n (initOk n .wrote s) := by
  have hu : initOk n .wrote s =
      if s.tx + 1 = 3 then { advance .wrote s with acc := 0x00, i := 0 } else advance .wrote s := by
    simp only [initOk, initBeginSnap, hl, Bool.true_and, decide_eq_true_eq]
    rfl
  rw [hu]
  split
  · exact ⟨by simp [hp], by simp [hn], fun _ _ => ⟨Nat.zero_le n, clearFrom_zero 0⟩, by simp [hp]⟩
  · have hlt : ¬ 3 ≤ (s.tx + 1).toNat := by bv_omega
    exact ⟨by simp [hp], by simp [hn], fun _ h => absurd h hlt, by simp [hp]⟩

/-- A read of INIT takes the level of the next pin into the snapshot (R91). -/
theorem building_data {n : Nat} {s : State} (hl : legalCount n = true) (hp : s.phase = .body) (hn : s.pendCs = none)
    (hi : s.i < n) (hacc : ClearFrom s.acc s.i) (b : Byte) : Building n (initOk n (.data b) s) := by
  have h8 : s.i < 8 := by have := (legalCount_iff n).1 hl; omega
  refine ⟨by simp [initOk, hp], by simp [initOk, hn], fun _ _ => ⟨hi, ?_⟩, by simp [initOk, hp]⟩
  exact hacc.putBit (Nat.le_succ _) (Nat.lt_succ_self _) h8 _

/-- An outcome returned to a running INIT. -/
theorem building_back {n : Nat} {s : State} {x : Txn} {m : Memory} {r : BusReturn} {o : BusOutcome}
    (hl : legalCount n = true) (hp : s.phase = .body) (hx : s.pendCs = some x)
    (hr : busRun s.cfg.regAddr s.mem x o = some (m, r)) (h : Building n s)
    (hb : (backPart (.init n) r (setPend .cs none (setMem m s))).cs = .busy) :
    Building n (backPart (.init n) r (setPend .cs none (setMem m s))) := by
  obtain ⟨-, hpend, hbody, -⟩ := h
  have hret := busRun_return _ _ _ _ _ _ hr
  rcases initTxn_cases (hpend x hx) with ⟨h3, a, v, rfl⟩ | ⟨h3, hi, a, rfl⟩
  · rcases hret with ⟨_, -, rfl⟩ | ⟨-, -, rfl⟩ | ⟨-, _, hread, -⟩
    · cases hb
    · exact building_wrote hl hp rfl h3
    · cases hread
  · rcases hret with ⟨_, -, rfl⟩ | ⟨-, ⟨_, _, hwrite⟩, -⟩ | ⟨-, _, -, rfl⟩
    · cases hb
    · cases hwrite
    · exact building_data (s := setPend .cs none (setMem m s)) hl hp rfl hi (hbody hp h3).2 _

theorem TurnLeaves.snapBuild {i : Instr} {s u : State} (hl : TurnLeaves i s u) (hu : u = turnPart i s) (hb : s.cs = .busy)
    (hd : decode s.cmd = .ok i) (hn : s.pendCs = none) (h : SnapBuild s) : SnapBuild u := by
  refine ⟨hl.body_of_pending hb hn, fun n hrun hlegal => ?_⟩
  obtain ⟨hbu, hdu⟩ := (mem_runningInit? n u).1 hrun
  subst hu
  rw [turnPart_cmd, hd] at hdu
  cases hdu
  exact building_turn hlegal hn (h.building hb hd hlegal) hbu

theorem snapBuild_back {i : Instr} {s : State} {x : Txn} {m : Memory} {r : BusReturn} {o : BusOutcome} (hb : s.cs = .busy)
    (hd : decode s.cmd = .ok i) (hx : s.pendCs = some x) (hr : busRun s.cfg.regAddr s.mem x o = some (m, r))
    (h : SnapBuild s) : SnapBuild (backPart i r (setPend .cs none (setMem m s))) := by
  have hbody : s.phase = .body := by
    by_contra hp
    simpa [hx] using h.1 (fun hbp => hp hbp.2)
  refine ⟨fun _ => backLeaves_pendCs (backPart_leaves i r _), fun n hrun hlegal => ?_⟩
  obtain ⟨hbu, hdu⟩ := (mem_runningInit? n _).1 hrun
  rw [backPart_cmd, setPend_cs_cmd, setMem_cmd, hd] at hdu
  cases hdu
  exact building_back hlegal hbody hx hr (h.building hb hd hlegal) hbu

theorem handle_stepParts : StepParts (fun s => HandleInv s ∧ SnapBuild s) (fun _ => True) where
  inputs _ _ h := h
  accept w s h hi := by
    have hn : s.pendCs = none := h.2.1 (by simp [hi])
    exact ⟨h.1, fun _ => hn, fun n _ _ => ⟨fun _ => rfl, by simp [hn], by simp, by simp⟩⟩
  pop s h :=
    have ⟨hh, hc⟩ := irqPop_sameCommand s
    ⟨h.1.congr hh, h.2.congr hc⟩
  reset d m m' s _ _ _ _ := ⟨HandleInv.discard State.reset, .of_idle rfl rfl⟩
  turn i s u h hb hd hn hu hl := ⟨hl.handleInv hb hd h.1 h.2, hl.snapBuild hu hb hd hn h.2⟩
  illegal s h _ _ hn := ⟨h.1, .of_idle rfl hn⟩
  back i x m r o s u h hb hd hx hr hu hl := ⟨handleInv_of_backLeaves hl h.1, hu ▸ snapBuild_back hb hd hx hr h.2⟩
  noBack x m r o s h hno _ _ := by
    refine ⟨h.1, fun _ => rfl, fun n hrun => ?_⟩
    obtain ⟨hb, hd⟩ := (mem_runningInit? n _).1 hrun
    rcases hno with hi | ⟨e, he⟩
    · cases hi.symm.trans hb
    · cases he.symm.trans hd
  psTurn s u h hu :=
    have ⟨hh, hc⟩ := hu.sameCommand
    ⟨h.1.congr hh, h.2.congr hc⟩
  psBack x m r o s u h _ _ hu :=
    have ⟨hh, hc⟩ := hu.sameCommand
    ⟨h.1.congr hh, h.2.congr hc⟩
  env _ _ _ _ h := h

/-- Settles O51, by the induction over `step`: INIT publishes what `SnapBuild` has kept of the pins read, READ changes a
bit below the snapshot's length, and nothing else touches the handle. -/
theorem stepKeepsTheHandle : Obligations.StepKeepsTheHandle := by
  unfold Obligations.StepKeepsTheHandle
  exact fun s t h hstep => handle_stepParts.step s t (fun _ _ => trivial) h hstep

/-! The poll loop's state: which pieces of a step can change it at all. -/

/-- The poll loop's micro-state, flags and queue, and the parameters, are the same (R22, R25 to R29, R34). -/
abbrev SameLoop (s t : State) : Prop :=
  t.ps = s.ps ∧ t.f = s.f ∧ t.emitList = s.emitList ∧ t.pollRun = s.pollRun ∧ t.stopReq = s.stopReq ∧
    t.pollState = s.pollState ∧ t.pollErr = s.pollErr ∧ t.irqQ = s.irqQ ∧ t.cfg = s.cfg

theorem SamePoll.sameLoop {s t : State} (h : SamePoll s t) : SameLoop s t := by
  obtain ⟨h1, h2, h3, -, h4, h5, h6, h7, h8, -, h9⟩ := h
  exact ⟨h1, h2, h3, h4, h5, h6, h7, h8, h9⟩

theorem issue_ps_sameLoop (x : Txn) (s : State) : SameLoop s (issue .ps x s) := by
  rcases issue_cases .ps x s with h | ⟨_, _, h⟩ <;> simp [h, SameLoop]

/-- The induction over `step` for a property of the poll loop's state: the pieces of a step that can change it are a pop, a
reset, POLL_START, POLL_STOP, and the PS's own. -/
theorem stepParts_of_sameLoop {P : State → Prop} (same : ∀ s t, SameLoop s t → P s → P t)
    (pop : ∀ s, P s → P (irqPop s)) (reset : ∀ d m s, P s → P (resetController d (setMem m s)))
    (started : ∀ s, P s → s.pollRun = false → P (pollStarted s)) (stop : ∀ s, P s → P (pollStopTurn s))
    (psTurn : ∀ s u, P s → PsLeaves s u → P u) (psBack : ∀ r s u, P s → PsBack r s u → P u) :
    StepParts P (fun _ => True) where
  inputs l s h := same s _ (by simp [SameLoop]) h
  accept w s h _ := same s _ (by simp [SameLoop]) h
  pop s h := pop s h
  reset d _ m' s _ h _ _ := reset d m' s h
  turn i s u h _ _ _ _ hu := by
    rcases hu.samePoll_or with hsame | ⟨-, hrun, rfl⟩ | ⟨-, rfl⟩
    · exact same s u (SamePoll.sameLoop hsame) h
    · exact started s h hrun
    · exact stop s h
  illegal s h _ _ _ := same s _ (by simp [SameLoop]) h
  back i x m r o s u h _ _ _ _ _ hu :=
    same _ u (SamePoll.sameLoop hu.samePoll) (same s _ (by simp [SameLoop]) h)
  noBack x m r o s h _ _ _ := same s _ (by simp [SameLoop]) h
  psTurn s u h hu := psTurn s u h hu
  psBack x m r o s u h _ _ hu := psBack r _ u (same s _ (by simp [SameLoop]) h) hu
  env n b s _ h := same s _ (by simp [envWrite, SameLoop]) h

/-! The poll flags (R25 to R28). -/

theorem PollInv.congr {s t : State} (hl : SameLoop s t) (h : PollInv s) : PollInv t := by
  obtain ⟨hps, -, -, hrun, hstop, hst, herr, -, -⟩ := hl
  simpa only [PollInv, hps, hrun, hstop, hst, herr] using h

/-- A running loop moves on in its round without entering or leaving EMIT and ACK. -/
theorem PollInv.setPs {s : State} (h : PollInv s) (hs : s.ps ≠ .off) {p : PsState} (hp : p ≠ .off)
    (hfired : p = .emit ∨ p = .ack ↔ s.ps = .emit ∨ s.ps = .ack) : PollInv (setPs p s) := by
  obtain ⟨hrun, hstop, hst, herr⟩ := h
  exact ⟨by simp [hrun, hs, hp], hstop, hst.trans hfired.symm, herr⟩

theorem PollInv.off {s : State} (h : PollInv s) : PollInv (pollOff s) := by
  obtain ⟨-, -, -, herr⟩ := h
  exact ⟨by simp, by simp, by simp, herr.imp_right fun h => ⟨h.1, rfl⟩⟩

theorem PsLeaves.pollInv {s u : State} (hu : PsLeaves s u) (h : PollInv s) : PollInv u := by
  cases hu with
  | stay => exact h
  | stopped _ _ => exact h.off
  | goOn hp _ | wake hp => exact h.setPs (by simp [hp]) (by decide) (by simp [hp])
  | lock hp _ =>
    have hi : SameLoop s (issue .ps (.read (s.cfg.regAddr.addr .intf)) (takeLock .ps s)) :=
      issue_ps_sameLoop _ (takeLock .ps s)
    exact (h.congr hi).setPs (by simp [hi.1, hp]) (by decide) (by simp [hi.1, hp])
  | deliver => exact h
  | capture hp _ _ _ =>
    exact PollInv.setPs (s := setPend .ps _ s) h (by simp [hp]) (by decide) (by simp [hp])

/-- Fired goes with EMIT, and every way out of FLAGS and ACK but that one is Idle. -/
theorem pollInv_of_psBack {r : BusReturn} {s u : State} (hu : PsBack r s u) (h : PollInv s) : PollInv u := by
  obtain ⟨hrun, hstop, hst, herr⟩ := h
  cases hu with
  | none => exact ⟨hrun, hstop, hst, herr⟩
  | zero hp _ => exact ⟨by simp [hrun, hp], hstop, by simp, herr⟩
  | fired f hp _ _ => exact ⟨by simp [hrun, hp], hstop, by simp, herr⟩
  | acked hp b _ => exact ⟨by simp [psAck, hrun, hp], hstop, by simp [psAck], herr⟩
  | failed _ _ => exact ⟨by simp [psFail], by simp [psFail], by simp [psFail], .inr ⟨rfl, rfl⟩⟩

theorem pollInv_stepParts : StepParts PollInv (fun _ => True) := by
  refine stepParts_of_sameLoop (fun s t hl h => h.congr hl) ?_ ?_ ?_ ?_ (fun s u h hu => hu.pollInv h)
    (fun r s u h hu => pollInv_of_psBack hu h)
  · intro s h
    simp only [irqPop]
    split <;> exact h
  · intro d m s _
    simp [PollInv, resetController, State.reset]
  · intro s _ _
    simp [PollInv, pollStarted]
  · rintro s ⟨hrun, hstop, hst, herr⟩
    refine ⟨hrun, ?_, hst, herr⟩
    simp only [pollStopTurn, respond_stopReq, respond_pollRun]
    split
    · exact fun _ => by assumption
    · exact hstop

/-- Settles O50, by the induction over `step`. -/
theorem stepKeepsThePollFlags : Obligations.StepKeepsThePollFlags := by
  unfold Obligations.StepKeepsThePollFlags
  exact fun s t h hstep => pollInv_stepParts.step s t (fun _ _ => trivial) h hstep

/-! The interrupt queue and the list to deliver (R29, R126, R127). -/

theorem mem_setbits {f : Byte} {p : PinIndex} (h : p ∈ setbits f) : f.getLsbD p.toNat = true := by
  simp only [setbits, List.mem_map, List.mem_filter, List.mem_range] at h
  obtain ⟨i, ⟨hi, hf⟩, rfl⟩ := h
  simpa [Nat.mod_eq_of_lt hi] using hf

theorem setbits_ascending (f : Byte) : (setbits f).Pairwise (fun p q => p.toNat < q.toNat) := by
  rw [setbits, List.pairwise_map]
  refine ((List.pairwise_lt_range (n := 8)).filter _).imp_of_mem ?_
  intro i j hi hj hij
  have hi : i < 8 := List.mem_range.1 (List.mem_of_mem_filter hi)
  have hj : j < 8 := List.mem_range.1 (List.mem_of_mem_filter hj)
  simpa [Nat.mod_eq_of_lt hi, Nat.mod_eq_of_lt hj] using hij

theorem lsb_mem_setbits {f : Byte} {p : PinIndex} (h : lsb f = some p) : p ∈ setbits f := by
  simp only [lsb, Option.map_eq_some_iff] at h
  obtain ⟨i, hi, rfl⟩ := h
  rw [setbits, List.mem_map]
  exact ⟨i, List.mem_filter.2 ⟨List.mem_of_find?_eq_some hi, by simpa using List.find?_some hi⟩, rfl⟩

/-- Under either policy the decoded list holds set bits of the flag byte, in ascending order (R121, R122). -/
theorem decodeFlags_setbits (p : DecodePolicy) (f : Byte) :
    (∀ q ∈ decodeFlags p f, f.getLsbD q.toNat = true) ∧
      (decodeFlags p f).Pairwise (fun q k => q.toNat < k.toNat) := by
  cases p with
  | allAscending => exact ⟨fun q hq => mem_setbits hq, setbits_ascending f⟩
  | lowestFirst =>
    cases hl : lsb f with
    | none => simp [decodeFlags, hl]
    | some q => simpa [decodeFlags, hl] using mem_setbits (lsb_mem_setbits hl)

theorem queueRoom_iff (s : State) : queueRoom s = true ↔ ∀ d ∈ s.cfg.irqDepth, s.irqQ.length < d := by
  cases hd : s.cfg.irqDepth <;> simp [queueRoom, hd]

theorem QueueInv.congr {s t : State} (hl : SameLoop s t) (h : QueueInv s) : QueueInv t := by
  obtain ⟨-, -, -, -, -, -, -, hq, hcfg⟩ := hl
  simpa only [QueueInv, hq, hcfg] using h

theorem EmitInv.congr {s t : State} (hl : SameLoop s t) (h : EmitInv s) : EmitInv t := by
  obtain ⟨hps, hf, he, -⟩ := hl
  simpa only [EmitInv, hps, hf, he] using h

/-- Outside EMIT nothing is left to deliver. -/
theorem EmitInv.of_ne {s : State} (h : s.ps ≠ .emit) : EmitInv s := fun he => absurd he h

theorem PsLeaves.queueInv {s u : State} (hu : PsLeaves s u) (h : QueueInv s) : QueueInv u := by
  cases hu with
  | lock _ _ =>
    have hi : QueueInv (issue .ps (.read (s.cfg.regAddr.addr .intf)) (takeLock .ps s)) :=
      QueueInv.congr (issue_ps_sameLoop _ (takeLock .ps s)) h
    exact hi
  | deliver p rest _ _ hroom =>
    intro d hd
    simpa using (queueRoom_iff s).1 hroom d hd
  | _ => exact h

theorem PsLeaves.emitInv {s u : State} (hu : PsLeaves s u) (h : EmitInv s) : EmitInv u := by
  cases hu with
  | stay => exact h
  | deliver p rest hp hl _ =>
    intro _
    obtain ⟨hset, hasc⟩ := h hp
    rw [hl] at hset hasc
    exact ⟨fun q hq => hset q (by simp [hq]), hasc.of_cons⟩
  | _ => exact .of_ne (by simp)

theorem queueInv_of_psBack {r : BusReturn} {s u : State} (hu : PsBack r s u) (h : QueueInv s) : QueueInv u := by
  cases hu <;> exact h

theorem emitInv_of_psBack {r : BusReturn} {s u : State} (hu : PsBack r s u) (h : EmitInv s) : EmitInv u := by
  cases hu with
  | none => exact h
  | fired f _ _ _ => exact fun _ => decodeFlags_setbits s.cfg.decodePolicy f
  | zero | acked | failed => exact .of_ne (by simp [psAck, psFail])

theorem queueInv_irqPop {s : State} (h : QueueInv s) : QueueInv (irqPop s) := by
  simp only [irqPop]
  split
  · exact h
  · rename_i p rest hq
    intro d hd
    have := h d hd
    rw [hq, List.length_cons] at this
    exact Nat.le_of_succ_le this

theorem queue_stepParts : StepParts (fun s => QueueInv s ∧ EmitInv s) (fun _ => True) := by
  refine stepParts_of_sameLoop (fun s t hl h => ⟨h.1.congr hl, h.2.congr hl⟩) ?_ ?_ ?_ (fun s h => h)
    (fun s u h hu => ⟨hu.queueInv h.1, hu.emitInv h.2⟩)
    (fun r s u h hu => ⟨queueInv_of_psBack hu h.1, emitInv_of_psBack hu h.2⟩)
  · intro s h
    refine ⟨queueInv_irqPop h.1, ?_⟩
    simp only [irqPop]
    split <;> exact h.2
  · intro d m s _
    exact ⟨fun _ _ => Nat.zero_le _, .of_ne (by simp [resetController, State.reset])⟩
  · exact fun s h _ => ⟨h.1, .of_ne (by simp [pollStarted])⟩

/-- Settles O53, by the induction over `step`: only a delivery lengthens the queue, and it needs room; only a non-zero flag
byte fills the list, with the bits set in it. -/
theorem stepKeepsTheQueue : Obligations.StepKeepsTheQueue := by
  unfold Obligations.StepKeepsTheQueue
  exact fun s t h hstep => queue_stepParts.step s t (fun _ _ => trivial) h hstep

/-! Which commands set a flag (R16, R25, R26, R34). This is a property of the run of one command and no invariant of
`step`: a flag stays up when the port accepts another word. -/

/-- From `s` to `t` a flag was raised only if the word `w` is its command, and no parameter changed. -/
abbrev SetBy (w : Byte) (s t : State) : Prop :=
  (s.ready = false → t.ready = true → ∃ n, decode w = .ok (.init n)) ∧
  (s.pollRun = false → t.pollRun = true → decode w = .ok .pollStart) ∧
  (s.stopReq = false → t.stopReq = true → decode w = .ok .pollStop) ∧
  t.cfg = s.cfg

/-- Ready, running and stopping are all off, as after a reset. -/
abbrev FlagsClear (s : State) : Prop := s.ready = false ∧ s.pollRun = false ∧ s.stopReq = false

/-- A flag that can only fall is not raised. -/
theorem not_raised {a b : Bool} {X : Prop} (hle : b = true → a = true) (ha : a = false) (hb : b = true) : X := by
  cases ha.symm.trans (hle hb)

/-- Where no flag is raised, any word will do. -/
theorem SetBy.of_lowered {w : Byte} {s t : State} (hready : t.ready = true → s.ready = true)
    (hrun : t.pollRun = true → s.pollRun = true) (hstop : t.stopReq = true → s.stopReq = true) (hcfg : t.cfg = s.cfg) :
    SetBy w s t :=
  ⟨not_raised hready, not_raised hrun, not_raised hstop, hcfg⟩

theorem SetBy.refl (w : Byte) (s : State) : SetBy w s s := .of_lowered id id id rfl

theorem SetBy.trans {w : Byte} {s t u : State} (h1 : SetBy w s t) (h2 : SetBy w t u) : SetBy w s u := by
  obtain ⟨ready1, run1, stop1, cfg1⟩ := h1
  obtain ⟨ready2, run2, stop2, cfg2⟩ := h2
  refine ⟨fun hs hu => ?_, fun hs hu => ?_, fun hs hu => ?_, cfg2.trans cfg1⟩
  · cases ht : t.ready
    · exact ready2 ht hu
    · exact ready1 hs ht
  · cases ht : t.pollRun
    · exact run2 ht hu
    · exact run1 hs ht
  · cases ht : t.stopReq
    · exact stop2 ht hu
    · exact stop1 hs ht

theorem finishPart_ready_or (i : Instr) (s : State) :
    (finishPart i s).ready = s.ready ∨ ∃ n, i = .init n := by
  cases i with
  | init n => exact .inr ⟨n, rfl⟩
  | _ => exact .inl rfl

/-- Only INIT makes the handle usable (R16). -/
theorem TurnLeaves.ready_or {i : Instr} {s u : State} (hu : TurnLeaves i s u) (h : u.ready = true) :
    s.ready = true ∨ ∃ n, i = .init n := by
  cases hu with
  | discard => cases h
  | issue x _ _ => exact .inl ((issue_cs_frame x s).2.1 ▸ h)
  | finish _ => exact (finishPart_ready_or i s).imp_left fun hr => hr.symm.trans h
  | _ => exact .inl h

theorem TurnLeaves.setBy {i : Instr} {s u : State} {w : Byte} (hd : decode w = .ok i) (hu : TurnLeaves i s u) :
    SetBy w s u := by
  rcases hu.samePoll_or with hsame | ⟨rfl, -, rfl⟩ | ⟨rfl, rfl⟩
  · obtain ⟨-, -, -, -, hrun, hstop, -, -, -, -, hcfg⟩ := hsame
    refine ⟨fun hs hr => ?_, not_raised hrun.symm.trans, not_raised hstop.symm.trans, hcfg⟩
    obtain ⟨n, rfl⟩ := (hu.ready_or hr).resolve_left (by simp [hs])
    exact ⟨n, hd⟩
  · exact ⟨not_raised id, fun _ _ => hd, nofun, rfl⟩
  · exact ⟨not_raised id, not_raised id, fun _ _ => hd, rfl⟩

theorem setBy_of_backLeaves {i : Instr} {r : BusReturn} {s u : State} (w : Byte) (hu : BackLeaves i r s u) :
    SetBy w s u := by
  rcases backLeaves_cases hu with ⟨e, n, rfl⟩ | rfl | ⟨tx, v, k, a, rfl⟩
  · exact .of_lowered id id id rfl
  · exact .of_lowered nofun id id rfl
  · exact .of_lowered id id id rfl

theorem PsLeaves.setBy {s u : State} (w : Byte) (hu : PsLeaves s u) : SetBy w s u := by
  cases hu with
  | stopped _ _ => exact .of_lowered id (by simp) (by simp) rfl
  | lock _ _ =>
    obtain ⟨⟨hready, -⟩, -⟩ := issue_ps_frame (.read (s.cfg.regAddr.addr .intf)) (takeLock .ps s)
    obtain ⟨-, -, -, hrun, hstop, -, -, -, hcfg⟩ :=
      issue_ps_sameLoop (.read (s.cfg.regAddr.addr .intf)) (takeLock .ps s)
    exact .of_lowered (by simp [hready]) (by simp [hrun]) (by simp [hstop]) hcfg
  | _ => exact .of_lowered id id id rfl

theorem setBy_of_psBack {r : BusReturn} {s u : State} (w : Byte) (hu : PsBack r s u) : SetBy w s u := by
  cases hu with
  | failed => exact .of_lowered id (by simp [psFail]) (by simp [psFail]) rfl
  | _ => exact .of_lowered id id id rfl

/-- The other agents raise no flag: an agent's step raises what the CS's part in it raises. -/
theorem agentStep_setBy {w : Byte} {turn : State → State} {back : BusReturn → State → State} {e : Event} {s t : State}
    (ht : SetBy w s (turn s)) (hb : ∀ r u, SetBy w u (back r u)) (h : agentStep turn back e s = .next t) :
    SetBy w s t := by
  cases e with
  | submit v => cases h; exact .refl w s
  | pop =>
    cases h
    simp only [irqPop]
    split <;> exact .of_lowered id id id rfl
  | reset d =>
    obtain ⟨m, m', -, -, rfl⟩ := hostReset_cases d s t h
    exact .of_lowered nofun nofun nofun rfl
  | csTurn =>
    cases h
    split
    · exact ht
    · exact .refl w s
  | psTurn => cases h; exact (psTurn_leaves s).setBy w
  | complete who o =>
    cases who with
    | cs =>
      rcases completeTxn_cases .cs back o s t h with ⟨-, rfl⟩ | ⟨x, m, r, -, -, rfl⟩
      · exact .refl w _
      · exact hb r (setPend .cs none (setMem m s))
    | ps =>
      rcases completeTxn_cases .ps psReturn o s t h with ⟨-, rfl⟩ | ⟨x, m, r, -, -, rfl⟩
      · exact .refl w _
      · exact setBy_of_psBack (s := setPend .ps none (setMem m s)) w (psReturn_leaves r _)
  | env n b => cases h; exact .of_lowered id id id rfl

/-- An agent's step keeps the word of the running command, or is a reset. -/
theorem agentStep_cmd_or_clear {turn : State → State} {back : BusReturn → State → State} (ht : ∀ s, (turn s).cmd = s.cmd)
    (hb : ∀ r s, (back r s).cmd = s.cmd) {e : Event} {s t : State} (h : agentStep turn back e s = .next t) :
    t.cmd = s.cmd ∨ (t.cs = .idle ∧ FlagsClear t) := by
  cases hr : e.isReset with
  | false => exact .inl (agentStep_cmd ht hb e hr s t h)
  | true =>
    cases e with
    | reset d =>
      obtain ⟨m, m', -, -, rfl⟩ := hostReset_cases d s t h
      exact .inr ⟨rfl, rfl, rfl, rfl⟩
    | _ => cases hr

/-- The run of a command raises what its parts raise, and ends with its word in place or by a reset. -/
theorem runCommand_setBy {turn : State → State} {back : BusReturn → State → State} (hct : ∀ s, (turn s).cmd = s.cmd)
    (hcb : ∀ r s, (back r s).cmd = s.cmd) {w : Byte} (ht : ∀ s, SetBy w s (turn s))
    (hb : ∀ r s, SetBy w s (back r s)) {s t : State} (hbusy : s.cs = .busy) (hw : s.cmd = w)
    (h : runCommand turn back s = .next t) : SetBy w s t ∧ (t.cmd = w ∨ FlagsClear t) := by
  rw [runCommand_busy _ _ _ hbusy] at h
  have keeps : ∀ e u v, True → (SetBy w s u ∧ (u.cmd = w ∨ (u.cs = .idle ∧ FlagsClear u))) → u.cs = .busy →
      agentStep turn back e u = .next v → SetBy w s v ∧ (v.cmd = w ∨ (v.cs = .idle ∧ FlagsClear v)) := by
    rintro e u v - ⟨hset, hcmd⟩ hub hstep
    have huw : u.cmd = w := hcmd.resolve_right fun hi => by cases hub.symm.trans hi.1
    exact ⟨hset.trans (agentStep_setBy (ht u) hb hstep), huw ▸ agentStep_cmd_or_clear hct hcb hstep⟩
  obtain ⟨hset, hcmd⟩ :=
    drive_keeps (fun _ _ hp => hp) keeps s.inputs s t (fun _ _ => trivial) ⟨.refl w s, .inl hw⟩ hbusy h
  exact ⟨hset, hcmd.imp_right And.right⟩

theorem runAccepted_setBy {s t : State} (hbusy : s.cs = .busy) (h : runAccepted s = .next t) :
    SetBy s.cmd s t ∧ (t.cmd = s.cmd ∨ FlagsClear t) := by
  simp only [runAccepted] at h
  cases hd : decode s.cmd with
  | ok i =>
    simp only [hd, exec_eq] at h
    exact runCommand_setBy (turnPart_cmd i) (backPart_cmd i) (fun u => (turnPart_leaves i u).setBy hd)
      (fun r u => setBy_of_backLeaves _ (backPart_leaves i r u)) hbusy rfl h
  | error e =>
    simp only [hd] at h
    exact runCommand_setBy (turn := raise .illegalCommand 0x00) (back := noReturn) (fun _ => rfl) (fun _ _ => rfl)
      (fun _ => .of_lowered id id id rfl) (fun _ u => .refl _ u) hbusy rfl h

/-- A reset at the end raises nothing, so the word may be read from the state that is left. -/
theorem SetBy.at_end {w : Byte} {s t : State} (h : SetBy w s t ∧ (t.cmd = w ∨ FlagsClear t)) : SetBy t.cmd s t := by
  obtain ⟨hset, rfl | ⟨hready, hrun, hstop⟩⟩ := h
  · exact hset
  · obtain ⟨-, -, -, hcfg⟩ := hset
    exact .of_lowered (by simp [hready]) (by simp [hrun]) (by simp [hstop]) hcfg

theorem idleStep_setBy {s t : State} (h : idleStep s = .next t) : SetBy t.cmd s t := by
  simp only [idleStep] at h
  split at h
  · cases h; exact .refl _ _
  · rename_i w es _
    have hrun := runAccepted_setBy (s := accept w (setInputs es s)) rfl h
    exact SetBy.at_end (w := w) hrun
  · rename_i e es _ _
    exact agentStep_setBy (s := setInputs es s) (.refl _ _) (fun _ u => .refl _ u) h

/-- Settles O57: a run raises only its own command's flags, and no other agent raises any. -/
theorem onlyTheirCommandsSetTheFlags : Obligations.OnlyTheirCommandsSetTheFlags := by
  unfold Obligations.OnlyTheirCommandsSetTheFlags
  intro s t h
  cases hc : s.cs with
  | busy => exact SetBy.at_end (runAccepted_setBy hc (step_busy s hc ▸ h))
  | idle => exact idleStep_setBy (step_idle s hc ▸ h)

/-! The host's steps and views, and the reset values (R15, R37 to R40). -/

/-- Settles O44: a pop looks at the queue only, whatever command runs. -/
theorem irqPopTakesTheHead : Obligations.IrqPopTakesTheHead := by
  unfold Obligations.IrqPopTakesTheHead
  intro turn back s
  refine ⟨fun p rest hq => ?_, fun hq => ?_⟩
  · simp only [agentStep, irqPop, hq]
  · simp only [agentStep, irqPop, hq]

/-- The status byte is its fields, put together (R37). -/
theorem status_fields (e : BitVec 3) (b4 b3 b2 b1 b0 : Bool) :
    let w : Byte := e ++ BitVec.ofBool b4 ++ BitVec.ofBool b3 ++ BitVec.ofBool b2 ++ BitVec.ofBool b1 ++ BitVec.ofBool b0
    w.getLsbD 0 = b0 ∧ w.getLsbD 1 = b1 ∧ w.getLsbD 2 = b2 ∧ w.getLsbD 3 = b3 ∧ w.getLsbD 4 = b4 ∧
      w.extractLsb' 5 3 = e := by
  revert e b4 b3 b2 b1 b0
  decide

theorem beq_busy (c : CsState) : (c == .busy) = decide (c = .busy) := by cases c <;> rfl

theorem beq_fired (p : PollState) : (p == .fired) = decide (p = .fired) := by cases p <;> rfl

/-- Settles O45: the fields of the status byte, each the element it names. -/
theorem statusShowsTheFlags : Obligations.StatusShowsTheFlags := by
  unfold Obligations.StatusShowsTheFlags
  refine ⟨fun s => ?_, by decide, rfl, rfl, rfl, rfl⟩
  obtain ⟨hready, hbusy, hrun, hstop, hfired, herr⟩ :=
    status_fields s.pollErr (s.pollState == .fired) s.stopReq s.pollRun (s.cs == .busy) s.ready
  exact ⟨hready, hbusy.trans (beq_busy _), hrun, hstop, hfired.trans (beq_fired _), herr, rfl, rfl, rfl, rfl⟩

/-- Settles O47: each value is the one `State.reset` is defined with. -/
theorem resetStateHasTheResetValues : Obligations.ResetStateHasTheResetValues := by
  unfold Obligations.ResetStateHasTheResetValues
  decide

theorem lockInv_reset : LockInv State.reset := by decide

theorem pollInv_reset : PollInv State.reset := by decide

theorem memInv_reset : MemInv State.reset := ⟨reset_mem_wf, fun c hc => by cases hc⟩

/-- Settles O48: at reset no command runs, nothing is pending and everything is empty. -/
theorem resetMeetsTheInvariants : Obligations.ResetMeetsTheInvariants := by
  unfold Obligations.ResetMeetsTheInvariants
  refine ⟨lockInv_reset, pollInv_reset, HandleInv.discard State.reset, .of_idle rfl rfl, ?_, .of_ne (by decide),
    memInv_reset, ⟨rfl, rfl⟩, ⟨rfl, rfl⟩, default_wf⟩
  exact fun _ _ => Nat.zero_le _

end Sys2Proof.Machine
end

section
/-! Proofs of 20_memory.md, the register file and the transactions: what one completion does to the target, and what every
step keeps of the bytes stored and of the transactions pending (R45, R50 to R58, R61, R64 to R66, R71). -/

namespace Sys2Proof.Machine

/-! A write that happens or not, as a condition says. -/

/-- The register file with register `n` set to `v` if the condition holds. -/
abbrev writeIf (c : Prop) [Decidable c] (n : Reg) (v : Byte) (s : State) : Memory :=
  if c then s.mem.write (regKey s.cfg.regAddr n) v else s.mem

theorem target_writeIf (c : Prop) [Decidable c] (n k : Reg) (v : Byte) {s : State} (hw : s.cfg.regAddr.wf)
    (hm : s.mem.wf) : (setMem (writeIf c n v s) s).target k = if c ∧ k = n then v else s.target k := by
  by_cases hc : c
  · simp only [writeIf, hc, if_true, true_and]
    exact target_setMem_write s hm hw k n v
  · simp only [writeIf, hc, if_false, false_and]
    rfl

theorem read_writeIf_other (c : Prop) [Decidable c] (n : Reg) (v : Byte) (s : State) {a : Nat}
    (ha : c → a ≠ regKey s.cfg.regAddr n) : (writeIf c n v s).read a = s.mem.read a := by
  by_cases hc : c
  · simp only [writeIf, hc, if_true]
    exact Memory.read_write_other _ _ _ _ (ha hc).symm
  · simp only [writeIf, hc, if_false]

/-! The invariants of the register file and of the pending transactions. -/

/-- The register file, the parameters and the pending transactions are the same (R24, R32, R34). -/
abbrev SameBus (s t : State) : Prop :=
  t.mem = s.mem ∧ t.cfg = s.cfg ∧ t.pendCs = s.pendCs ∧ t.pendPs = s.pendPs

theorem finishPart_sameBus (i : Instr) (s : State) : SameBus s (finishPart i s) := by
  cases i with
  | init n =>
    simp only [finishPart, initFinish]
    split <;> simp [SameBus]
  | _ => simp [finishPart, finishOk, readFinish, SameBus]

/-- A local step of the CS issues a transaction of the controller's or leaves the bus alone. -/
theorem TurnLeaves.sameBus_or_issued {i : Instr} {s u : State} (h : TurnLeaves i s u) :
    SameBus s u ∨ ∃ x, issuable s.cfg.regAddr x = true ∧ u = setPend .cs (some x) s := by
  cases h with
  | issue x _ hx =>
    rcases issue_cases .cs x s with h | ⟨-, -, h⟩ <;> rw [h]
    · exact .inl (by simp [SameBus])
    · exact .inr ⟨x, hx, rfl⟩
  | finish _ => exact .inl (finishPart_sameBus i s)
  | _ => exact .inl (by simp [SameBus, pollStarted, pollStopTurn])

theorem BackLeaves.sameBus {i : Instr} {r : BusReturn} {s u : State} (h : BackLeaves i r s u) : SameBus s u := by
  rcases backLeaves_cases h with ⟨e, n, rfl⟩ | rfl | ⟨tx, v, k, a, rfl⟩ <;> simp [SameBus]

/-- A local step of the PS issues a transaction of the controller's, with the bus otherwise alone, or leaves it alone. -/
theorem PsLeaves.sameBus_or_issued {s u : State} (h : PsLeaves s u) :
    SameBus s u ∨ ∃ x, issuable s.cfg.regAddr x = true ∧ SameBus (setPend .ps (some x) s) u := by
  cases h with
  | lock _ _ =>
    rcases issue_cases .ps (.read (s.cfg.regAddr.addr .intf)) (takeLock .ps s) with h | ⟨-, -, h⟩ <;> rw [h]
    · exact .inl (by simp [SameBus])
    · exact .inr ⟨_, issuable_read _ .intf (by decide), by simp [SameBus]⟩
  | capture => exact .inr ⟨_, issuable_read _ .intcap (by decide), by simp [SameBus]⟩
  | _ => exact .inl (by simp [SameBus])

theorem PsBack.sameBus {r : BusReturn} {s u : State} (h : PsBack r s u) : SameBus s u := by
  cases h <;> simp [SameBus, psAck, psFail]

theorem irqPop_sameBus (s : State) : SameBus s (irqPop s) := by
  simp only [irqPop]
  split <;> simp [SameBus]

/-- The induction over `step` for a property of the bus: the pieces of a step that touch the bus are an issue, a completion
and the environment's write. A reset settles each pending transaction as a failing completion does (R158). -/
theorem stepParts_of_bus {P : State → Prop} {E : Event → Prop} (same : ∀ s t, SameBus s t → P s → P t)
    (issued : ∀ who x s, P s → issuable s.cfg.regAddr x = true → P (setPend who (some x) s))
    (completed : ∀ who x m r o s, P s → s.pend who = some x → busRun s.cfg.regAddr s.mem x o = some (m, r) →
      P (setPend who none (setMem m s)))
    (env : ∀ n b s, E (.env n b) → P s → P (envWrite n b s)) : StepParts P E where
  inputs l s h := same s _ (by simp [SameBus]) h
  accept w s h _ := same s _ (by simp [SameBus]) h
  pop s h := same s _ (irqPop_sameBus s) h
  reset d m m' s _ h hc hp := by
    have abandoned : ∀ who took m s, P s → abandon s.cfg.regAddr took s.mem (s.pend who) = some m →
        P (setPend who none (setMem m s)) := by
      intro who took m s h ha
      rcases abandon_effect _ _ _ _ _ ha with ⟨hn, rfl⟩ | ⟨x, r, hx, hr⟩
      · cases who <;> exact same s _ (by simp_all [SameBus, State.pend]) h
      · exact completed who x m r _ s h hx hr
    have hcs := abandoned .cs d.csTook m s h hc
    have hps := abandoned .ps d.psTook m' _ hcs hp
    exact same _ _ (by simp [SameBus, resetController, State.reset]) hps
  turn i s u h _ _ _ _ hu := by
    rcases hu.sameBus_or_issued with hs | ⟨x, hx, rfl⟩
    · exact same s u hs h
    · exact issued .cs x s h hx
  illegal s h _ _ _ := same s _ (by simp [SameBus]) h
  back i x m r o s u h _ _ hx hr _ hu := same _ u hu.sameBus (completed .cs x m r o s h hx hr)
  noBack x m r o s h _ hx hr := completed .cs x m r o s h hx hr
  psTurn s u h hu := by
    rcases hu.sameBus_or_issued with hs | ⟨x, hx, hs⟩
    · exact same s u hs h
    · exact same _ u hs (issued .ps x s h hx)
  psBack x m r o s u h hx hr hu := same _ u hu.sameBus (completed .ps x m r o s h hx hr)
  env n b s he h := env n b s he h

/-! The transactions pending are the controller's own (R50 to R52, R57, R64, R71). -/

/-- A property of the transactions of both sequencers, under the register map, that every transaction the controller issues
has. -/
theorem pending_stepParts {p : RegMap → Txn → Bool} (hp : ∀ rm x, issuable rm x = true → p rm x = true) :
    StepParts (fun s => s.pendCs.all (p s.cfg.regAddr) = true ∧ s.pendPs.all (p s.cfg.regAddr) = true)
      (fun _ => True) := by
  refine stepParts_of_bus ?_ ?_ ?_ (fun _ _ _ _ h => h)
  · rintro s t ⟨-, hcfg, hc, hps⟩ h
    simpa only [hcfg, hc, hps] using h
  · rintro (_ | _) x s ⟨hc, hps⟩ hx
    · exact ⟨hp _ _ hx, hps⟩
    · exact ⟨hc, hp _ _ hx⟩
  · rintro (_ | _) x m r o s ⟨hc, hps⟩ - -
    · exact ⟨rfl, hps⟩
    · exact ⟨hc, rfl⟩

theorem pendIssuable_stepParts : StepParts PendIssuable (fun _ => True) := pending_stepParts fun _ _ h => h

theorem pendMapped_stepParts : StepParts PendMapped (fun _ => True) := pending_stepParts mapped_of_issuable

theorem PendIssuable.pend {s : State} (h : PendIssuable s) {who : Sequencer} {x : Txn} (hx : s.pend who = some x) :
    issuable s.cfg.regAddr x = true := by
  obtain ⟨hc, hp⟩ := h
  cases who with
  | cs => simpa [show s.pendCs = some x from hx] using hc
  | ps => simpa [show s.pendPs = some x from hx] using hp

/-- Settles O54, by the induction over `step`: a transaction becomes pending only when a sequencer issues it. -/
theorem stepIssuesOnlyItsTransactions : Obligations.StepIssuesOnlyItsTransactions := by
  unfold Obligations.StepIssuesOnlyItsTransactions
  exact fun s t h hstep => pendIssuable_stepParts.step s t (fun _ _ => trivial) h hstep

/-! The register file (R45, R71). -/

/-- A write of a register keeps the register file canonical and within the registers' addresses. -/
theorem MemInv.write {s : State} (h : MemInv s) (n : Reg) (v : Byte) :
    MemInv (setMem (s.mem.write (regKey s.cfg.regAddr n) v) s) := by
  obtain ⟨hwf, haddr⟩ := h
  refine ⟨Memory.write_wf _ hwf _ _, fun c hc => ?_⟩
  rcases Memory.mem_write _ _ _ c hc with hold | ⟨rfl, -⟩
  · exact haddr c hold
  · exact List.mem_map_of_mem (Reg.mem_all n)

theorem MemInv.busRun {s : State} {x : Txn} {m : Memory} {r : BusReturn} {o : BusOutcome} (h : MemInv s)
    (hr : busRun s.cfg.regAddr s.mem x o = some (m, r)) : MemInv (setMem m s) := by
  rcases busRun_effect _ _ _ _ _ _ hr with rfl | ⟨n, v, -, rfl⟩ | ⟨n, -, -, rfl⟩
  · exact h
  · exact h.write n v
  · exact h.write .intf 0x00

theorem memInv_stepParts : StepParts MemInv (fun _ => True) := by
  refine stepParts_of_bus ?_ ?_ ?_ (fun n b s _ h => h.write n b)
  · rintro s t ⟨hm, hcfg, -, -⟩ h
    simpa only [MemInv, hm, hcfg] using h
  · rintro (_ | _) x s h - <;> exact h
  · rintro (_ | _) x m r o s h - hr <;> exact h.busRun hr

/-- Settles O52, by the induction over `step`: every byte stored is stored at the address of a register, by the one
operation that keeps the canonical form. -/
theorem stepKeepsTheRegisterFile : Obligations.StepKeepsTheRegisterFile := by
  unfold Obligations.StepKeepsTheRegisterFile
  exact fun s t h hstep => memInv_stepParts.step s t (fun _ _ => trivial) h hstep

/-! The registers only the environment changes (R50, R52, R55, R57). -/

/-- A write the controller issues names a register it writes. -/
theorem mem_writable_of_issuable {rm : RegMap} (hw : rm.wf) {n : Reg} {v : Byte}
    (h : issuable rm (.write (rm.addr n) v) = true) : n ∈ writable := by
  simp only [issuable, List.contains_iff_mem, List.mem_map] at h
  obtain ⟨k, hk, e⟩ := h
  exact addr_inj rm hw k n e ▸ hk

/-- A transaction of the controller's leaves every register alone but those it writes and INTF. -/
theorem busRun_read_unwritable {rm : RegMap} (hw : rm.wf) {x : Txn} (hx : issuable rm x = true) {n : Reg}
    (hn : n ∉ writable) (hf : n ≠ .intf) {m m' : Memory} {o : BusOutcome} {r : BusReturn}
    (h : busRun rm m x o = some (m', r)) : m'.read (regKey rm n) = m.read (regKey rm n) := by
  rcases busRun_effect rm m m' x o r h with rfl | ⟨k, v, rfl, rfl⟩ | ⟨k, -, -, rfl⟩
  · rfl
  · have hkn : k ≠ n := fun e => hn (e ▸ mem_writable_of_issuable hw hx)
    exact Memory.read_write_other _ _ _ _ (regKey_ne rm hw hkn)
  · exact Memory.read_write_other _ _ _ _ (regKey_ne rm hw hf.symm)

/-- While TE takes no step, a register the controller does not write, INTF apart, keeps its byte `b`. -/
theorem unwritable_stepParts {n : Reg} (hn : n ∉ writable) (hf : n ≠ .intf) (b : Byte) :
    StepParts (fun s => s.cfg.regAddr.wf ∧ PendIssuable s ∧ s.target n = b) (fun e => e.isEnv = false) := by
  refine stepParts_of_bus ?_ ?_ ?_ (fun _ _ _ he => by cases he)
  · rintro s t ⟨hm, hcfg, hc, hp⟩ h
    simpa only [PendIssuable, State.target, hm, hcfg, hc, hp] using h
  · rintro (_ | _) x s ⟨hw, ⟨hc, hp⟩, ht⟩ hx
    · exact ⟨hw, ⟨hx, hp⟩, ht⟩
    · exact ⟨hw, ⟨hc, hx⟩, ht⟩
  · rintro who x m r o s ⟨hw, hi, ht⟩ hx hr
    have hread : m.read (regKey s.cfg.regAddr n) = b := (busRun_read_unwritable hw (hi.pend hx) hn hf hr).trans ht
    cases who
    · exact ⟨hw, ⟨rfl, hi.2⟩, hread⟩
    · exact ⟨hw, ⟨hi.1, rfl⟩, hread⟩

/-- Settles O56, by the induction over `step`: the controller writes six other registers, a read of INTCAP clears INTF alone,
and what a reset abandons is one of its transactions. -/
theorem untouchedRegistersChangeOnlyByTheEnvironment : Obligations.UntouchedRegistersChangeOnlyByTheEnvironment := by
  unfold Obligations.UntouchedRegistersChangeOnlyByTheEnvironment
  intro s t n hn hw _ hi hq hstep
  have named : ∀ n ∈ [Reg.defval, .iocon, .intcap, .olat], n ∉ writable ∧ n ≠ .intf := by decide
  obtain ⟨hnw, hnf⟩ := named n hn
  obtain ⟨-, -, ht⟩ := (unwritable_stepParts hnw hnf (s.target n)).step s t hq ⟨hw, hi, rfl⟩ hstep
  exact ht

/-! One completion, for either sequencer (R58, R61, R64, R65), and the environment's step (R66). -/

/-- Settles O30: the one write of R64. -/
theorem completedWriteSetsItsRegister : Obligations.CompletedWriteSetsItsRegister := by
  unfold Obligations.CompletedWriteSetsItsRegister
  intro who back n v s hw hm hp
  exact ⟨_, completeTxn_eq who back .ok s _ _ _ hp (busRun_write_ok _ _ n v),
    fun k => target_setMem_write s hm hw k n v, fun a ha => Memory.read_write_other _ _ _ _ ha.symm⟩

/-- Settles O31: the byte read, and the one side effect of R65. -/
theorem completedReadReturnsItsRegister : Obligations.CompletedReadReturnsItsRegister := by
  unfold Obligations.CompletedReadReturnsItsRegister
  intro who back n s hw hm hp
  exact ⟨writeIf (n = .intcap) .intf 0 s, completeTxn_eq who back .ok s _ _ _ hp (busRun_read_ok _ hw _ n),
    fun k => target_writeIf _ .intf k 0 hw hm, fun a ha => read_writeIf_other _ .intf 0 s ha⟩

/-- Settles O32: the effect an OK would have had happens exactly when it is drawn, and ERR is returned either way. -/
theorem failedTransactionMayTakeEffect : Obligations.FailedTransactionMayTakeEffect := by
  unfold Obligations.FailedTransactionMayTakeEffect
  intro who back took n v s hw hm
  refine ⟨fun hp => ?_, fun hp => ?_⟩
  · exact ⟨writeIf (took = true) n v s, completeTxn_eq who back _ s _ _ _ hp (busRun_write_err _ _ n v took),
      fun k => target_writeIf _ n k v hw hm, fun a ha => read_writeIf_other _ n v s (fun _ => ha)⟩
  · refine ⟨writeIf (took = true ∧ n = .intcap) .intf 0 s,
      completeTxn_eq who back _ s _ _ _ hp (busRun_read_err _ hw _ n took), fun k => ?_, fun a ha => ?_⟩
    · simpa only [and_assoc] using target_writeIf (took = true ∧ n = .intcap) .intf k 0 hw hm
    · exact read_writeIf_other _ .intf 0 s (fun hc => ha hc.2)

/-- Settles O33: an environment step is one write of the register file, whatever runs. -/
theorem environmentSetsAnyRegister : Obligations.EnvironmentSetsAnyRegister := by
  unfold Obligations.EnvironmentSetsAnyRegister
  intro turn back n b s hw hm
  exact ⟨envWrite n b s, rfl, rfl, fun k => target_setMem_write s hm hw k n b⟩

end Sys2Proof.Machine
end

section
/-! Proofs of 20_memory.md, a running command and its transactions: a command whose transaction hangs stalls (R62, R169),
and a command that is served ends (R62, R132, R133, R144). -/

namespace Sys2Proof.Machine

/-! The running command by its word (R76, R88). -/

/-- The CS's local step of the command a word decodes to, or of an illegal one. -/
def wordTurn (w : Byte) : State → State :=
  match decode w with
  | .ok i => turnPart i
  | .error _ => raise .illegalCommand 0x00

/-- What the CS does with an outcome during the command a word decodes to. -/
def wordBack (w : Byte) : BusReturn → State → State :=
  match decode w with
  | .ok i => backPart i
  | .error _ => noReturn

theorem wordTurn_ok {w : Byte} {i : Instr} (h : decode w = .ok i) : wordTurn w = turnPart i := by
  simp only [wordTurn, h]

theorem wordBack_ok {w : Byte} {i : Instr} (h : decode w = .ok i) : wordBack w = backPart i := by
  simp only [wordBack, h]

theorem wordTurn_cmd (w : Byte) (s : State) : (wordTurn w s).cmd = s.cmd := by
  unfold wordTurn
  cases decode w with
  | ok i => exact turnPart_cmd i s
  | error r => rfl

theorem wordBack_cmd (w : Byte) (r : BusReturn) (s : State) : (wordBack w r s).cmd = s.cmd := by
  unfold wordBack
  cases decode w with
  | ok i => exact backPart_cmd i r s
  | error _ => rfl

/-- One agent's step while the command in `c.cmd` runs. -/
def commandStep (e : Event) (s : State) : Result := agentStep (wordTurn s.cmd) (wordBack s.cmd) e s

/-- The command in `c.cmd` run through a schedule. -/
def runOn (l : List Event) (s : State) : Result := drive (wordTurn s.cmd) (wordBack s.cmd) l s

theorem runAccepted_eq_runOn {s : State} (hb : s.cs = .busy) : runAccepted s = runOn s.inputs s := by
  simp only [runAccepted, runOn, wordTurn, wordBack]
  cases decode s.cmd with
  | ok i => exact exec_busy i s hb
  | error r => exact runCommand_busy _ _ s hb

theorem commandStep_cmd {e : Event} (he : e.isReset = false) {s t : State} (h : commandStep e s = .next t) :
    t.cmd = s.cmd :=
  agentStep_cmd (wordTurn_cmd _) (wordBack_cmd _) e he s t h

theorem runOn_cons {e : Event} (he : e.isReset = false) {es : List Event} {s t : State}
    (h : commandStep e (setInputs es s) = .next t) :
    runOn (e :: es) s = if t.cs = .idle then .next t else runOn es t := by
  have hcmd : t.cmd = s.cmd := commandStep_cmd (s := setInputs es s) he h
  simp only [runOn, hcmd]
  exact drive_cons _ _ e es s t h

/-- What the pieces of an agent's step keep, a step while a command runs keeps. -/
theorem StepParts.commandStep {P : State → Prop} {E : Event → Prop} (hP : StepParts P E) {e : Event} {s t : State}
    (he : E e) (hp : P s) (hb : s.cs = .busy) (h : commandStep e s = .next t) : P t := by
  cases hd : decode s.cmd with
  | ok i =>
    simp only [Machine.commandStep, wordTurn_ok hd, wordBack_ok hd] at h
    exact hP.agentStep e s t he hp (fun hn => hP.turn i s _ hp hb hd hn rfl (turnPart_leaves i s))
      (fun x m r o hx hr => hP.back i x m r o s _ hp hb hd hx hr rfl (backPart_leaves i r _)) h
  | error r =>
    simp only [Machine.commandStep, wordTurn, wordBack, hd] at h
    exact hP.agentStep e s t he hp (fun hn => hP.illegal s hp hb ⟨r, hd⟩ hn)
      (fun x m r' o hx hr => hP.noBack x m r' o s hp (.inr ⟨r, hd⟩) hx hr) h

/-! No agent's step stops the machine while the pending transactions name registers (R71, R131). -/

theorem busRun_answers {rm : RegMap} {x : Txn} (hx : mapped rm x = true) (m : Memory) (o : BusOutcome) :
    ∃ m' r, busRun rm m x o = some (m', r) := by
  obtain ⟨⟨m', r⟩, h⟩ := Option.isSome_iff_exists.1 ((busRun_isSome rm m x o).trans hx)
  exact ⟨m', r, h⟩

theorem abandon_answers {rm : RegMap} {p : Option Txn} (hp : p.all (mapped rm) = true) (took : Bool) (m : Memory) :
    ∃ m', abandon rm took m p = some m' := by
  cases p with
  | none => exact ⟨m, rfl⟩
  | some x =>
    obtain ⟨m', r, hr⟩ := busRun_answers (by simpa using hp) m (.err took)
    exact ⟨m', by simp only [abandon, hr]⟩

theorem PendMapped.pend {s : State} (h : PendMapped s) {who : Sequencer} {x : Txn} (hx : s.pend who = some x) :
    mapped s.cfg.regAddr x = true := by
  obtain ⟨hc, hp⟩ := h
  cases who with
  | cs => simpa [show s.pendCs = some x from hx] using hc
  | ps => simpa [show s.pendPs = some x from hx] using hp

theorem completeTxn_answers {s : State} (h : PendMapped s) (who : Sequencer) (back : BusReturn → State → State)
    (o : BusOutcome) : ∃ t, completeTxn who back o s = .next t := by
  cases hx : s.pend who with
  | none => exact ⟨s, by simp only [completeTxn, hx]⟩
  | some x =>
    obtain ⟨m, r, hr⟩ := busRun_answers (h.pend hx) s.mem o
    exact ⟨_, completeTxn_eq who back o s x m r hx hr⟩

theorem agentStep_answers {s : State} (h : PendMapped s) (turn : State → State) (back : BusReturn → State → State)
    (e : Event) : ∃ t, agentStep turn back e s = .next t := by
  cases e with
  | reset d =>
    obtain ⟨m, hm⟩ := abandon_answers h.1 d.csTook s.mem
    obtain ⟨m', hm'⟩ := abandon_answers h.2 d.psTook m
    exact ⟨resetController d (setMem m' s), by simp only [agentStep, hostReset, hm, hm']⟩
  | complete who o =>
    cases who with
    | cs => exact completeTxn_answers h .cs back o
    | ps => exact completeTxn_answers h .ps psReturn o
  | _ => exact ⟨_, rfl⟩

theorem commandStep_answers {s : State} (h : PendMapped s) (e : Event) : ∃ t, commandStep e s = .next t :=
  agentStep_answers h _ _ e

/-! Another agent's step leaves the running command, its transaction and its hold on the lock alone. -/

theorem agentStep_sameCommand {turn : State → State} {back : BusReturn → State → State} {e : Event} {s t : State}
    (he : e.ofCommand = false) (hr : e.isReset = false) (h : agentStep turn back e s = .next t) :
    SameCommand s t ∧ (t.owner = .cs ↔ s.owner = .cs) := by
  cases e with
  | submit w => cases h; simp [SameCommand]
  | pop =>
    cases h
    refine ⟨(irqPop_sameCommand s).2, ?_⟩
    simp only [irqPop]
    split <;> rfl
  | reset d => cases hr
  | csTurn => cases he
  | psTurn =>
    cases h
    have hu := psTurn_leaves s
    exact ⟨hu.sameCommand.2, hu.owner_cs⟩
  | complete who o =>
    cases who with
    | cs => cases he
    | ps =>
      rcases completeTxn_cases .ps psReturn o s t h with ⟨-, rfl⟩ | ⟨x, m, r, -, -, rfl⟩
      · simp [SameCommand]
      · have hu := psReturn_leaves r (setPend .ps none (setMem m s))
        exact ⟨hu.sameCommand.2, hu.owner_cs⟩
  | env n b => cases h; simp [envWrite, SameCommand]

/-- While its transaction is pending the CS takes no local step (R58). -/
theorem agentStep_csTurn_pending {turn : State → State} {back : BusReturn → State → State} {s t : State} {x : Txn}
    (hx : s.pendCs = some x) (h : agentStep turn back .csTurn s = .next t) : t = s := by
  simp only [agentStep, hx] at h
  cases h
  rfl

/-- Settles O34, by the induction over the run: the CS waits for its transaction, and no other agent touches the running
command, its transaction or its lock. -/
theorem hungTransactionStallsTheCommand : Obligations.HungTransactionStallsTheCommand := by
  unfold Obligations.HungTransactionStallsTheCommand
  intro i s t x hb hx ho hreset hcomplete h
  rw [exec_busy i s hb] at h
  refine drive_keeps (P := fun u => u.cs = .busy ∧ u.pendCs = some x ∧ u.owner = .cs ∧ u.tx = s.tx)
    (E := fun e => e.isReset = false ∧ e.completesCs = false) (fun _ _ hu => hu) ?_ s.inputs s t
    (fun e he => ⟨hreset e he, hcomplete e he⟩) ⟨hb, hx, ho, rfl⟩ hb h
  rintro e u v ⟨hr, hc⟩ ⟨hub, hux, huo, hutx⟩ - hstep
  cases hof : e.ofCommand with
  | false =>
    obtain ⟨⟨hcs, -, htx, -, -, -, hpend, -⟩, hown⟩ := agentStep_sameCommand hof hr hstep
    exact ⟨hcs.trans hub, hpend.trans hux, hown.2 huo, htx.trans hutx⟩
  | true =>
    have hturn : e = .csTurn := by
      cases e with
      | csTurn => rfl
      | complete who o => cases who <;> simp [Event.ofCommand, Event.completesCs] at hof hc
      | _ => cases hof
    subst hturn
    rw [agentStep_csTurn_pending hux hstep]
    exact ⟨hub, hux, huo, hutx⟩

end Sys2Proof.Machine
end

section
/-! Proofs of 20_memory.md, a served command ends (R62, R132, R133, R144): a rank of the CS's position that every step of the
CS lowers, whatever the scratch holds. -/

namespace Sys2Proof.Machine

/-! The transaction whose turn it is. -/

/-- The transactions of a command in order, by the CS scratch (R21). -/
def txnPart : Instr → State → Option Txn
  | .init n => initTxn n
  | .read _ => readTxn
  | .setOn p => rmwTxn .port (fun v => v ||| mask p)
  | .setOff p => rmwTxn .port (fun v => v &&& nmask p)
  | .toggle p => rmwTxn .port (fun v => v ^^^ mask p)
  | .allOn => portWriteTxn (fun s => allMask s.pinCount.toNat)
  | .allOff => portWriteTxn (fun _ => 0x00)
  | .cfgInIrq p => cfgTxn p
  | .pollStart | .pollStop => fun _ => none

/-- A command with transactions takes them, and ends, in the frame of R74, R132. -/
theorem turnPart_frame {i : Instr} (hi : i ≠ .pollStart ∧ i ≠ .pollStop) :
    ∃ start, turnPart i = commandTurn start (txnPart i) (finishPart i) := by
  obtain ⟨hstart, hstop⟩ := hi
  cases i with
  | pollStart => exact absurd rfl hstart
  | pollStop => exact absurd rfl hstop
  | _ => exact ⟨_, rfl⟩

/-- How many transactions a command has; INIT's depend on its count. -/
def txnCount : Instr → Nat
  | .read _ | .allOn | .allOff => 1
  | .setOn _ | .setOff _ | .toggle _ => 2
  | .cfgInIrq _ => 8
  | .init _ | .pollStart | .pollStop => 0

/-- The pins INIT reads into the snapshot (R91, R93). -/
def snapReads (n : Nat) : Nat := if legalCount n then n else 0

theorem snapReads_le (n : Nat) : snapReads n ≤ 8 := by
  simp only [snapReads]
  split
  · rename_i h
    exact ((legalCount_iff n).1 h).2
  · exact Nat.zero_le 8

/-- INIT's transactions left at `c.tx` and `c.i`, of which `reads` are reads. The reads go by `c.i`; when `c.tx`, a byte,
passes 255 before they are done, INIT starts again with its three writes. -/
def initLeft (reads tx i : Nat) : Nat :=
  if tx < 3 then 3 - tx + reads
  else if 256 ≤ tx + (reads - i) then 256 - tx + 3 + reads
  else reads - i

/-- The transactions left of a command at `c.tx` and `c.i`. -/
def txnsLeft (i : Instr) (tx k : Nat) : Nat :=
  match i with
  | .init n => initLeft (snapReads n) tx k
  | i => txnCount i - tx

theorem txnsLeft_of_ne_init {i : Instr} (hi : ∀ n, i ≠ .init n) (tx k : Nat) : txnsLeft i tx k = txnCount i - tx := by
  cases i with
  | init n => exact absurd rfl (hi n)
  | _ => rfl

theorem initLeft_le {reads : Nat} (h : reads ≤ 8) (tx i : Nat) : initLeft reads tx i ≤ 19 := by
  simp only [initLeft]
  split_ifs <;> omega

theorem txnsLeft_le (i : Instr) (tx k : Nat) : txnsLeft i tx k ≤ 19 := by
  cases i with
  | init n => exact initLeft_le (snapReads_le n) tx k
  | _ => exact (Nat.sub_le _ _).trans (by simp [txnCount])

/-- The transactions left of the command in `c.cmd`. -/
def wordTxnsLeft (s : State) : Nat :=
  match decode s.cmd with
  | .ok i => txnsLeft i s.tx.toNat s.i
  | .error _ => 0

theorem wordTxnsLeft_le (s : State) : wordTxnsLeft s ≤ 19 := by
  unfold wordTxnsLeft
  cases decode s.cmd with
  | ok i => exact txnsLeft_le _ _ _
  | error _ => exact Nat.zero_le _

/-- The rank of the CS's position: each round of a CS step and a completion lowers it. -/
def roundsLeft (s : State) : Nat :=
  match s.phase with
  | .start => wordTxnsLeft s + 4
  | .acquire => wordTxnsLeft s + 3
  | .body => wordTxnsLeft s + 2
  | .respond => 1

theorem roundsLeft_pos (s : State) : 0 < roundsLeft s := by
  simp only [roundsLeft]
  cases s.phase <;> simp

theorem roundsLeft_le (s : State) : roundsLeft s ≤ 23 := by
  have hleft := wordTxnsLeft_le s
  simp only [roundsLeft]
  cases s.phase <;> simp only <;> omega

theorem roundsLeft_congr {s t : State} (h : SameCommand s t) : roundsLeft t = roundsLeft s := by
  obtain ⟨-, hcmd, htx, hi, -, hphase, -, -⟩ := h
  simp only [roundsLeft, wordTxnsLeft, hcmd, htx, hi, hphase]

theorem roundsLeft_body {s : State} {i : Instr} (hd : decode s.cmd = .ok i) (hp : s.phase = .body) :
    roundsLeft s = txnsLeft i s.tx.toNat s.i + 2 := by
  simp only [roundsLeft, wordTxnsLeft, hd, hp]

/-- The transaction is the one whose turn it was at this `c.tx` and `c.i`. -/
def Due (s : State) (x : Txn) : Prop :=
  ∃ i u, decode s.cmd = .ok i ∧ u.tx = s.tx ∧ u.i = s.i ∧ txnPart i u = some x

theorem Due.congr {s t : State} {x : Txn} (hc : SameCommand s t) (h : Due s x) : Due t x := by
  obtain ⟨-, hcmd, htx, hi, -⟩ := hc
  simpa only [Due, hcmd, htx, hi] using h

/-! A local step of the CS. -/

/-- At `acquire()` the CS has neither a transaction nor the lock. -/
theorem LockInv.at_acquire {s : State} (hl : LockInv s) (hp : s.phase = .acquire) :
    s.pendCs = none ∧ s.owner ≠ .cs := by
  obtain ⟨⟨hown, hpend, -⟩, -⟩ := (lockInv_iff s).1 hl
  have ho : s.owner ≠ .cs := by simp [hown, hp]
  exact ⟨by_contra fun hn => ho (hpend hn), ho⟩

theorem hasTransactions_decode {w : Byte} (h : hasTransactions w = true) :
    ∃ i, decode w = .ok i ∧ i ≠ .pollStart ∧ i ≠ .pollStop := by
  cases hd : decode w with
  | ok i => exact ⟨i, rfl, (hasTransactions_iff hd).1 h⟩
  | error r => simp [hasTransactions, hd] at h

/-- All a local step of the CS can do to the command's position. -/
inductive TurnMoves (s : State) : State → Prop
  | ends {u : State} (hi : u.cs = .idle) : TurnMoves s u
  | waits (hp : s.phase = .acquire) (ho : s.owner ≠ .free) : TurnMoves s s
  | issues (x : Txn) (hp : s.phase = .body) (hx : Due s x) : TurnMoves s (setPend .cs (some x) s)
  | advances {u : State} (hr : roundsLeft u < roundsLeft s) (hn : u.pendCs = none) : TurnMoves s u

theorem turnMoves_body {i : Instr} {s : State} (hd : decode s.cmd = .ok i) (hi : i ≠ .pollStart ∧ i ≠ .pollStop)
    (hp : s.phase = .body) (ho : s.owner = .cs) (hn : s.pendCs = none) : TurnMoves s (turnPart i s) := by
  obtain ⟨start, hframe⟩ := turnPart_frame hi
  simp only [hframe, commandTurn, hp]
  cases hx : txnPart i s with
  | some x =>
    have hc : canIssue .cs s = true := by simp [canIssue, State.pend, Sequencer.owner, ho, hn]
    simp only [issue, hc, if_true]
    exact .issues x hp ⟨i, s, hd, rfl, rfl, hx⟩
  | none =>
    refine .advances ?_ hn
    rw [roundsLeft_body hd hp]
    simp [roundsLeft]

/-- Under the lock discipline a step of the CS with nothing pending ends the command, waits for the lock, issues the
transaction whose turn it is, or goes on to a position of lower rank. -/
theorem wordTurn_moves {s : State} (hl : LockInv s) (hb : s.cs = .busy) (hn : s.pendCs = none) :
    TurnMoves s (wordTurn s.cmd s) := by
  obtain ⟨⟨hown, -, htx⟩, -⟩ := (lockInv_iff s).1 hl
  cases hd : decode s.cmd with
  | error r => simp only [wordTurn, hd]; exact .ends rfl
  | ok i =>
    rw [wordTurn_ok hd]
    by_cases hp : s.phase = .body
    · have hi := (hasTransactions_iff hd).1 (htx hb (by simp [hp]))
      exact turnMoves_body hd hi hp (hown.2 ⟨hb, hp⟩) hn
    · have hu := turnPart_leaves i s
      generalize turnPart i s = u at hu
      cases hu with
      | refuse | startRefused | started | stop => exact .ends rfl
      | check hs | discard _ _ hs | lock hs => exact .advances (by simp [roundsLeft, wordTxnsLeft, hs]) hn
      | wait ha ho => exact .waits ha ho
      | issue _ hs | unlock hs => exact absurd hs hp
      | finish => exact .ends (finishPart_idle i s).1

/-! An outcome returned to the CS. -/

theorem txnPart_lt {i : Instr} (hi : ∀ n, i ≠ .init n) {s : State} {x : Txn} (h : txnPart i s = some x) :
    s.tx.toNat < txnCount i ∧ txnCount i ≤ 8 := by
  have rmw : ∀ {n g}, rmwTxn n g s = some x → s.tx.toNat < 2 := by
    intro n g h
    simp only [rmwTxn] at h
    split_ifs at h <;> bv_omega
  have one : ∀ {g}, portWriteTxn g s = some x → s.tx.toNat < 1 := by
    intro g h
    simp only [portWriteTxn] at h
    split_ifs at h
    bv_omega
  cases i with
  | init n => exact absurd rfl (hi n)
  | read p =>
    simp only [txnPart, readTxn] at h
    split_ifs at h
    exact ⟨by simp only [txnCount]; bv_omega, by simp [txnCount]⟩
  | setOn p | setOff p | toggle p =>
    simp only [txnPart] at h
    exact ⟨rmw h, by simp [txnCount]⟩
  | allOn | allOff =>
    simp only [txnPart] at h
    exact ⟨one h, by simp [txnCount]⟩
  | cfgInIrq p =>
    refine ⟨?_, by simp [txnCount]⟩
    simp only [txnPart, cfgTxn] at h
    split at h
    · cases h
    · rename_i n hn
      obtain ⟨hlt, -⟩ := List.getElem?_eq_some_iff.1 hn
      simp only [cfgOrder, List.length_cons, List.length_nil] at hlt
      simp only [txnCount]
      omega
  | pollStart => cases h
  | pollStop => cases h

/-- INIT's transactions by `c.tx` and `c.i`: three writes, then reads while a pin is left (R90, R91). -/
theorem initTxn_due {n : Nat} {s : State} {x : Txn} (h : initTxn n s = some x) :
    (s.tx.toNat < 3 ∧ ∃ a v, x = .write a v) ∨ (3 ≤ s.tx.toNat ∧ s.i < snapReads n ∧ ∃ a, x = .read a) := by
  rcases initTxn_cases h with hw | ⟨h3, hi, a, rfl⟩
  · exact .inl hw
  · refine .inr ⟨h3, ?_, a, rfl⟩
    cases hl : legalCount n with
    | true => simpa [snapReads, hl] using hi
    | false =>
      simp only [initTxn, hl, Bool.false_and, Bool.false_eq_true, if_false] at h
      split_ifs at h <;> cases h

theorem initLeft_write {reads tx i k : Nat} (h : reads ≤ 8) (h3 : tx < 3) :
    initLeft reads (tx + 1) k < initLeft reads tx i := by
  simp only [initLeft]
  split_ifs <;> omega

theorem initLeft_read {reads tx i : Nat} (h : reads ≤ 8) (h3 : 3 ≤ tx) (htx : tx < 256) (hi : i < reads) :
    initLeft reads ((tx + 1) % 256) (i + 1) < initLeft reads tx i := by
  simp only [initLeft]
  split_ifs <;> omega

theorem initOk_position (n : Nat) (r : BusReturn) (s : State) :
    (initOk n r s).cmd = s.cmd ∧ (initOk n r s).phase = s.phase ∧ (initOk n r s).tx = s.tx + 1 := by
  obtain ⟨a, k, hu⟩ := initOk_eq n r s
  rw [hu]
  exact ⟨rfl, rfl, rfl⟩

/-- An OK outcome lowers what is left of INIT, when the transaction was the one whose turn it was. -/
theorem initOk_lowers {n : Nat} {u s : State} {x : Txn} {r : BusReturn} (htx : u.tx = s.tx) (hi : u.i = s.i)
    (hx : initTxn n u = some x) (hr : (∃ a v, x = .write a v) ∧ r = .wrote ∨ (∃ a, x = .read a) ∧ ∃ b, r = .data b) :
    txnsLeft (.init n) (initOk n r s).tx.toNat (initOk n r s).i < txnsLeft (.init n) s.tx.toNat s.i := by
  have hreads := snapReads_le n
  have hbyte := s.tx.isLt
  have hdue := initTxn_due hx
  rw [htx, hi] at hdue
  simp only [txnsLeft]
  rcases hr with ⟨⟨a, v, rfl⟩, rfl⟩ | ⟨⟨a, rfl⟩, b, rfl⟩
  · have h3 : s.tx.toNat < 3 := by simpa using hdue
    obtain ⟨-, -, htx'⟩ := initOk_position n .wrote s
    have hnext : (s.tx + 1).toNat = s.tx.toNat + 1 := by bv_omega
    rw [htx', hnext]
    exact initLeft_write hreads h3
  · obtain ⟨h3, hlt⟩ : 3 ≤ s.tx.toNat ∧ s.i < snapReads n := by simpa using hdue
    exact initLeft_read hreads h3 hbyte hlt

theorem busRun_ok_return {rm : RegMap} {m m' : Memory} {x : Txn} {o : BusOutcome} {r : BusReturn} (hr : r ≠ .err)
    (h : busRun rm m x o = some (m', r)) :
    (∃ a v, x = .write a v) ∧ r = .wrote ∨ (∃ a, x = .read a) ∧ ∃ b, r = .data b := by
  rcases busRun_return _ _ _ _ _ _ h with ⟨_, -, rfl⟩ | ⟨-, hw, rfl⟩ | ⟨-, a, rfl, rfl⟩
  · exact absurd rfl hr
  · exact .inl ⟨hw, rfl⟩
  · exact .inr ⟨⟨a, rfl⟩, _, rfl⟩

/-- The outcome of a transaction whose turn it was ends the command or lowers its rank. -/
theorem wordBack_lowers {s : State} {x : Txn} {m : Memory} {o : BusOutcome} {r : BusReturn} (hp : s.phase = .body)
    (hx : Due s x) (hr : busRun s.cfg.regAddr s.mem x o = some (m, r)) {u : State}
    (hu : u = wordBack s.cmd r (setPend .cs none (setMem m s))) : u.cs = .idle ∨ roundsLeft u < roundsLeft s := by
  obtain ⟨i, v, hd, htx, hi, hv⟩ := hx
  rw [wordBack_ok hd] at hu
  have hl := backPart_leaves i r (setPend .cs none (setMem m s))
  rw [← hu] at hl
  clear hu
  cases hl with
  | fail e n => exact .inl rfl
  | discard n => exact .inl rfl
  | count hni _ =>
    right
    obtain ⟨hlt, h8⟩ := txnPart_lt hni hv
    rw [htx] at hlt
    rw [roundsLeft_body hd hp, roundsLeft_body (s := advance r (setPend .cs none (setMem m s))) hd hp,
      txnsLeft_of_ne_init hni, txnsLeft_of_ne_init hni]
    have hnext : (s.tx + 1).toNat = s.tx.toNat + 1 := by bv_omega
    simp only [advance_tx, setPend_cs_tx, setMem_tx, hnext]
    omega
  | snapshot n hn hne =>
    right
    subst hn
    have hlow := initOk_lowers (s := setPend .cs none (setMem m s)) htx hi hv (busRun_ok_return hne hr)
    obtain ⟨hcmd, hphase, -⟩ := initOk_position n r (setPend .cs none (setMem m s))
    rw [roundsLeft_body hd hp, roundsLeft_body (by rw [hcmd]; exact hd) (hphase.trans hp)]
    exact Nat.add_lt_add_right hlow 2
  | none hi =>
    rcases hi with rfl | rfl <;> cases hv

/-! One round: a CS step and an OK completion. -/

/-- The lock discipline holds, the pending transactions name registers, and the PS does not hold the lock. -/
abbrev Unhindered (s : State) : Prop := LockInv s ∧ PendMapped s ∧ s.owner ≠ .ps

theorem wordTurn_owner_ps (w : Byte) (s : State) : (wordTurn w s).owner = .ps ↔ s.owner = .ps := by
  unfold wordTurn
  cases decode w with
  | ok i => exact (turnPart_leaves i s).owner_ps
  | error r => exact raise_owner_ps _ _ s

theorem wordBack_owner_ps (w : Byte) (r : BusReturn) (s : State) : (wordBack w r s).owner = .ps ↔ s.owner = .ps := by
  unfold wordBack
  cases decode w with
  | ok i => exact (backPart_leaves i r s).owner_ps
  | error _ => exact Iff.rfl

theorem wordBack_pendCs (w : Byte) (r : BusReturn) (s : State) : (wordBack w r s).pendCs = s.pendCs := by
  unfold wordBack
  cases decode w with
  | ok i => exact backLeaves_pendCs (backPart_leaves i r s)
  | error _ => rfl

theorem commandStep_csTurn {s : State} (hn : s.pendCs = none) : commandStep .csTurn s = .next (wordTurn s.cmd s) := by
  simp only [commandStep, agentStep, hn, if_true]

/-- A completion for the CS: nothing was pending, or the outcome went to the command. -/
theorem commandStep_complete {s t : State} {o : BusOutcome} (h : commandStep (.complete .cs o) s = .next t) :
    (s.pendCs = none ∧ t = s) ∨
      ∃ x m r, s.pendCs = some x ∧ busRun s.cfg.regAddr s.mem x o = some (m, r) ∧
        t = wordBack s.cmd r (setPend .cs none (setMem m s)) :=
  completeTxn_cases .cs _ o s t h

theorem commandStep_complete_pendCs {s t : State} {o : BusOutcome} (h : commandStep (.complete .cs o) s = .next t) :
    t.pendCs = none := by
  rcases commandStep_complete h with ⟨hn, rfl⟩ | ⟨x, m, r, -, -, rfl⟩
  · exact hn
  · exact wordBack_pendCs _ _ _

/-- The completion of the transaction whose turn it was ends the command or lowers its rank. -/
theorem commandStep_complete_lowers {s t : State} {o : BusOutcome} {x : Txn} (hl : LockInv s) (hx : s.pendCs = some x)
    (hdue : Due s x) (h : commandStep (.complete .cs o) s = .next t) : t.cs = .idle ∨ roundsLeft t < roundsLeft s := by
  obtain ⟨⟨hown, hpend, -⟩, -⟩ := (lockInv_iff s).1 hl
  obtain ⟨-, hbody⟩ := hown.1 (hpend (by simp [hx]))
  rcases commandStep_complete h with ⟨hn, -⟩ | ⟨y, m, r, hy, hr, ht⟩
  · cases hx.symm.trans hn
  · obtain rfl : x = y := by simpa [hx] using hy
    exact wordBack_lowers hbody hdue hr ht

theorem Unhindered.commandStep {e : Event} {s t : State} (hu : Unhindered s) (hb : s.cs = .busy)
    (he : e.ofCommand = true) (h : commandStep e s = .next t) : Unhindered t := by
  obtain ⟨hl, hm, ho⟩ := hu
  refine ⟨lockInv_stepParts.commandStep trivial hl hb h, pendMapped_stepParts.commandStep trivial hm hb h, ?_⟩
  cases e with
  | csTurn =>
    cases hn : s.pendCs with
    | none =>
      rw [commandStep_csTurn hn] at h
      cases h
      exact fun hp => ho ((wordTurn_owner_ps _ s).1 hp)
    | some x => exact agentStep_csTurn_pending hn h ▸ ho
  | complete who o =>
    cases who with
    | ps => cases he
    | cs =>
      rcases commandStep_complete h with ⟨-, rfl⟩ | ⟨x, m, r, -, -, rfl⟩
      · exact ho
      · exact fun hp => ho ((wordBack_owner_ps _ r (setPend .cs none (setMem m s))).1 hp)
  | _ => cases he

/-- While the PS does not hold the lock a round ends the command or lowers its rank, if what was pending was the transaction
whose turn it was. -/
theorem round_lowers {s u v : State} {l : List Event} (hs : Unhindered s) (hb : s.cs = .busy)
    (hdue : ∀ x ∈ s.pendCs, Due s x) (hturn : commandStep .csTurn s = .next u) (hu : u.cs ≠ .idle)
    (hback : commandStep (.complete .cs .ok) (setInputs l u) = .next v) :
    v.cs = .idle ∨ roundsLeft v < roundsLeft s := by
  obtain ⟨hlu, -, -⟩ := hs.commandStep hb rfl hturn
  obtain ⟨hl, -, ho⟩ := hs
  cases hn : s.pendCs with
  | some x =>
    obtain rfl := agentStep_csTurn_pending hn hturn
    exact commandStep_complete_lowers (s := setInputs l u) hl hn (hdue x hn) hback
  | none =>
    rw [commandStep_csTurn hn] at hturn
    cases hturn
    have hmoves := wordTurn_moves hl hb hn
    generalize wordTurn s.cmd s = u at *
    cases hmoves with
    | ends hi => exact absurd hi hu
    | waits hp hfree =>
      cases howner : s.owner with
      | free => exact absurd howner hfree
      | ps => exact absurd howner ho
      | cs => exact absurd howner (hl.at_acquire hp).2
    | issues x _ hx =>
      exact commandStep_complete_lowers (s := setInputs l (setPend .cs (some x) s)) hlu rfl hx hback
    | advances hr hnu =>
      rcases commandStep_complete hback with ⟨-, rfl⟩ | ⟨x, m, r, hx, -⟩
      · exact .inr hr
      · cases hnu.symm.trans hx

/-- The run of one round, from any position. -/
theorem runOn_round (es : List Event) {s : State} (hs : Unhindered s) (hb : s.cs = .busy) :
    (∃ t, runOn (.csTurn :: .complete .cs .ok :: es) s = .next t ∧ t.cs = .idle) ∨
      ∃ v, runOn (.csTurn :: .complete .cs .ok :: es) s = runOn es v ∧ Unhindered v ∧ v.cs = .busy ∧ v.pendCs = none ∧
        ((∀ x ∈ s.pendCs, Due s x) → roundsLeft v < roundsLeft s) := by
  have ⟨_, hm, _⟩ := hs
  obtain ⟨u, hturn⟩ := commandStep_answers (s := setInputs (.complete .cs .ok :: es) s) hm .csTurn
  rw [runOn_cons rfl hturn]
  by_cases hui : u.cs = .idle
  · exact .inl ⟨u, by rw [if_pos hui], hui⟩
  have hub := busy_of_not_idle hui
  have hu : Unhindered u := Unhindered.commandStep (s := setInputs (.complete .cs .ok :: es) s) hs hb rfl hturn
  have ⟨_, hmu, _⟩ := hu
  obtain ⟨v, hback⟩ := commandStep_answers (s := setInputs es u) hmu (.complete .cs .ok)
  rw [if_neg hui, runOn_cons rfl hback]
  by_cases hvi : v.cs = .idle
  · exact .inl ⟨v, by rw [if_pos hvi], hvi⟩
  refine .inr ⟨v, by rw [if_neg hvi], Unhindered.commandStep (s := setInputs es u) hu hub rfl hback,
    busy_of_not_idle hvi, commandStep_complete_pendCs hback, fun hdue => ?_⟩
  exact (round_lowers (s := setInputs (.complete .cs .ok :: es) s) hs hb hdue hturn hui hback).resolve_left hvi

theorem okTxns_succ (k : Nat) (es : List Event) :
    okTxns (k + 1) ++ es = .csTurn :: .complete .cs .ok :: (okTxns k ++ es) := by
  simp [okTxns, List.replicate_succ]

/-- With nothing pending, as many rounds as the rank end the command. -/
theorem rounds_end (n : Nat) (es : List Event) : ∀ s : State, Unhindered s → s.cs = .busy → s.pendCs = none →
    roundsLeft s ≤ n → ∃ t, runOn (okTxns n ++ es) s = .next t ∧ t.cs = .idle := by
  induction n with
  | zero => exact fun s _ _ _ hr => absurd (roundsLeft_pos s) (by omega)
  | succ n ih =>
    intro s hs hb hn hr
    rw [okTxns_succ]
    rcases runOn_round (okTxns n ++ es) hs hb with hend | ⟨v, hrun, hv, hvb, hvn, hlow⟩
    · exact hend
    · rw [hrun]
      exact ih v hv hvb hvn (by have := hlow (by simp [hn]); omega)

/-- Settles O58: the first round settles whatever is pending, and from then on each round lowers the rank, which is at most
23: INIT, its `c.tx` about to pass 255, still has nineteen transactions. -/
theorem servedCommandEnds : Obligations.ServedCommandEnds := by
  unfold Obligations.ServedCommandEnds
  intro s es hb hl hm ho hin
  have hlist : s.inputs = okTxns (29 + 1) ++ es := hin
  rw [step_busy s hb, runAccepted_eq_runOn hb, hlist, okTxns_succ]
  rcases runOn_round (okTxns 29 ++ es) ⟨hl, hm, ho⟩ hb with hend | ⟨v, hrun, hv, hvb, hvn, -⟩
  · exact hend
  · rw [hrun]
    exact rounds_end 29 es v hv hvb hvn ((roundsLeft_le v).trans (by decide))

end Sys2Proof.Machine
end

section
/-! Proofs of 20_memory.md, endless runs: under BusLive, LockFair and recurring turns every command ends (R62, R75, R165). -/

namespace Sys2Proof.Machine

/-! What an endless run keeps while its command runs. -/

theorem finishPart_inputs (i : Instr) (s : State) : (finishPart i s).inputs = s.inputs := by
  cases i with
  | init n =>
    simp only [finishPart, initFinish]
    split <;> rfl
  | _ => rfl

theorem TurnLeaves.inputs {i : Instr} {s u : State} (h : TurnLeaves i s u) : u.inputs = s.inputs := by
  cases h with
  | issue x _ _ => exact issue_inputs .cs x s
  | finish _ => exact finishPart_inputs i s
  | _ => rfl

theorem BackLeaves.inputs {i : Instr} {r : BusReturn} {s u : State} (h : BackLeaves i r s u) : u.inputs = s.inputs := by
  rcases backLeaves_cases h with ⟨e, n, rfl⟩ | rfl | ⟨tx, v, k, a, rfl⟩ <;> rfl

theorem wordTurn_inputs (w : Byte) (s : State) : (wordTurn w s).inputs = s.inputs := by
  unfold wordTurn
  cases decode w with
  | ok i => exact (turnPart_leaves i s).inputs
  | error r => rfl

theorem wordBack_inputs (w : Byte) (r : BusReturn) (s : State) : (wordBack w r s).inputs = s.inputs := by
  unfold wordBack
  cases decode w with
  | ok i => exact (backPart_leaves i r s).inputs
  | error _ => rfl

theorem commandStep_inputs {e : Event} (he : e.isReset = false) {s t : State} (h : commandStep e s = .next t) :
    t.inputs = s.inputs := by
  cases hof : e.ofCommand with
  | false => exact (agentStep_frame hof he h).2
  | true =>
    cases e with
    | csTurn =>
      cases h
      split
      · exact wordTurn_inputs _ s
      · rfl
    | complete who o =>
      cases who with
      | ps => cases hof
      | cs =>
        rcases commandStep_complete h with ⟨-, rfl⟩ | ⟨x, m, r, -, -, rfl⟩
        · rfl
        · exact wordBack_inputs _ _ _
    | _ => cases hof

theorem cfg_stepParts (c : Params) : StepParts (fun s => s.cfg = c) (fun _ => True) := by
  refine stepParts_of_bus ?_ ?_ ?_ (fun _ _ _ _ h => h)
  · rintro s t ⟨-, hcfg, -, -⟩ h
    exact hcfg.trans h
  · rintro (_ | _) x s h - <;> exact h
  · rintro (_ | _) x m r o s h - - <;> exact h

/-- A command runs, in a state an endless run from an accepted command can be in. -/
structure Going (s : State) : Prop where
  busy : s.cs = .busy
  inputs : s.inputs = []
  lock : LockInv s
  mapped : PendMapped s
  depth : s.cfg.irqDepth = none
  due : ∀ x ∈ s.pendCs, Due s x

/-- What a step does to the running command, unless it ends it: nothing; or the CS issues a transaction; or the command goes
on to a position of lower rank. -/
inductive CommandMoves (s t : State) : Prop
  | stays (h : SameCommand s t)
  | issues (x : Txn) (hp : s.phase = .body) (hn : s.pendCs = none) (hx : Due s x) (ht : t = setPend .cs (some x) s)
  | advances (hr : roundsLeft t < roundsLeft s) (hn : t.pendCs = none)

/-- With nothing pending the CS's turn moves the command, unless the lock it waits for is not free. -/
theorem csTurn_moves {s t : State} (hg : Going s) (hn : s.pendCs = none) (h : commandStep .csTurn s = .next t)
    (ht : t.cs ≠ .idle) :
    (s.phase = .acquire ∧ s.owner ≠ .free ∧ t = s) ∨
      (∃ x, s.phase = .body ∧ Due s x ∧ t = setPend .cs (some x) s) ∨
      (roundsLeft t < roundsLeft s ∧ t.pendCs = none) := by
  rw [commandStep_csTurn hn] at h
  cases h
  have hmoves := wordTurn_moves hg.lock hg.busy hn
  generalize wordTurn s.cmd s = u at *
  cases hmoves with
  | ends hi => exact absurd hi ht
  | waits hp ho => exact .inl ⟨hp, ho, rfl⟩
  | issues x hp hx => exact .inr (.inl ⟨x, hp, hx, rfl⟩)
  | advances hr hnu => exact .inr (.inr ⟨hr, hnu⟩)

theorem commandStep_moves {e : Event} {s t : State} (hg : Going s) (he : e.isReset = false)
    (h : commandStep e s = .next t) (ht : t.cs ≠ .idle) : CommandMoves s t := by
  cases hof : e.ofCommand with
  | false => exact .stays (agentStep_sameCommand hof he h).1
  | true =>
    cases e with
    | csTurn =>
      cases hn : s.pendCs with
      | some x => exact .stays (by simp [agentStep_csTurn_pending hn h, SameCommand])
      | none =>
        rcases csTurn_moves hg hn h ht with ⟨-, -, rfl⟩ | ⟨x, hp, hx, hu⟩ | ⟨hr, hnu⟩
        · exact .stays (by simp [SameCommand])
        · exact .issues x hp hn hx hu
        · exact .advances hr hnu
    | complete who o =>
      cases who with
      | ps => cases hof
      | cs =>
        cases hn : s.pendCs with
        | none =>
          rcases commandStep_complete h with ⟨-, rfl⟩ | ⟨x, m, r, hx, -⟩
          · exact .stays (by simp [SameCommand])
          · cases hn.symm.trans hx
        | some x =>
          exact .advances ((commandStep_complete_lowers hg.lock hn (hg.due x hn) h).resolve_left ht)
            (commandStep_complete_pendCs h)
    | _ => cases hof

theorem Going.step {e : Event} {s t : State} (hg : Going s) (he : e.isReset = false) (h : commandStep e s = .next t)
    (ht : t.cs ≠ .idle) : Going t where
  busy := busy_of_not_idle ht
  inputs := (commandStep_inputs he h).trans hg.inputs
  lock := lockInv_stepParts.commandStep trivial hg.lock hg.busy h
  mapped := pendMapped_stepParts.commandStep trivial hg.mapped hg.busy h
  depth := by
    have hcfg : t.cfg = s.cfg := (cfg_stepParts s.cfg).commandStep trivial rfl hg.busy h
    rw [hcfg, hg.depth]
  due := by
    intro x hx
    rcases commandStep_moves hg he h ht with hsame | ⟨y, -, -, hy, rfl⟩ | ⟨-, hn⟩
    · have ⟨_, _, _, _, _, _, hpend, _⟩ := hsame
      exact (hg.due x (hpend ▸ hx)).congr hsame
    · obtain rfl : y = x := by simpa using hx
      exact hy
    · simp [hn] at hx

/-! The run of a command that never ends. -/

/-- A run, one event at a time, in which the command never ends, under the premises R62, R7 and R165. -/
structure EndlessRun (sched : Nat → Event) (u : Nat → State) : Prop where
  going : ∀ k, Going (u k)
  step : ∀ k, commandStep (sched k) (u k) = .next (u (k + 1))
  noReset : ∀ k, (sched k).isReset = false
  live : ∀ who k, (u k).pend who ≠ none → ∃ j, k ≤ j ∧ ∃ o, sched j = .complete who o
  turns : TurnsRecur sched
  fair : ∀ who, (∀ k, ∃ j, k ≤ j ∧ acquireEnabled who (u j)) →
    ∀ k, ∃ j, k ≤ j ∧ acquireEnabled who (u j) ∧ sched j = turnEvent who

theorem microStep_busy {e : Event} {s t : State} (he : e.isReset = false) (hb : s.cs = .busy) (hin : s.inputs = [])
    (h : commandStep e s = .next t) : microStep e s = .next t := by
  have hs : setInputs [] s = s := by rw [← hin]; rfl
  have ht : setInputs [] t = t := by rw [← hin, ← commandStep_inputs he h]; rfl
  have hstep : commandStep e (setInputs [] (setInputs [e] s)) = .next t := by
    rw [show setInputs [] (setInputs [e] s) = s from hs]
    exact h
  rw [microStep, step_busy _ (by exact hb), runAccepted_eq_runOn (by exact hb), setInputs_inputs, runOn_cons he hstep]
  split
  · rfl
  · simp only [runOn, drive_nil, ht]

theorem trace_succ {sched : Nat → Event} {s : State} {k : Nat} (he : (sched k).isReset = false)
    (hg : Going (trace sched s k)) : commandStep (sched k) (trace sched s k) = .next (trace sched s (k + 1)) := by
  obtain ⟨t, ht⟩ := commandStep_answers hg.mapped (sched k)
  rw [ht]
  simp only [trace, microStep_busy he hg.busy hg.inputs ht]

theorem trace_going {sched : Nat → Event} {s : State} (hs : Going (setInputs [] s))
    (hreset : ∀ k, (sched k).isReset = false) (hnever : ∀ k, (trace sched s k).cs ≠ .idle) (k : Nat) :
    Going (trace sched s k) := by
  induction k with
  | zero => exact hs
  | succ k ih => exact ih.step (hreset k) (trace_succ (hreset k) ih) (hnever (k + 1))

/-- If `P` is only ever left for `Q`, and is left at some event to come, then `Q` comes. -/
theorem eventually_leaves {P Q : Nat → Prop} {k : Nat} (hk : P k) (hnext : ∀ j, k ≤ j → P j → P (j + 1) ∨ Q (j + 1))
    (hevent : ∃ j, k ≤ j ∧ (P j → Q (j + 1))) : ∃ j, k ≤ j ∧ Q j := by
  obtain ⟨j, hkj, hj⟩ := hevent
  by_contra hno
  have never : ∀ m, k ≤ m → ¬ Q m := fun m hm hq => hno ⟨m, hm, hq⟩
  have kept : ∀ m, k ≤ m → P m := fun m hm =>
    Nat.le_induction hk (fun n hn hp => (hnext n hn hp).resolve_right (never _ (by omega))) m hm
  exact never (j + 1) (by omega) (hj (kept j hkj))

section
variable {sched : Nat → Event} {u : Nat → State}

theorem EndlessRun.moves (h : EndlessRun sched u) (k : Nat) : CommandMoves (u k) (u (k + 1)) :=
  commandStep_moves (h.going k) (h.noReset k) (h.step k) (by simp [(h.going (k + 1)).busy])

theorem EndlessRun.turn (h : EndlessRun sched u) {k : Nat} (he : sched k = .csTurn) (hn : (u k).pendCs = none) :
    ((u k).phase = .acquire ∧ (u k).owner ≠ .free ∧ u (k + 1) = u k) ∨
      (∃ x, (u k).phase = .body ∧ Due (u k) x ∧ u (k + 1) = setPend .cs (some x) (u k)) ∨
      (roundsLeft (u (k + 1)) < roundsLeft (u k) ∧ (u (k + 1)).pendCs = none) :=
  csTurn_moves (h.going k) hn (he ▸ h.step k) (by simp [(h.going (k + 1)).busy])

/-- The CS's pending transaction completes, and the command goes on (R62). -/
theorem EndlessRun.pending_lowers (h : EndlessRun sched u) {k : Nat} (hp : (u k).pendCs ≠ none) :
    ∃ j, k ≤ j ∧ roundsLeft (u j) < roundsLeft (u k) := by
  refine eventually_leaves (P := fun j => (u j).pendCs ≠ none ∧ roundsLeft (u j) = roundsLeft (u k)) ⟨hp, rfl⟩ ?_ ?_
  · rintro j - ⟨hpj, hrj⟩
    rcases h.moves j with hsame | ⟨x, -, hn, -, -⟩ | ⟨hr, -⟩
    · left
      rw [roundsLeft_congr hsame]
      obtain ⟨-, -, -, -, -, -, hpend, -⟩ := hsame
      exact ⟨by rwa [hpend], hrj⟩
    · exact absurd hn hpj
    · exact .inr (hrj ▸ hr)
  · obtain ⟨j, hkj, o, he⟩ := h.live .cs k hp
    refine ⟨j, hkj, fun ⟨hpj, hrj⟩ => ?_⟩
    obtain ⟨x, hx⟩ := Option.ne_none_iff_exists'.1 hpj
    have hlow := commandStep_complete_lowers (h.going j).lock hx ((h.going j).due x hx) (he ▸ h.step j)
    exact hrj ▸ hlow.resolve_left (by simp [(h.going (j + 1)).busy])

/-- In a phase that needs no lock the CS's turn comes, and the command goes on. -/
theorem EndlessRun.turn_lowers (h : EndlessRun sched u) {k : Nat} (hn : (u k).pendCs = none)
    (hp : (u k).phase ≠ .acquire) : ∃ j, k ≤ j ∧ roundsLeft (u j) < roundsLeft (u k) := by
  have hleft : ∃ j, k ≤ j ∧
      (roundsLeft (u j) < roundsLeft (u k) ∨ (u j).pendCs ≠ none ∧ roundsLeft (u j) = roundsLeft (u k)) := by
    refine eventually_leaves
      (P := fun j => (u j).pendCs = none ∧ (u j).phase ≠ .acquire ∧ roundsLeft (u j) = roundsLeft (u k))
      ⟨hn, hp, rfl⟩ ?_ ?_
    · rintro j - ⟨hnj, hpj, hrj⟩
      rcases h.moves j with hsame | ⟨x, -, -, -, ht⟩ | ⟨hr, -⟩
      · left
        rw [roundsLeft_congr hsame]
        obtain ⟨-, -, -, -, -, hphase, hpend, -⟩ := hsame
        exact ⟨hpend.trans hnj, by rwa [hphase], hrj⟩
      · exact .inr (.inr ⟨by simp [ht], by rw [ht]; exact hrj⟩)
      · exact .inr (.inl (hrj ▸ hr))
    · obtain ⟨⟨j, hkj, he⟩, -⟩ := h.turns k
      refine ⟨j, hkj, fun ⟨hnj, hpj, hrj⟩ => ?_⟩
      rcases h.turn he hnj with ⟨ha, -⟩ | ⟨x, -, -, ht⟩ | ⟨hr, -⟩
      · exact absurd ha hpj
      · exact .inr ⟨by simp [ht], by rw [ht]; exact hrj⟩
      · exact .inl (hrj ▸ hr)
  obtain ⟨j, hkj, hr | ⟨hpj, hrj⟩⟩ := hleft
  · exact ⟨j, hkj, hr⟩
  · obtain ⟨m, hjm, hm⟩ := h.pending_lowers hpj
    exact ⟨m, hkj.trans hjm, hrj ▸ hm⟩

end

/-! While the command waits for the lock: the PS gives it up. -/

/-- The command is at `acquire()` and stays there from event `k` on. -/
abbrev WaitsFrom (u : Nat → State) (k : Nat) : Prop :=
  ∀ j, k ≤ j → (u j).phase = .acquire ∧ SameCommand (u j) (u (j + 1))

/-- A flag or capture read that completes frees the lock, or brings a non-zero flag byte to deliver. -/
theorem read_outcome {s t : State} {x : Txn} {m : Memory} {r : BusReturn} {o : BusOutcome} (hl : LockInv s)
    (hx : s.pendPs = some x) (hr : busRun s.cfg.regAddr s.mem x o = some (m, r))
    (hu : PsBack r (setPend .ps none (setMem m s)) t) : t.owner = .free ∨ (s.ps = .flags ∧ t.ps = .emit) := by
  obtain ⟨-, hown, hpend, -⟩ := (lockInv_iff s).1 hl
  obtain ⟨hps, a, rfl⟩ := psPending_eq_some (hpend.symm.trans hx)
  have ho : s.owner = .ps := hown.2 (by tauto)
  cases hu with
  | none hp =>
    rcases hp with ⟨hf, ha⟩ | hp
    · exact absurd hps (not_or.2 ⟨hf, ha⟩)
    · exact absurd hp (busRun_read_ne_wrote hr)
  | fired f hp => exact .inr ⟨hp, rfl⟩
  | zero | acked | failed => exact .inl (by simp [psAck, psFail, Sequencer.owner, ho])

/-- With an unbounded queue the PS's turn in EMIT delivers an index, or issues the capture read when none is left. -/
theorem psTurn_emit {s : State} (hg : Going s) (hps : s.ps = .emit) :
    (s.emitList = [] ∧ (psTurn s).ps = .ack) ∨
      ∃ p rest, s.emitList = p :: rest ∧ (psTurn s).ps = .emit ∧ (psTurn s).emitList = rest := by
  obtain ⟨-, hown, hpend, -⟩ := (lockInv_iff s).1 hg.lock
  simp only [psTurn, psEmit, hps]
  cases hl : s.emitList with
  | nil =>
    have hc : canIssue .ps s = true := by
      simp [canIssue, State.pend, Sequencer.owner, hown.2 (.inr (.inl hps)), hpend, psPending, hps]
    simp [hc]
  | cons p rest =>
    have hroom : queueRoom s = true := by simp [queueRoom, hg.depth]
    exact .inr ⟨p, rest, rfl, by simp [hroom, hps], by simp [hroom]⟩

/-- In FLAGS and ACK the PS has no local step (R116). -/
theorem psTurn_reading {s : State} (hps : s.ps = .flags ∨ s.ps = .ack) : psTurn s = s := by
  rcases hps with h | h <;> simp only [psTurn, h]

section
variable {sched : Nat → Event} {u : Nat → State} {k : Nat}

/-- What an event does to the PS while the command waits for the lock: nothing, the PS's own step, or the completion of its
read. -/
theorem EndlessRun.psMoves (h : EndlessRun sched u) (hw : WaitsFrom u k) {j : Nat} (hj : k ≤ j) :
    ((u (j + 1)).ps = (u j).ps ∧ (u (j + 1)).emitList = (u j).emitList) ∨
      (sched j = .psTurn ∧ u (j + 1) = psTurn (u j)) ∨
      ∃ x m r o, (u j).pendPs = some x ∧ busRun (u j).cfg.regAddr (u j).mem x o = some (m, r) ∧
        PsBack r (setPend .ps none (setMem m (u j))) (u (j + 1)) := by
  obtain ⟨hphase, hsame⟩ := hw j hj
  obtain ⟨hn, -⟩ := (h.going j).lock.at_acquire hphase
  have hstep := h.step j
  cases he : sched j with
  | csTurn =>
    rcases h.turn he hn with ⟨-, -, ht⟩ | ⟨x, hbody, -⟩ | ⟨hr, -⟩
    · simp [ht]
    · cases hphase.symm.trans hbody
    · exact absurd hr (roundsLeft_congr hsame).not_lt
  | psTurn =>
    rw [he] at hstep
    injection hstep with ht
    exact .inr (.inl ⟨rfl, ht.symm⟩)
  | complete who o =>
    rw [he] at hstep
    cases who with
    | cs =>
      rcases commandStep_complete hstep with ⟨-, ht⟩ | ⟨x, m, r, hx, -⟩
      · simp [ht]
      · cases hn.symm.trans hx
    | ps =>
      rcases completeTxn_cases .ps psReturn o _ _ hstep with ⟨-, ht⟩ | ⟨x, m, r, hx, hr, ht⟩
      · simp [ht]
      · exact .inr (.inr ⟨x, m, r, o, hx, hr, ht ▸ psReturn_leaves r _⟩)
  | reset d => simpa [he, Event.isReset] using h.noReset j
  | pop =>
    rw [he] at hstep
    injection hstep with ht
    rw [← ht]
    simp only [irqPop]
    split <;> exact .inl ⟨rfl, rfl⟩
  | submit w | env n b =>
    rw [he] at hstep
    injection hstep with ht
    simp [← ht, envWrite]

/-- A flag or capture read ends: the lock is freed, or after a flag read there are indices to deliver (R62). -/
theorem EndlessRun.read_ends (h : EndlessRun sched u) (hw : WaitsFrom u k) {j : Nat} (hj : k ≤ j)
    (hps : (u j).ps = .flags ∨ (u j).ps = .ack) :
    ∃ m, j ≤ m ∧ ((u m).owner = .free ∨ ((u j).ps = .flags ∧ (u m).ps = .emit)) := by
  refine eventually_leaves (P := fun m => (u m).ps = (u j).ps) rfl ?_ ?_
  · intro m hm hpm
    rcases h.psMoves hw (hj.trans hm) with ⟨hsame, -⟩ | ⟨-, ht⟩ | ⟨x, m', r, o, hx, hr, hback⟩
    · exact .inl (hsame.trans hpm)
    · exact .inl (by rw [ht, psTurn_reading (hpm ▸ hps), hpm])
    · exact .inr (hpm ▸ read_outcome (h.going m).lock hx hr hback)
  · obtain ⟨-, -, hpend, -⟩ := (lockInv_iff _).1 (h.going j).lock
    have hne : (u j).pend .ps ≠ none := by
      show (u j).pendPs ≠ none
      rcases hps with hp | hp <;> simp [hpend, psPending, hp]
    obtain ⟨m, hm, o, he⟩ := h.live .ps j hne
    refine ⟨m, hm, fun hpm => ?_⟩
    rcases completeTxn_cases .ps psReturn o _ _ (he ▸ h.step m) with ⟨hn, -⟩ | ⟨x, m', r, hx, hr, ht⟩
    · obtain ⟨-, -, hpendm, -⟩ := (lockInv_iff _).1 (h.going m).lock
      have hn : psPending (u m) = none := hpendm.symm.trans hn
      rcases hps with hp | hp <;> simp [psPending, hpm, hp] at hn
    · exact hpm ▸ read_outcome (h.going m).lock hx hr (ht ▸ psReturn_leaves r _)

/-- In EMIT the PS's turn comes, and it delivers an index or issues the capture read. -/
theorem EndlessRun.emit_moves (h : EndlessRun sched u) (hw : WaitsFrom u k) {j : Nat} (hj : k ≤ j)
    (hps : (u j).ps = .emit) :
    ∃ m, j ≤ m ∧ (((u j).emitList = [] ∧ (u m).ps = .ack) ∨
      ∃ p rest, (u j).emitList = p :: rest ∧ (u m).ps = .emit ∧ (u m).emitList = rest) := by
  refine eventually_leaves (P := fun m => (u m).ps = .emit ∧ (u m).emitList = (u j).emitList) ⟨hps, rfl⟩ ?_ ?_
  · rintro m hm ⟨hpm, hlm⟩
    rcases h.psMoves hw (hj.trans hm) with ⟨hsame, hlist⟩ | ⟨-, ht⟩ | ⟨x, m', r, o, hx, -⟩
    · exact .inl ⟨hsame.trans hpm, hlist.trans hlm⟩
    · exact .inr (by rw [ht, ← hlm]; exact psTurn_emit (h.going m) hpm)
    · obtain ⟨-, -, hpend, -⟩ := (lockInv_iff _).1 (h.going m).lock
      simp [hpend, psPending, hpm] at hx
  · obtain ⟨-, m, hm, he⟩ := h.turns j
    refine ⟨m, hm, fun ⟨hpm, hlm⟩ => ?_⟩
    have hstep := h.step m
    rw [he] at hstep
    injection hstep with ht
    rw [← ht, ← hlm]
    exact psTurn_emit (h.going m) hpm

/-- After its deliveries and its capture read the PS frees the lock (R123, R124). -/
theorem EndlessRun.emit_frees (h : EndlessRun sched u) (hw : WaitsFrom u k) (l : List PinIndex) :
    ∀ j, k ≤ j → (u j).ps = .emit → (u j).emitList = l → ∃ m, j ≤ m ∧ (u m).owner = .free := by
  induction l with
  | nil =>
    intro j hj hps hl
    obtain ⟨m, hm, ⟨-, hack⟩ | ⟨p, rest, hl', -⟩⟩ := h.emit_moves hw hj hps
    · obtain ⟨n, hn, hfree | ⟨hflags, -⟩⟩ := h.read_ends hw (hj.trans hm) (.inr hack)
      · exact ⟨n, hm.trans hn, hfree⟩
      · cases hack.symm.trans hflags
    · cases hl.symm.trans hl'
  | cons p rest ih =>
    intro j hj hps hl
    obtain ⟨m, hm, ⟨hl', -⟩ | ⟨q, rest', hl', hemit, hrest⟩⟩ := h.emit_moves hw hj hps
    · cases hl.symm.trans hl'
    · obtain ⟨-, rfl⟩ := List.cons.inj (hl.symm.trans hl')
      obtain ⟨n, hn, hfree⟩ := ih m (hj.trans hm) hemit hrest
      exact ⟨n, hm.trans hn, hfree⟩

/-- While the command waits, the lock is free again and again. -/
theorem EndlessRun.lock_freed (h : EndlessRun sched u) (hw : WaitsFrom u k) {j : Nat} (hj : k ≤ j) :
    ∃ m, j ≤ m ∧ (u m).owner = .free := by
  obtain ⟨-, hown, -⟩ := (lockInv_iff _).1 (h.going j).lock
  have reading : (u j).ps = .flags ∨ (u j).ps = .ack → ∃ m, j ≤ m ∧ (u m).owner = .free := by
    intro hps
    obtain ⟨m, hm, hfree | ⟨-, hemit⟩⟩ := h.read_ends hw hj hps
    · exact ⟨m, hm, hfree⟩
    · obtain ⟨n, hn, hfree⟩ := h.emit_frees hw _ m (hj.trans hm) hemit rfl
      exact ⟨n, hm.trans hn, hfree⟩
  cases ho : (u j).owner with
  | free => exact ⟨j, le_rfl, ho⟩
  | cs => exact absurd ho ((h.going j).lock.at_acquire (hw j hj).1).2
  | ps =>
    rcases hown.1 ho with hps | hps | hps
    · exact reading (.inl hps)
    · exact h.emit_frees hw _ j hj hps rfl
    · exact reading (.inr hps)

/-- By LockFair the command that waits for the lock goes on (R165). -/
theorem EndlessRun.acquire_lowers (h : EndlessRun sched u) (hp : (u k).phase = .acquire) :
    ∃ j, k ≤ j ∧ roundsLeft (u j) < roundsLeft (u k) := by
  by_contra hno
  have never : ∀ j, k ≤ j → ¬ roundsLeft (u j) < roundsLeft (u k) := fun j hj hr => hno ⟨j, hj, hr⟩
  have stays : ∀ j, k ≤ j → (u j).phase = .acquire → roundsLeft (u j) = roundsLeft (u k) →
      SameCommand (u j) (u (j + 1)) := by
    intro j hj hpj hrj
    rcases h.moves j with hsame | ⟨x, hbody, -⟩ | ⟨hr, -⟩
    · exact hsame
    · cases hpj.symm.trans hbody
    · exact absurd (hrj ▸ hr) (never (j + 1) (by omega))
  have waits : ∀ j, k ≤ j → (u j).phase = .acquire ∧ roundsLeft (u j) = roundsLeft (u k) := by
    refine Nat.le_induction ⟨hp, rfl⟩ fun j hj ⟨hpj, hrj⟩ => ?_
    have hsame := stays j hj hpj hrj
    rw [roundsLeft_congr hsame]
    obtain ⟨-, -, -, -, -, hphase, -⟩ := hsame
    exact ⟨hphase.trans hpj, hrj⟩
  have hw : WaitsFrom u k := fun j hj =>
    have ⟨hpj, hrj⟩ := waits j hj
    ⟨hpj, stays j hj hpj hrj⟩
  have enabled : ∀ n, ∃ j, n ≤ j ∧ acquireEnabled .cs (u j) := by
    intro n
    obtain ⟨j, hj, hfree⟩ := h.lock_freed hw (le_max_left k n)
    obtain ⟨hpj, -⟩ := waits j ((le_max_left k n).trans hj)
    exact ⟨j, (le_max_right k n).trans hj, hfree, (h.going j).busy, hpj⟩
  obtain ⟨j, hj, ⟨hfree, -, hpj⟩, he⟩ := h.fair .cs enabled k
  rcases h.turn he ((h.going j).lock.at_acquire hpj).1 with ⟨-, hheld, -⟩ | ⟨x, hbody, -⟩ | ⟨hr, -⟩
  · exact hheld hfree
  · cases hpj.symm.trans hbody
  · exact absurd hr (roundsLeft_congr (hw j hj).2).not_lt

/-- From every position the command goes on to one of lower rank. -/
theorem EndlessRun.lowers (h : EndlessRun sched u) (k : Nat) : ∃ j, k ≤ j ∧ roundsLeft (u j) < roundsLeft (u k) := by
  by_cases hn : (u k).pendCs = none
  · by_cases hp : (u k).phase = .acquire
    · exact h.acquire_lowers hp
    · exact h.turn_lowers hn hp
  · exact h.pending_lowers hn

/-- There is no such run: the rank cannot fall for ever. -/
theorem EndlessRun.elim (h : EndlessRun sched u) : False := by
  have below : ∀ n k, roundsLeft (u k) = n → False := by
    intro n
    induction n using Nat.strong_induction_on with
    | _ n ih =>
      intro k hk
      obtain ⟨j, -, hj⟩ := h.lowers k
      exact ih _ (hk ▸ hj) j rfl
  exact below _ 0 rfl

end

/-- Settles O59: in a run that never ended the command, its rank would fall for ever. The pending transactions complete, the
turns come, and while the command waits for the lock the PS frees it again and again, so that LockFair gives it the lock. -/
theorem fairCommandEnds : Obligations.FairCommandEnds := by
  unfold Obligations.FairCommandEnds
  intro sched s hacc hl hm hdepth hreset hlive hturns hfair
  by_contra hno
  have hnever : ∀ k, (trace sched s k).cs ≠ .idle := fun k hk => hno ⟨k, hk⟩
  obtain ⟨hb, -, -, hn, -⟩ := hacc
  have hstart : Going (setInputs [] s) := ⟨hb, rfl, hl, hm, hdepth, by simp [hn]⟩
  have hgoing := trace_going hstart hreset hnever
  exact EndlessRun.elim ⟨hgoing, fun k => trace_succ (hreset k) (hgoing k), hreset, hlive, hturns, hfair⟩

end Sys2Proof.Machine
end

section
/-! Proofs of 30_encoding.md: the decoder and the encoder agree field by field, and a step runs the command its word decodes
to (R78 to R88). -/

namespace Sys2Proof.Machine

/-! The two fields of a word and of a command (R78, R80). -/

theorem opcode_lt (i : Instr) : i.opcode < 16 := by
  cases i <;> simp [Instr.opcode]

/-- A command can be encoded exactly if its argument fits the ARG field (R86). -/
theorem wf_iff_arg_lt (i : Instr) : i.wf = true ↔ i.arg < 16 := by
  cases i <;> simp [Instr.wf, fitsArg, Instr.arg]

theorem argField_lt (w : Byte) : argField w < 16 := (w.extractLsb' 0 4).isLt

theorem encode_fields {i : Instr} (h : i.wf = true) :
    opField (encode i) = i.opcode ∧ argField (encode i) = i.arg :=
  Laws.ArgField.fields i.opcode i.arg (opcode_lt i) ((wf_iff_arg_lt i).1 h)

/-- A word holds nothing besides its two fields. -/
theorem append_fields (w : Byte) : BitVec.ofNat 4 (opField w) ++ BitVec.ofNat 4 (argField w) = w := by
  simp only [opField, argField, BitVec.ofNat_toNat, BitVec.setWidth_eq]
  rw [BitVec.extractLsb'_append_extractLsb'_eq_extractLsb' (by rfl), BitVec.extractLsb'_eq_self]

theorem opField_eq_shift (w : Byte) : opField w = (w >>> 4).toNat := by
  have hw : w.toNat >>> 4 < 16 := by
    rw [Nat.shiftRight_eq_div_pow]
    omega
  simpa [opField] using Nat.mod_eq_of_lt hw

theorem argField_eq_and (w : Byte) : argField w = (w &&& 0x0F).toNat := by
  simpa [argField] using (Nat.and_two_pow_sub_one_eq_mod w.toNat 4).symm

/-! What the decoder answers (R88). -/

theorem needsZeroArg_ok_iff {i j : Instr} {op arg : Nat} : needsZeroArg i op arg = .ok j ↔ arg = 0 ∧ i = j := by
  by_cases h : arg = 0 <;> simp [needsZeroArg, h]

theorem needsZeroArg_error_iff {i : Instr} {op arg : Nat} : (∃ r, needsZeroArg i op arg = .error r) ↔ arg ≠ 0 := by
  by_cases h : arg = 0 <;> simp [needsZeroArg, h]

/-- A word decodes to a command exactly if its fields are the command's opcode and argument. -/
theorem decode_eq_ok_iff (w : Byte) (i : Instr) :
    decode w = .ok i ↔ opField w = i.opcode ∧ argField w = i.arg := by
  constructor
  · intro h
    simp only [decode] at h
    split at h <;> rename_i hop
    case h_6 | h_7 | h_9 | h_10 =>
      obtain ⟨harg, rfl⟩ := needsZeroArg_ok_iff.1 h
      exact ⟨hop, harg⟩
    case h_11 => cases h
    all_goals
      cases h
      exact ⟨hop, rfl⟩
  · rintro ⟨hop, harg⟩
    cases i <;> simp [decode, needsZeroArg_ok_iff, hop, harg, Instr.opcode, Instr.arg]

/-- A word is illegal exactly if its opcode is reserved, or takes no argument and has one (R84). -/
theorem decode_error_iff (w : Byte) :
    (∃ r, decode w = .error r) ↔
      opField w = 0x0 ∨ 0xB ≤ opField w ∨
        ((opField w = 0x6 ∨ opField w = 0x7 ∨ opField w = 0x9 ∨ opField w = 0xA) ∧ argField w ≠ 0) := by
  simp only [decode]
  split
  case h_6 | h_7 | h_9 | h_10 =>
    rename_i hop
    simp [hop, needsZeroArg_error_iff]
  case h_11 =>
    have reserved : opField w = 0x0 ∨ 0xB ≤ opField w := by
      simp only [imp_false] at *
      omega
    simp only [Except.error.injEq, exists_eq', true_iff]
    exact or_assoc.1 (.inl reserved)
  all_goals
    rename_i hop
    simp [hop]

/-- Settles O1: the fields of the word are the command's own, and they fix what it decodes to. -/
theorem decodeOfEncodeIsTheCommand : Obligations.DecodeOfEncodeIsTheCommand := by
  unfold Obligations.DecodeOfEncodeIsTheCommand
  exact fun i hi => (decode_eq_ok_iff _ i).2 (encode_fields hi)

/-- Settles O2: the command's opcode and argument are the word's fields, and the word is put together from them. -/
theorem encodeOfDecodeIsTheWord : Obligations.EncodeOfDecodeIsTheWord := by
  unfold Obligations.EncodeOfDecodeIsTheWord
  intro w i h
  obtain ⟨hop, harg⟩ := (decode_eq_ok_iff w i).1 h
  refine ⟨(wf_iff_arg_lt i).2 (harg ▸ argField_lt w), ?_⟩
  rw [encode, ← hop, ← harg]
  exact append_fields w

/-- Settles O3: eleven closed words, run through the decoder. -/
theorem sampleWordsDecode : Obligations.SampleWordsDecode := by
  unfold Obligations.SampleWordsDecode
  decide

/-- The number of illegal words: 6 * 16 with a reserved opcode, 4 * 15 with an argument where none is taken (R84). -/
theorem illegal_words_count :
    ((List.range 256).filter (fun n => (decode (BitVec.ofNat 8 n)).toOption.isNone)).length = 156 := by
  decide +kernel

/-- Settles O4: the conditions on the fields, read as conditions on the shifted and masked word; the count runs the decoder
on all 256 words. -/
theorem illegalWordsAreTheReservedOnes : Obligations.IllegalWordsAreTheReservedOnes := by
  unfold Obligations.IllegalWordsAreTheReservedOnes
  refine ⟨fun w => ?_, illegal_words_count⟩
  rw [decode_error_iff, opField_eq_shift, argField_eq_and]
  simp [BitVec.toNat_eq]

/-! What a step runs (R79, R88). -/

theorem runAccepted_ok {s : State} {i : Instr} (h : decode s.cmd = .ok i) : runAccepted s = exec i s := by
  simp only [runAccepted, h]

theorem idleStep_nil {s : State} (h : s.inputs = []) : idleStep s = .next s := by
  simp only [idleStep, h]

theorem idleStep_submit {s : State} {w : Byte} {es : List Event} (h : s.inputs = .submit w :: es) :
    idleStep s = runAccepted (accept w (setInputs es s)) := by
  simp only [idleStep, h]

theorem idleStep_agent {s : State} {e : Event} {es : List Event} (h : s.inputs = e :: es)
    (he : ∀ w, e ≠ .submit w) : idleStep s = agentStep id noReturn e (setInputs es s) := by
  cases e with
  | submit w => exact absurd rfl (he w)
  | _ => simp only [idleStep, h]

/-- Settles O5, by the branches of `step`: the CS BUSY; the CS IDLE with a submit, with another agent's event, with none. -/
theorem stepRunsTheAcceptedCommand : Obligations.StepRunsTheAcceptedCommand := by
  unfold Obligations.StepRunsTheAcceptedCommand
  refine ⟨?submit, ?busy, ?agent, ?nil⟩
  case submit =>
    intro s w es i hc hin hd
    rw [step_idle s hc, idleStep_submit hin]
    exact runAccepted_ok hd
  case busy =>
    intro s i hc hd
    rw [step_busy s hc, runAccepted_ok hd]
  case agent =>
    intro s e es hc hin he
    rw [step_idle s hc]
    exact idleStep_agent hin he
  case nil =>
    intro s hc hin
    rw [step_idle s hc, idleStep_nil hin]

end Sys2Proof.Machine
end

section
/-! Proofs of 40_init.md, the frame of a command while only the CS and BA move: the poll loop's state, the command
word, and every byte of the target but those of the registers its transactions write. -/

namespace Sys2Proof.Machine

theorem SamePoll.trans {s t u : State} (h : SamePoll s t) (h' : SamePoll t u) : SamePoll s u := by
  simp_all only [SamePoll, and_self]

/-- The transaction writes one of the registers `W`, or reads a register whose read has no side effect (R65). -/
def WritesWithin (W : List Reg) (rm : RegMap) (x : Txn) : Prop :=
  (∃ n ∈ W, ∃ v, x = .write (rm.addr n) v) ∨ ∃ n, n ≠ .intcap ∧ x = .read (rm.addr n)

/-- Whatever its outcome, such a transaction leaves every other byte alone. -/
theorem busRun_read_of_writesWithin {W : List Reg} {rm : RegMap} (hw : rm.wf) {x : Txn} (hx : WritesWithin W rm x)
    {m m' : Memory} {o : BusOutcome} {r : BusReturn} (h : busRun rm m x o = some (m', r)) {a : Nat}
    (ha : ∀ n ∈ W, a ≠ regKey rm n) : m'.read a = m.read a := by
  rcases busRun_effect _ _ _ _ _ _ h with rfl | ⟨k, w, rfl, rfl⟩ | ⟨k, rfl, hcap, rfl⟩
  · rfl
  · rcases hx with ⟨n, hn, v, hk⟩ | ⟨n, -, hk⟩
    · obtain ⟨haddr, -⟩ := Txn.write.inj hk
      obtain rfl := addr_inj rm hw k n haddr
      exact Memory.read_write_other _ _ _ _ (ha k hn).symm
    · cases hk
  · rcases hx with ⟨n, -, v, hk⟩ | ⟨n, hn, hk⟩
    · cases hk
    · rw [Txn.read.inj hk, regAt?_of_wf rm hw] at hcap
      exact absurd (Option.some.inj hcap) hn

/-- A local step of the CS issues the transaction whose turn it is or leaves the bus alone. -/
theorem turnPart_sameBus_or_due {i : Instr} (hi : i ≠ .pollStart ∧ i ≠ .pollStop) (s : State) :
    SameBus s (turnPart i s) ∨ ∃ x, txnPart i s = some x ∧ turnPart i s = setPend .cs (some x) s := by
  by_cases hp : s.phase = .body
  · obtain ⟨start, hframe⟩ := turnPart_frame hi
    simp only [hframe, commandTurn, hp]
    cases hx : txnPart i s with
    | none => exact .inl (by simp [SameBus])
    | some x =>
      rcases issue_cases .cs x s with h | ⟨-, -, h⟩ <;> simp only [h]
      · exact .inl (by simp [SameBus])
      · exact .inr ⟨x, rfl, rfl⟩
  · have hu := turnPart_leaves i s
    generalize turnPart i s = u at hu ⊢
    cases hu with
    | issue _ hb => exact absurd hb hp
    | finish => exact .inl (finishPart_sameBus i s)
    | startRefused | started => exact absurd ‹i = .pollStart› hi.1
    | stop => exact absurd ‹i = .pollStop› hi.2
    | _ => exact .inl (by simp [SameBus])

/-- What the run of a command whose transactions write within `W` has in common with the state `s` it started from. -/
structure FramedBy (W : List Reg) (s t : State) : Prop where
  poll : SamePoll s t
  cmd : t.cmd = s.cmd
  pending : ∀ x ∈ t.pendCs, WritesWithin W s.cfg.regAddr x
  bytes : ∀ a, (∀ n ∈ W, a ≠ regKey s.cfg.regAddr n) → t.mem.read a = s.mem.read a

theorem FramedBy.cfg {W : List Reg} {s t : State} (h : FramedBy W s t) : t.cfg = s.cfg := by
  obtain ⟨-, -, -, -, -, -, -, -, -, -, hcfg⟩ := h.poll
  exact hcfg

/-- A completion keeps the frame, whatever its outcome. -/
theorem FramedBy.complete {i : Instr} {W : List Reg} {s t : State} (hw : s.cfg.regAddr.wf) (h : FramedBy W s t)
    {x : Txn} {m : Memory} {r : BusReturn} {o : BusOutcome} (hx : t.pendCs = some x)
    (hr : busRun t.cfg.regAddr t.mem x o = some (m, r)) :
    FramedBy W s (backPart i r (setPend .cs none (setMem m t))) := by
  have hu := backPart_leaves i r (setPend .cs none (setMem m t))
  have hcmd := backPart_cmd i r (setPend .cs none (setMem m t))
  generalize backPart i r (setPend .cs none (setMem m t)) = u at hu hcmd ⊢
  obtain ⟨hmem, -, hpend, -⟩ := hu.sameBus
  rw [h.cfg] at hr
  exact {
    poll := h.poll.trans hu.samePoll
    cmd := hcmd.trans h.cmd
    pending := by simp [hpend]
    bytes := fun a ha => by
      rw [hmem]
      exact (busRun_read_of_writesWithin hw (h.pending x hx) hr ha).trans (h.bytes a ha) }

section
variable {i : Instr} {W : List Reg} (hi : i ≠ .pollStart ∧ i ≠ .pollStop)
  (hW : ∀ s x, txnPart i s = some x → WritesWithin W s.cfg.regAddr x)
include hi hW

/-- A local step of the CS keeps the frame. -/
theorem FramedBy.turnPart {s t : State} (h : FramedBy W s t) : FramedBy W s (turnPart i t) where
  poll := h.poll.trans ((turnPart_leaves i t).samePoll_or.resolve_right (by simp [hi.1, hi.2]))
  cmd := (turnPart_cmd i t).trans h.cmd
  pending := by
    rcases turnPart_sameBus_or_due hi t with ⟨-, -, hpend, -⟩ | ⟨x, hx, hu⟩
    · exact hpend ▸ h.pending
    · simpa [hu] using h.cfg ▸ hW t x hx
  bytes a ha := by
    rcases turnPart_sameBus_or_due hi t with ⟨hmem, -⟩ | ⟨x, -, hu⟩
    · exact hmem ▸ h.bytes a ha
    · exact hu ▸ h.bytes a ha

/-- The frame of a command with transactions, whatever the CS and BA do and however many transactions fail. -/
theorem exec_framedBy {s t : State} (hs : Accepted s) (hw : s.cfg.regAddr.wf) (hl : OnlyCommand s.inputs)
    (h : exec i s = .next t) : FramedBy W s t := by
  obtain ⟨hb, -, -, hn, -⟩ := hs
  rw [exec_busy i s hb] at h
  refine drive_keeps (P := FramedBy W s) (E := fun e => e.ofCommand = true)
    (fun _ _ hu => ⟨hu.poll, hu.cmd, hu.pending, hu.bytes⟩) ?_ s.inputs s t hl
    ⟨by simp [SamePoll], rfl, by simp [hn], fun _ _ => rfl⟩ hb h
  intro e u v he hu _ hstep
  cases e with
  | csTurn =>
    cases hstep
    split
    · exact hu.turnPart hi hW
    · exact hu
  | complete who o =>
    cases who with
    | cs =>
      rcases completeTxn_cases .cs _ o u v hstep with ⟨-, rfl⟩ | ⟨x, m, r, hx, hr, rfl⟩
      · exact hu
      · exact hu.complete hw hx hr
    | ps => cases he
  | _ => cases he

end

/-- INIT writes DIR, GPPU and INTCON, and reads PORT (R90, R91). -/
theorem initTxn_writesWithin {n : Nat} {s : State} {x : Txn} (h : initTxn n s = some x) :
    WritesWithin [.dir, .gppu, .intcon] s.cfg.regAddr x := by
  simp only [initTxn] at h
  split_ifs at h <;> cases h
  · exact .inl ⟨.dir, by decide, 0x00, rfl⟩
  · exact .inl ⟨.gppu, by decide, 0x00, rfl⟩
  · exact .inl ⟨.intcon, by decide, 0x00, rfl⟩
  · exact .inr ⟨.port, by decide, rfl⟩

/-- Settles O28: the frame of every command with transactions, for the three registers INIT writes. -/
theorem initChangesOnlyItsThreeRegisters : Obligations.InitChangesOnlyItsThreeRegisters := by
  unfold Obligations.InitChangesOnlyItsThreeRegisters
  intro n s t hs hw hl h
  have hframe := exec_framedBy (i := .init n) (by simp) (fun _ _ => initTxn_writesWithin) hs hw hl h
  refine ⟨hframe.poll, hframe.cmd, fun a hdir hgppu hintcon => hframe.bytes a ?_⟩
  simp [hdir, hgppu, hintcon]

end Sys2Proof.Machine
end

section
/-! Proofs of 40_init.md, the run of a command while only the CS and BA move: the checks, the lock, one round for each
transaction, and then the end, a failed transaction, or a transaction still pending. -/

namespace Sys2Proof.Machine

/-! The local step of a command with transactions in each phase after the first (R74, R132). -/

section
variable {i : Instr} {s : State} (hi : i ≠ .pollStart ∧ i ≠ .pollStop)
include hi

theorem turnPart_acquire (hp : s.phase = .acquire) (ho : s.owner = .free) :
    turnPart i s = setPhase .body (takeLock .cs s) := by
  obtain ⟨start, hframe⟩ := turnPart_frame hi
  simp only [hframe, commandTurn, hp, ho, if_true]

theorem turnPart_issue {x : Txn} (hp : s.phase = .body) (ho : s.owner = .cs) (hn : s.pendCs = none)
    (hx : txnPart i s = some x) : turnPart i s = setPend .cs (some x) s := by
  obtain ⟨start, hframe⟩ := turnPart_frame hi
  have hc : canIssue .cs s = true := by simp [canIssue, State.pend, Sequencer.owner, ho, hn]
  simp only [hframe, commandTurn, hp, hx, issue, hc, if_true]

theorem turnPart_release (hp : s.phase = .body) (hx : txnPart i s = none) :
    turnPart i s = setPhase .respond (release .cs s) := by
  obtain ⟨start, hframe⟩ := turnPart_frame hi
  simp only [hframe, commandTurn, hp, hx]

theorem turnPart_finish (hp : s.phase = .respond) : turnPart i s = finishPart i s := by
  obtain ⟨start, hframe⟩ := turnPart_frame hi
  simp only [hframe, commandTurn, hp]

theorem backPart_err_idle : (backPart i .err s).cs = .idle := by
  obtain ⟨hstart, hstop⟩ := hi
  cases i with
  | cfgInIrq p =>
    simp only [backPart, onReturn, cfgFail]
    split <;> rfl
  | pollStart => exact absurd rfl hstart
  | pollStop => exact absurd rfl hstop
  | _ => rfl

end

/-! No part of a command reads the schedule (log 1). -/

theorem commandTurn_setInputs {start finish : State → State} {txn : State → Option Txn} {l : List Event}
    (hstart : ∀ s, start (setInputs l s) = setInputs l (start s)) (htxn : ∀ s, txn (setInputs l s) = txn s)
    (hfinish : ∀ s, finish (setInputs l s) = setInputs l (finish s)) (s : State) :
    commandTurn start txn finish (setInputs l s) = setInputs l (commandTurn start txn finish s) := by
  simp only [commandTurn, setInputs_phase, htxn, hstart, hfinish]
  cases s.phase with
  | start | respond => rfl
  | acquire => simp only [apply_ite (setInputs l)]; rfl
  | body =>
    cases txn s with
    | none => rfl
    | some x => simp only [issue, apply_ite (setInputs l)]; rfl

theorem pinStart_setInputs (p : Nat) (l : List Event) (s : State) :
    pinStart p (setInputs l s) = setInputs l (pinStart p s) := by
  simp only [pinStart, apply_ite (setInputs l)]; rfl

theorem turnPart_setInputs (i : Instr) (l : List Event) (s : State) :
    turnPart i (setInputs l s) = setInputs l (turnPart i s) := by
  cases i with
  | init n =>
    refine commandTurn_setInputs (fun s => ?_) (fun _ => rfl) (fun s => ?_) s
    · simp only [initStart, apply_ite (setInputs l)]; rfl
    · simp only [initFinish, apply_ite (setInputs l)]; rfl
  | allOn =>
    refine commandTurn_setInputs (start := allOnStart) (finish := finishOk) ?_ (fun _ => rfl) (fun _ => rfl) s
    intro s
    simp only [allOnStart, apply_ite (setInputs l)]; rfl
  | allOff =>
    refine commandTurn_setInputs (start := allOffStart) (finish := finishOk) ?_ (fun _ => rfl) (fun _ => rfl) s
    intro s
    simp only [allOffStart, apply_ite (setInputs l)]; rfl
  | pollStart => simp only [turnPart, pollStartTurn, apply_ite (setInputs l)]; rfl
  | pollStop => rfl
  | read p =>
    exact commandTurn_setInputs (finish := readFinish p) (pinStart_setInputs p l) (fun _ => rfl) (fun _ => rfl) s
  | setOn p | setOff p | toggle p | cfgInIrq p =>
    exact commandTurn_setInputs (finish := finishOk) (pinStart_setInputs p l) (fun _ => rfl) (fun _ => rfl) s

theorem backPart_setInputs (i : Instr) (r : BusReturn) (l : List Event) (s : State) :
    backPart i r (setInputs l s) = setInputs l (backPart i r s) := by
  cases i with
  | init n =>
    cases r with
    | err | data b => rfl
    | wrote => simp only [backPart, onReturn, initOk, initBeginSnap, apply_ite (setInputs l)]; rfl
  | cfgInIrq p =>
    cases r with
    | err => simp only [backPart, onReturn, cfgFail, apply_ite (setInputs l)]; rfl
    | wrote | data b => rfl
  | _ => cases r <;> rfl

/-! The run through a schedule. -/

/-- A running command run through a schedule. -/
def runThrough (i : Instr) (l : List Event) (s : State) : Result := drive (turnPart i) (backPart i) l s

theorem exec_eq_runThrough (i : Instr) {s : State} {l : List Event} (hb : s.cs = .busy) (hin : s.inputs = l) :
    exec i s = runThrough i l s := by
  rw [exec_busy i s hb, hin, runThrough]

theorem runThrough_setInputs (i : Instr) (l l' : List Event) (s : State) :
    runThrough i l (setInputs l' s) = runThrough i l s := by
  cases l <;> rfl

theorem runThrough_csTurn (i : Instr) (es : List Event) {s : State} (hn : s.pendCs = none) :
    runThrough i (.csTurn :: es) s =
      if (turnPart i s).cs = .idle then .next (setInputs es (turnPart i s)) else runThrough i es (turnPart i s) := by
  have hstep : agentStep (turnPart i) (backPart i) .csTurn (setInputs es s) = .next (setInputs es (turnPart i s)) := by
    simp only [agentStep, setInputs_pendCs, hn, if_true, turnPart_setInputs]
  rw [runThrough, drive_cons _ _ _ es s _ hstep]
  exact congrArg _ (runThrough_setInputs i es es (turnPart i s))

/-- A command that its first local step ends. -/
theorem exec_ends_at_first_turn {i : Instr} {s : State} {es : List Event} (hs : Accepted s)
    (hin : s.inputs = .csTurn :: es) (hend : (turnPart i s).cs = .idle) :
    exec i s = .next (setInputs es (turnPart i s)) := by
  obtain ⟨hb, -, -, hn, -⟩ := hs
  rw [exec_eq_runThrough i hb hin, runThrough_csTurn i es hn, if_pos hend]

theorem raise_of_owner_ne_cs {s : State} (ho : s.owner ≠ .cs) (e : ErrCode) (n : Byte) :
    raise e n s = { s with cs := .idle, resp := ⟨e.code, 0x00, n⟩ } := by
  simp [raise, release, Sequencer.owner, ho]

/-- A command that its first local step refuses changes only the response. -/
theorem exec_refused {i : Instr} {s : State} {es : List Event} {e : ErrCode} {n : Byte} (hs : Accepted s)
    (hin : s.inputs = .csTurn :: es) (hturn : turnPart i s = raise e n s) :
    exec i s = .next { s with cs := .idle, resp := ⟨e.code, 0x00, n⟩, inputs := es } := by
  have ⟨_, _, _, _, ho⟩ := hs
  rw [exec_ends_at_first_turn hs hin (by rw [hturn, raise_cs]), hturn, raise_of_owner_ne_cs ho]
  rfl

/-- The CS holds the lock and stands at the transaction with index `c.tx`. -/
abbrev AtTxn (s : State) : Prop := s.cs = .busy ∧ s.phase = .body ∧ s.owner = .cs ∧ s.pendCs = none

/-- An OK outcome takes the CS to the next transaction. -/
theorem AtTxn.back {s : State} (h : AtTxn s) (i : Instr) {r : BusReturn} (hr : r ≠ .err) (m : Memory) :
    AtTxn (backPart i r (setMem m s)) := by
  have hu := backPart_leaves i r (setMem m s)
  generalize backPart i r (setMem m s) = u at hu ⊢
  cases hu with
  | fail _ _ _ he | discard _ _ he => exact absurd he hr
  | count | none => exact h
  | snapshot n =>
    obtain ⟨a, k, hu⟩ := initOk_eq n r (setMem m s)
    rw [hu]
    exact h

section
variable {i : Instr} {s : State} (hi : i ≠ .pollStart ∧ i ≠ .pollStop) (hs : AtTxn s)
include hi hs

theorem runThrough_issue {x : Txn} (hx : txnPart i s = some x) (es : List Event) :
    runThrough i (.csTurn :: es) s = runThrough i es (setPend .cs (some x) s) := by
  obtain ⟨hb, hp, ho, hn⟩ := hs
  rw [runThrough_csTurn i es hn, turnPart_issue hi hp ho hn hx, if_neg (by simp [hb])]

theorem runThrough_complete {x : Txn} {o : BusOutcome} {m : Memory} {r : BusReturn} (hx : txnPart i s = some x)
    (hr : busRun s.cfg.regAddr s.mem x o = some (m, r)) (es : List Event) :
    runThrough i (.csTurn :: .complete .cs o :: es) s =
      if (backPart i r (setMem m s)).cs = .idle then .next (setInputs es (backPart i r (setMem m s)))
      else runThrough i es (backPart i r (setMem m s)) := by
  have ⟨_, _, _, hn⟩ := hs
  have hclear : setPend .cs none (setMem m (setInputs es (setPend .cs (some x) s))) = setInputs es (setMem m s) := by
    simp only [setPend, setMem, setInputs, ← hn]
  have hstep : agentStep (turnPart i) (backPart i) (.complete .cs o) (setInputs es (setPend .cs (some x) s)) =
      .next (setInputs es (backPart i r (setMem m s))) := by
    rw [← backPart_setInputs, ← hclear]
    exact completeTxn_eq .cs _ o (setInputs es (setPend .cs (some x) s)) x m r rfl hr
  rw [runThrough_issue hi hs hx, runThrough, drive_cons _ _ _ es _ _ hstep]
  exact congrArg _ (runThrough_setInputs i es es _)

/-- After the last transaction: `release()`, then the response. -/
theorem runThrough_end (hx : txnPart i s = none) (es : List Event) :
    runThrough i (.csTurn :: .csTurn :: es) s =
      .next (setInputs es (finishPart i (setPhase .respond (release .cs s)))) := by
  obtain ⟨hb, hp, -, hn⟩ := hs
  rw [runThrough_csTurn i _ hn, turnPart_release hi hp hx, if_neg (by simp [hb]),
    runThrough_csTurn i es (by simpa using hn), turnPart_finish hi rfl, if_pos (finishPart_idle i _).1]

end

/-- All that is compared when the CS scratch is left out (R21). -/
theorem noScratch_congr {s t : State} (hh : SameHandle s t) (hp : SamePoll s t) (hcs : t.cs = s.cs)
    (ho : t.owner = s.owner) (hn : t.pendCs = s.pendCs) (hr : t.resp = s.resp) (hm : t.mem = s.mem)
    (hin : t.inputs = s.inputs) : noScratch t = noScratch s := by
  cases s; cases t
  simp_all [noScratch, SameHandle, SamePoll]

/-! From the accepted word to the transaction with index `k`. -/

/-- From the accepted command in `s`, the checks, `acquire()` and `k` transactions that complete with OK take the CS to
the next transaction, in the state `u`. -/
def Reaches (i : Instr) (s : State) (k : Nat) (u : State) : Prop :=
  AtTxn u ∧ ∀ l, s.inputs = [.csTurn, .csTurn] ++ okTxns k ++ l → exec i s = runThrough i l u

section
variable {i : Instr} {s u : State} {k : Nat} {es : List Event} (hi : i ≠ .pollStart ∧ i ≠ .pollStop)
include hi

/-- The checks leave `u`, and the lock is FREE. -/
theorem reaches_zero (hs : Accepted s) (hstart : turnPart i s = setPhase .acquire u) (hb : u.cs = .busy)
    (hn : u.pendCs = none) (ho : u.owner = .free) : Reaches i s 0 (setPhase .body (takeLock .cs u)) := by
  refine ⟨⟨hb, rfl, rfl, hn⟩, fun l hin => ?_⟩
  obtain ⟨hsb, -, -, hsn, -⟩ := hs
  have hin : s.inputs = .csTurn :: .csTurn :: l := hin
  rw [exec_eq_runThrough i hsb hin, runThrough_csTurn i _ hsn, hstart, if_neg (by simp [hb]),
    runThrough_csTurn i l (by simpa using hn), turnPart_acquire hi rfl (by simpa using ho), if_neg (by simp [hb])]
  rfl

theorem Reaches.succ (h : Reaches i s k u) {x : Txn} {m : Memory} {r : BusReturn} (hx : txnPart i u = some x)
    (hr : busRun u.cfg.regAddr u.mem x .ok = some (m, r)) : Reaches i s (k + 1) (backPart i r (setMem m u)) := by
  obtain ⟨hat, hrun⟩ := h
  have hok : r ≠ .err := by
    rcases busRun_return _ _ _ _ _ _ hr with ⟨_, ho, -⟩ | ⟨-, -, rfl⟩ | ⟨-, _, -, rfl⟩
    · cases ho
    · simp
    · simp
  have hv := hat.back i hok m
  refine ⟨hv, fun l hin => ?_⟩
  have hlist : okTxns (k + 1) = okTxns k ++ [.csTurn, .complete .cs .ok] := by
    simp [okTxns, List.replicate_succ']
  rw [hrun (.csTurn :: .complete .cs .ok :: l) (by simp [hin, hlist]), runThrough_complete hi hat hx hr,
    if_neg (by simp [hv.1])]

/-- The run of a command all of whose transactions complete with OK. -/
theorem Reaches.exec_served (h : Reaches i s k u) (hx : txnPart i u = none) (hin : s.inputs = served k ++ es) :
    exec i s = .next (setInputs es (finishPart i (setPhase .respond (release .cs u)))) := by
  obtain ⟨hat, hrun⟩ := h
  rw [hrun (.csTurn :: .csTurn :: es) (by simp [hin, served]), runThrough_end hi hat hx]

/-- The run of a command whose transaction `k` completes with ERR. -/
theorem Reaches.exec_failedAt (h : Reaches i s k u) {x : Txn} {took : Bool} {m : Memory} (hx : txnPart i u = some x)
    (hr : busRun u.cfg.regAddr u.mem x (.err took) = some (m, .err)) (hin : s.inputs = failedAt k took ++ es) :
    exec i s = .next (setInputs es (backPart i .err (setMem m u))) := by
  obtain ⟨hat, hrun⟩ := h
  rw [hrun (.csTurn :: .complete .cs (.err took) :: es) (by simp [hin, failedAt, issuing]),
    runThrough_complete hi hat hx hr, if_pos (backPart_err_idle hi)]

/-- The run of a command up to the issue of transaction `k`. -/
theorem Reaches.exec_issuing (h : Reaches i s k u) {x : Txn} (hx : txnPart i u = some x)
    (hin : s.inputs = issuing k) : exec i s = .next (setInputs [] (setPend .cs (some x) u)) := by
  obtain ⟨hat, hrun⟩ := h
  rw [hrun [.csTurn] (by simp [hin, issuing]), runThrough_issue hi hat hx]
  rfl

end

end Sys2Proof.Machine
end

section
/-! Proofs of 40_init.md, the meaning of INIT: its refusal while the poll loop runs (R94), its state after each
transaction (R89 to R91), its two ends (R89, R93) and its failure (R92). -/

namespace Sys2Proof.Machine

/-! Values given to the registers of a list, in order. -/

theorem writeAll_take_succ {l : List Reg} {k : Nat} {n : Reg} (h : l[k]? = some n) (rm : RegMap) (g : Reg → Byte)
    (m : Memory) : writeAll rm g (l.take (k + 1)) m = (writeAll rm g (l.take k) m).write (regKey rm n) (g n) := by
  simp [writeAll, List.take_add_one, h]

theorem writeAll_read_other {rm : RegMap} {l : List Reg} {a : Nat} (ha : ∀ n ∈ l, regKey rm n ≠ a) (g : Reg → Byte)
    (m : Memory) : (writeAll rm g l m).read a = m.read a := by
  induction l generalizing m with
  | nil => rfl
  | cons n l ih =>
    have htail : (writeAll rm g l (m.write (regKey rm n) (g n))).read a = (m.write (regKey rm n) (g n)).read a :=
      ih (fun k hk => ha k (by simp [hk])) _
    exact htail.trans (Memory.read_write_other _ _ _ _ (ha n (by simp)))

/-! The snapshot (R91). -/

theorem getLsbD_allMask (n q : Nat) : (allMask n).getLsbD q = (decide (q < 8) && decide (q < n)) := by
  simp only [allMask_eq, BitVec.getLsbD_ofNat, Nat.testBit_two_pow_sub_one]

/-- The bit of the next pin joins the bits below it. -/
theorem putBit_low_bits (w : Byte) {j : Nat} (hj : j < 8) :
    putBit (w &&& allMask j) j (w.getLsbD j) = w &&& allMask (j + 1) := by
  refine BitVec.eq_of_getLsbD_eq fun q hq => ?_
  rw [getLsbD_putBit _ _ _ _ hj, BitVec.getLsbD_and, BitVec.getLsbD_and, getLsbD_allMask, getLsbD_allMask]
  by_cases h : q = j
  · subst h; simp [hj]
  · rw [if_neg h, show decide (q < j + 1) = decide (q < j) by simp; omega]

/-! INIT's transactions, by the index of the next one. -/

/-- The registers INIT clears, in the source's order (R90). -/
def initOrder : List Reg := [.dir, .gppu, .intcon]

theorem initOrder_or (k : Nat) : (∃ r, initOrder[k]? = some r) ∨ 3 ≤ k := by
  match k with
  | 0 | 1 | 2 => exact .inl ⟨_, rfl⟩
  | k + 3 => exact .inr (Nat.le_add_left 3 k)

theorem initOrder_take {k : Nat} (h : 3 ≤ k) : initOrder.take k = initOrder := List.take_of_length_le h

theorem snapReads_eq (n : Nat) : snapReads n = if 1 ≤ n ∧ n ≤ 8 then n else 0 := by
  simp only [snapReads, legalCount_iff]

theorem legal_of_lt_snapReads {n j : Nat} (h : j < snapReads n) : legalCount n = true ∧ snapReads n = n := by
  cases hl : legalCount n with
  | true => simp [snapReads, hl]
  | false => simp [snapReads, hl] at h

theorem initTxn_of_three_le {n : Nat} {s : State} (h : 3 ≤ s.tx.toNat) :
    initTxn n s = if s.i < snapReads n then some (.read (s.cfg.regAddr.addr .port)) else none := by
  have h0 : s.tx ≠ 0 := by bv_omega
  have h1 : s.tx ≠ 1 := by bv_omega
  have h2 : s.tx ≠ 2 := by bv_omega
  simp only [initTxn, h0, h1, h2, if_false, snapReads]
  by_cases hl : legalCount n = true <;> simp [hl]

/-- The state of an INIT `n` that started in `s`, after `k` transactions that completed with OK and before the next step
of the CS. -/
def initAt (n k : Nat) (s : State) : State :=
  { discardHandle s with
    phase := .body, owner := .cs, tx := BitVec.ofNat 8 k
    v := if 3 < k then s.target .port else s.v
    i := if legalCount n && decide (3 ≤ k) then k - 3 else s.i
    acc := if legalCount n && decide (3 ≤ k) then s.target .port &&& allMask (k - 3) else s.acc
    mem := writeAll s.cfg.regAddr (fun _ => 0x00) (initOrder.take k) s.mem }

theorem initTxn_initAt_write {k : Nat} {r : Reg} (hk : initOrder[k]? = some r) (n : Nat) (s : State) :
    initTxn n (initAt n k s) = some (.write (s.cfg.regAddr.addr r) 0x00) := by
  match k with
  | 0 | 1 | 2 => cases hk; rfl
  | k + 3 => simp [initOrder] at hk

theorem initTxn_initAt_read {n k : Nat} (h3 : 3 ≤ k) (hk : k < 3 + snapReads n) (s : State) :
    initTxn n (initAt n k s) = some (.read (s.cfg.regAddr.addr .port)) := by
  have h8 := snapReads_le n
  obtain ⟨hl, hn⟩ := legal_of_lt_snapReads (j := k - 3) (n := n) (by omega)
  rw [initTxn_of_three_le (by simp [initAt]; omega), if_pos (by simp [initAt, hl, h3]; omega)]
  rfl

theorem initTxn_initAt_end (n : Nat) (s : State) : initTxn n (initAt n (3 + snapReads n) s) = none := by
  have h8 := snapReads_le n
  rw [initTxn_of_three_le (by simp [initAt]; omega), if_neg]
  cases hl : legalCount n <;> simp [initAt, snapReads, hl]

theorem backPart_initAt_write {k : Nat} {r : Reg} (hk : initOrder[k]? = some r) (n : Nat) (s : State) :
    backPart (.init n) .wrote (setMem ((initAt n k s).mem.write (regKey s.cfg.regAddr r) 0x00) (initAt n k s)) =
      initAt n (k + 1) s := by
  have hm : (initAt n k s).mem.write (regKey s.cfg.regAddr r) 0x00 = (initAt n (k + 1) s).mem :=
    (writeAll_take_succ hk _ _ _).symm
  rw [hm]
  match k with
  | 0 | 1 => simp [backPart, onReturn, initOk, initBeginSnap, advance, initAt, setMem]
  | 2 =>
    cases hl : legalCount n <;>
      simp [backPart, onReturn, initOk, initBeginSnap, advance, initAt, setMem, hl, allMask_eq]
  | k + 3 => simp [initOrder] at hk

/-- PORT is none of the registers INIT writes. -/
theorem initAt_port {s : State} (hw : s.cfg.regAddr.wf) (n k : Nat) : (initAt n k s).target .port = s.target .port := by
  refine writeAll_read_other (fun r hr => regKey_ne _ hw ?_) _ _
  have hr := List.mem_of_mem_take hr
  rintro rfl
  exact absurd hr (by decide)

theorem backPart_initAt_read {n k : Nat} (h3 : 3 ≤ k) (hk : k < 3 + snapReads n) (s : State) :
    backPart (.init n) (.data (s.target .port)) (initAt n k s) = initAt n (k + 1) s := by
  have h8 := snapReads_le n
  obtain ⟨hl, -⟩ := legal_of_lt_snapReads (j := k - 3) (n := n) (by omega)
  have hi : (initAt n k s).i = k - 3 := by simp [initAt, hl, h3]
  have hacc : (initAt n k s).acc = s.target .port &&& allMask (k - 3) := by simp [initAt, hl, h3]
  have hmem : initOrder.take (k + 1) = initOrder.take k := by
    rw [initOrder_take h3, initOrder_take (by omega)]
  simp only [backPart, onReturn, initOk, hi, hacc, putBit_low_bits _ (show k - 3 < 8 by omega)]
  simp [advance, initAt, hl, h3, hmem, show 3 ≤ k + 1 by omega, show 3 < k + 1 by omega,
    show k + 1 - 3 = k - 3 + 1 by omega, BitVec.ofNat_add]

/-- Only INIT's reads need the register map to tell its registers apart. -/
theorem reaches_initAt {n : Nat} {s : State} (hs : Accepted s) (hrun : s.pollRun = false) (ho : s.owner = .free)
    {k : Nat} (hw : 3 < k → s.cfg.regAddr.wf) (hk : k ≤ 3 + snapReads n) : Reaches (.init n) s k (initAt n k s) := by
  induction k with
  | zero =>
    have ⟨hb, hp, htx, hn, _⟩ := hs
    have hstart : turnPart (.init n) s = setPhase .acquire (discardHandle s) := by
      simp [turnPart, commandTurn, hp, initStart, hrun]
    have hat : initAt n 0 s = setPhase .body (takeLock .cs (discardHandle s)) := by
      simp [initAt, setPhase, takeLock, Sequencer.owner, writeAll, htx, discardHandle]
    rw [hat]
    exact reaches_zero (by simp) hs hstart hb hn ho
  | succ k ih =>
    have h := ih (fun h => hw (by omega)) (by omega)
    rcases initOrder_or k with ⟨r, hr⟩ | h3
    · rw [← backPart_initAt_write hr]
      exact h.succ (by simp) (initTxn_initAt_write hr n s) (busRun_write_ok _ _ r _)
    · have hw := hw (by omega)
      have hread := busRun_read_ok _ hw (initAt n k s).mem .port
      rw [if_neg (by decide), show (initAt n k s).mem.read (regKey s.cfg.regAddr .port) = s.target .port from
        initAt_port hw n k] at hread
      rw [← backPart_initAt_read h3 (by omega)]
      exact h.succ (by simp) (initTxn_initAt_read h3 (by omega) s) hread

/-- What a transaction of INIT that completes with ERR leaves at the target: a read has no effect there. -/
theorem initAt_err {n k : Nat} {s : State} (hw : s.cfg.regAddr.wf) (hk : k < 3 + snapReads n) (took : Bool) :
    ∃ x, initTxn n (initAt n k s) = some x ∧ busRun s.cfg.regAddr (initAt n k s).mem x (.err took) =
      some (writeAll s.cfg.regAddr (fun _ => 0x00) (initOrder.take (if took then k + 1 else k)) s.mem, .err) := by
  rcases initOrder_or k with ⟨r, hr⟩ | h3
  · refine ⟨_, initTxn_initAt_write hr n s, ?_⟩
    rw [busRun_write_err]
    cases took with
    | false => rfl
    | true => simp only [if_true, writeAll_take_succ hr]; rfl
  · refine ⟨_, initTxn_initAt_read h3 hk s, ?_⟩
    rw [busRun_read_err _ hw, if_neg (by simp), initOrder_take (by cases took <;> simp <;> omega)]
    simp only [initAt, initOrder_take h3]

/-- Settles O8: the last state of the run, in which `c.acc` holds the levels of the `n` pins, published. -/
theorem initWithLegalCountCompletes : Obligations.InitWithLegalCountCompletes := by
  unfold Obligations.InitWithLegalCountCompletes
  intro n s es hs h1 h8 hrun ho hw hin
  have hl := (legalCount_iff n).2 ⟨h1, h8⟩
  have hreads : snapReads n = n := by simp only [snapReads, hl, if_true]
  have hend := initTxn_initAt_end n s
  have h := reaches_initAt hs hrun ho (k := 3 + snapReads n) (fun _ => hw) le_rfl
  rw [hreads] at h hend
  refine ⟨_, h.exec_served (by simp) hend hin, ?_⟩
  have htake : initOrder.take (3 + n) = [.dir, .gppu, .intcon] := initOrder_take (by omega)
  apply noScratch_congr <;>
    simp [SameHandle, SamePoll, finishPart, initFinish, hl, initAt, Sequencer.owner, allMask_eq, ho, htake,
      ErrCode.code]

/-- Settles O9: the three writes need no read, so `c.acc` is never looked at. -/
theorem initWithIllegalCountCompletes : Obligations.InitWithIllegalCountCompletes := by
  unfold Obligations.InitWithIllegalCountCompletes
  intro n s es hs hn _ hrun ho hin
  have hl : legalCount n = false := by
    rw [Bool.eq_false_iff, Ne, legalCount_iff]
    omega
  have hreads : snapReads n = 0 := by simp [snapReads, hl]
  have hend := initTxn_initAt_end n s
  rw [hreads] at hend
  have h := reaches_initAt hs hrun ho (k := 3) (n := n) (by simp) (by simp)
  refine ⟨_, h.exec_served (by simp) hend hin, ?_⟩
  apply noScratch_congr <;>
    simp [SameHandle, SamePoll, finishPart, initFinish, hl, initAt, Sequencer.owner, ho, ErrCode.code, initOrder]

/-- Settles O10: the state before the failing transaction, with what that one leaves at the target, and `fail()`. -/
theorem initFailureDiscardsTheHandle : Obligations.InitFailureDiscardsTheHandle := by
  unfold Obligations.InitFailureDiscardsTheHandle
  intro n k took s es hs hrun ho hw hk hin
  rw [← snapReads_eq] at hk
  have h := reaches_initAt hs hrun ho (fun _ => hw) hk.le
  obtain ⟨x, hx, hr⟩ := initAt_err hw hk took
  refine ⟨_, h.exec_failedAt (by simp) hx hr hin, ?_⟩
  apply noScratch_congr <;>
    simp [SameHandle, SamePoll, backPart, onReturn, initFail, initAt, ho, ErrCode.code, initOrder]

/-- Settles O12: the first local step of either command is the refusal, and the CS has no lock to release. -/
theorem refusedWhileTheLoopRuns : Obligations.RefusedWhileTheLoopRuns := by
  unfold Obligations.RefusedWhileTheLoopRuns
  intro i s es hi hs hrun hin
  have ⟨_, hp, _⟩ := hs
  refine exec_refused (e := .illegalState) hs hin ?_
  rcases hi with ⟨n, rfl⟩ | rfl
  · simp [turnPart, commandTurn, hp, initStart, hrun]
  · simp [turnPart, pollStartTurn, hrun]

end Sys2Proof.Machine
end

section
/-! Proofs of 40_init.md, the order of the transactions of INIT and of CFG_IN_IRQ (R90, R91, R110, R111). -/

namespace Sys2Proof.Machine

/-! CFG_IN_IRQ's state after each transaction. -/

/-- The state of a CFG_IN_IRQ `p` that started in `s`, after `k` transactions that completed with OK, with `v` in
`c.v`. -/
def cfgAt (p k : Nat) (v : Byte) (s : State) : State :=
  { s with
    phase := .body, owner := .cs, tx := BitVec.ofNat 8 k, v := v
    mem := writeAll s.cfg.regAddr (fun n => s.target n ||| mask p) (cfgOrder.take (k / 2)) s.mem }

/-- Each register of the order is none of those before it, and its read has no side effect (R65). -/
theorem cfgOrder_fresh {j : Nat} {n : Reg} (h : cfgOrder[j]? = some n) : n ∉ cfgOrder.take j ∧ n ≠ .intcap := by
  have fresh : ∀ j < 4, ∀ n ∈ cfgOrder[j]?, n ∉ cfgOrder.take j ∧ n ≠ .intcap := by decide
  obtain ⟨hj, -⟩ := List.getElem?_eq_some_iff.1 h
  exact fresh j hj n h

theorem cfgTxn_cfgAt {p k : Nat} {v : Byte} {n : Reg} {s : State} (hk : cfgOrder[k / 2]? = some n) :
    cfgTxn p (cfgAt p k v s) = some (if k % 2 = 0 then .read (s.cfg.regAddr.addr n)
      else .write (s.cfg.regAddr.addr n) (v ||| mask p)) := by
  obtain ⟨hlt, -⟩ := List.getElem?_eq_some_iff.1 hk
  have htx : (cfgAt p k v s).tx.toNat = k := by
    simp only [cfgOrder, List.length_cons, List.length_nil] at hlt
    simp [cfgAt]
    omega
  simp only [cfgTxn, htx, hk]
  split_ifs <;> rfl

/-- The register whose turn it is has the byte it had at the start. -/
theorem cfgAt_target {p k : Nat} {v : Byte} {n : Reg} {s : State} (hw : s.cfg.regAddr.wf)
    (hk : cfgOrder[k / 2]? = some n) : (cfgAt p k v s).target n = s.target n := by
  refine writeAll_read_other (fun r hr => regKey_ne _ hw ?_) _ _
  rintro rfl
  exact (cfgOrder_fresh hk).1 hr

/-- A read that completes takes CFG_IN_IRQ to the write of the same register, with the byte read in `c.v`. -/
theorem backPart_cfgAt_read (p : Nat) {k : Nat} (hk : k % 2 = 0) (v b : Byte) (s : State) :
    backPart (.cfgInIrq p) (.data b) (cfgAt p k v s) = cfgAt p (k + 1) b s := by
  simp [backPart, onReturn, advance, cfgAt, show (k + 1) / 2 = k / 2 by omega, BitVec.ofNat_add]

/-- A write of the byte read at the start takes CFG_IN_IRQ to the read of the next register. -/
theorem backPart_cfgAt_write (p : Nat) {k : Nat} (hk : k % 2 = 1) {n : Reg} (hn : cfgOrder[k / 2]? = some n) (v : Byte)
    (s : State) :
    backPart (.cfgInIrq p) .wrote
        (setMem ((cfgAt p k v s).mem.write (regKey s.cfg.regAddr n) (s.target n ||| mask p)) (cfgAt p k v s)) =
      cfgAt p (k + 1) v s := by
  simp [backPart, onReturn, advance, cfgAt, setMem, show (k + 1) / 2 = k / 2 + 1 by omega, BitVec.ofNat_add,
    writeAll_take_succ hn]

/-- With only the CS and BA moving, the byte read of each register, in `c.v` at its write, is the one it had at the
start. -/
theorem reaches_cfgAt {p : Nat} {s : State} (hp : p ≤ 7) (hs : Accepted s) (hready : s.ready = true)
    (ho : s.owner = .free) (hw : s.cfg.regAddr.wf) {k : Nat} (hk : k ≤ 8) :
    ∃ v, Reaches (.cfgInIrq p) s k (cfgAt p k v s) ∧
      (k % 2 = 1 → ∀ n, cfgOrder[k / 2]? = some n → v = s.target n) := by
  induction k with
  | zero =>
    have ⟨hb, hph, htx, hpend, _⟩ := hs
    have hstart : turnPart (.cfgInIrq p) s = setPhase .acquire s := by
      simp [turnPart, commandTurn, hph, pinStart, hready, (legalPin_iff p).2 hp]
    have hat : cfgAt p 0 s.v s = setPhase .body (takeLock .cs s) := by
      simp [cfgAt, setPhase, takeLock, Sequencer.owner, writeAll, htx]
    exact ⟨s.v, hat ▸ reaches_zero (by simp) hs hstart hb hpend ho, by simp⟩
  | succ k ih =>
    obtain ⟨v, h, hv⟩ := ih (by omega)
    obtain ⟨n, hn⟩ : ∃ n, cfgOrder[k / 2]? = some n :=
      ⟨_, List.getElem?_eq_getElem (show k / 2 < cfgOrder.length by simp [cfgOrder]; omega)⟩
    have hx := cfgTxn_cfgAt (p := p) (v := v) (s := s) hn
    rcases Nat.mod_two_eq_zero_or_one k with h0 | h1
    · rw [if_pos h0] at hx
      have hread := busRun_read_ok _ hw (cfgAt p k v s).mem n
      rw [if_neg (cfgOrder_fresh hn).2, show (cfgAt p k v s).mem.read (regKey s.cfg.regAddr n) = s.target n from
        cfgAt_target hw hn] at hread
      refine ⟨s.target n, backPart_cfgAt_read p h0 v _ s ▸ h.succ (by simp) hx hread, fun _ r hr => ?_⟩
      rw [show (k + 1) / 2 = k / 2 by omega, hn] at hr
      rw [Option.some.inj hr]
    · obtain rfl := hv h1 n hn
      rw [if_neg (by omega)] at hx
      exact ⟨_, backPart_cfgAt_write p h1 hn _ s ▸ h.succ (by simp) hx (busRun_write_ok _ _ n _), by omega⟩

/-- INIT holds the lock, its handle discarded, while the transaction whose turn it is is pending. -/
theorem init_issues_in_order {n k : Nat} {s : State} (hs : Accepted s) (hrun : s.pollRun = false) (ho : s.owner = .free)
    (hw : s.cfg.regAddr.wf) (hk : k < 3 + snapReads n) (hin : s.inputs = issuing k) :
    ∃ t, exec (.init n) s = .next t ∧ t.cs = .busy ∧ t.owner = .cs ∧ t.ready = false ∧
      t.pendCs = initTxn n (initAt n k s) := by
  have h := reaches_initAt hs hrun ho (fun _ => hw) hk.le
  have ⟨⟨hb, _, hown, _⟩, _⟩ := h
  obtain ⟨x, hx, -⟩ := initAt_err hw hk true
  exact ⟨_, h.exec_issuing (by simp) hx hin, hb, hown, rfl, hx.symm⟩

/-- Settles O11: each command, stopped at its transaction `k`, has the one pending that its state there names. -/
theorem transactionsAreIssuedInOrder : Obligations.TransactionsAreIssuedInOrder := by
  unfold Obligations.TransactionsAreIssuedInOrder
  refine ⟨fun n k s hs hrun ho hw hk hin => ?init, fun p k n s hp hn hs hready ho hw _ hin => ?cfg⟩
  case init =>
    rw [← snapReads_eq] at hk
    obtain ⟨t, ht, hb, hown, hready, hpend⟩ := init_issues_in_order hs hrun ho hw hk hin
    refine ⟨t, ht, hb, hown, hready, hpend.trans ?_⟩
    match k with
    | 0 | 1 | 2 => rfl
    | k + 3 => exact initTxn_initAt_read (by omega) hk s
  case cfg =>
    obtain ⟨hlt, -⟩ := List.getElem?_eq_some_iff.1 hn
    simp only [List.length_cons, List.length_nil] at hlt
    obtain ⟨v, h, hv⟩ := reaches_cfgAt (k := k) hp hs hready ho hw (by omega)
    have ⟨⟨hb, _, hown, _⟩, _⟩ := h
    have hx := cfgTxn_cfgAt (p := p) (v := v) (s := s) hn
    refine ⟨_, h.exec_issuing (by simp) hx hin, hb, hown, ?_⟩
    rcases Nat.mod_two_eq_zero_or_one k with h0 | h1
    · simp [h0]
    · simp [h1, hv h1 n hn, mask_eq]

end Sys2Proof.Machine
end

section
/-! Proofs of 41_pin_mutation.md, the run of each pin command while only the CS and BA move (R97 to R104, R108), and
TOGGLE run twice (R102). -/

namespace Sys2Proof.Machine

/-! A command that keeps its place in `c.tx` and `c.v` alone, from transaction to transaction. -/

/-- The state of a command that started in `s`, after `k` transactions that completed with OK, with `v` in `c.v` and the
target's registers `m`. -/
def pinAt (s : State) (k : Nat) (v : Byte) (m : Memory) : State :=
  { s with phase := .body, owner := .cs, tx := BitVec.ofNat 8 k, v := v, mem := m }

theorem pinStart_passes {p : Nat} {s : State} (hp : p ≤ 7) (hready : s.ready = true) :
    pinStart p s = setPhase .acquire s := by
  simp [pinStart, hready, (legalPin_iff p).2 hp]

/-- A failed read of PORT has no effect at the target (R61, R65). -/
theorem busRun_port_read_err {rm : RegMap} (hw : rm.wf) (m : Memory) (took : Bool) :
    busRun rm m (.read (rm.addr .port)) (.err took) = some (m, .err) := by
  simpa using busRun_read_err rm hw m .port took

section
variable {i : Instr} {s : State} {k : Nat} {v : Byte} {m : Memory} {es : List Event}
  (hi : i ≠ .pollStart ∧ i ≠ .pollStop)

include hi in
/-- The checks have passed and the lock is taken. -/
theorem reaches_pinAt_zero (hs : Accepted s) (ho : s.owner = .free) (hstart : turnPart i s = setPhase .acquire s) :
    Reaches i s 0 (pinAt s 0 s.v s.mem) := by
  have ⟨hb, _, htx, hn, _⟩ := hs
  have hat : pinAt s 0 s.v s.mem = setPhase .body (takeLock .cs s) := by
    simp [pinAt, setPhase, takeLock, Sequencer.owner, htx]
  exact hat ▸ reaches_zero hi hs hstart hb hn ho

variable (hback : backPart i = onReturn advance busFail)
include hi hback

/-- A read that completes, of a register whose read has no side effect (R65). -/
theorem Reaches.pinAt_read (h : Reaches i s k (pinAt s k v m)) (hw : s.cfg.regAddr.wf) {n : Reg} (hn : n ≠ .intcap)
    (hx : txnPart i (pinAt s k v m) = some (.read (s.cfg.regAddr.addr n))) :
    Reaches i s (k + 1) (pinAt s (k + 1) (m.read (regKey s.cfg.regAddr n)) m) := by
  have hread := busRun_read_ok _ hw m n
  rw [if_neg hn] at hread
  have hnext := h.succ hi hx hread
  rw [hback] at hnext
  simpa [onReturn, advance, pinAt, setMem, BitVec.ofNat_add] using hnext

/-- A write that completes. -/
theorem Reaches.pinAt_write (h : Reaches i s k (pinAt s k v m)) {n : Reg} {b : Byte}
    (hx : txnPart i (pinAt s k v m) = some (.write (s.cfg.regAddr.addr n) b)) :
    Reaches i s (k + 1) (pinAt s (k + 1) v (m.write (regKey s.cfg.regAddr n) b)) := by
  have hnext := h.succ hi hx (busRun_write_ok _ _ n b)
  rw [hback] at hnext
  simpa [onReturn, advance, pinAt, setMem, BitVec.ofNat_add] using hnext

/-- A transaction that completes with ERR ends the command as BUS_FAIL with its index (R108). -/
theorem Reaches.pinAt_fails (h : Reaches i s k (pinAt s k v m)) (ho : s.owner = .free) {x : Txn} {took : Bool}
    {m' : Memory} (hx : txnPart i (pinAt s k v m) = some x)
    (hr : busRun s.cfg.regAddr m x (.err took) = some (m', .err)) (hin : s.inputs = failedAt k took ++ es) :
    RunsTo i s { s with cs := .idle, resp := ⟨1, 0, BitVec.ofNat 8 k⟩, inputs := es, mem := m' } := by
  refine ⟨_, h.exec_failedAt hi hx hr hin, ?_⟩
  rw [hback]
  apply noScratch_congr <;> simp [SameHandle, SamePoll, onReturn, busFail, pinAt, ho, ErrCode.code]

omit hback in
/-- After its last transaction a command whose response is `{OK, 0x00, 0x00}` ends. -/
theorem Reaches.pinAt_ends (h : Reaches i s k (pinAt s k v m)) (ho : s.owner = .free)
    (hfinish : finishPart i = finishOk) (hx : txnPart i (pinAt s k v m) = none) (hin : s.inputs = served k ++ es) :
    RunsTo i s { s with cs := .idle, resp := ⟨0, 0, 0⟩, inputs := es, mem := m } := by
  refine ⟨_, h.exec_served hi hx hin, ?_⟩
  rw [hfinish]
  apply noScratch_congr <;> simp [SameHandle, SamePoll, finishOk, pinAt, Sequencer.owner, ho, ErrCode.code]

end

/-! READ (R98, R99). -/

theorem putBit_eq (w : Byte) (p : Nat) (b : Bool) :
    putBit w p b = if b then w ||| (1 : Byte) <<< p else w &&& ~~~ ((1 : Byte) <<< p) := by
  rw [putBit, nmask_eq, mask_eq]

/-- READ's end by the level of its pin in the byte read. -/
theorem readFinish_eq {p : Nat} (hp : p ≤ 7) (s : State) :
    readFinish p s = respond .ok (if s.v.getLsbD p then 1 else 0) 0x00
      { s with snap := if p < s.snapLen.toNat then
          (if s.v.getLsbD p then s.snap ||| (1 : Byte) <<< p else s.snap &&& ~~~ ((1 : Byte) <<< p)) else s.snap } := by
  simp only [readFinish, isolateBit_eq s.v p hp, putBit_eq]
  cases s.v.getLsbD p <;> rfl

/-- Settles O13: one read, whose byte `c.v` holds when READ ends. -/
theorem readAnswersTheLevel : Obligations.ReadAnswersTheLevel := by
  unfold Obligations.ReadAnswersTheLevel
  intro p s es hp hs hready ho hw
  have ⟨_, hph, _⟩ := hs
  have hstart : turnPart (.read p) s = setPhase .acquire s := by
    simp [turnPart, commandTurn, hph, pinStart_passes hp hready]
  have h0 := reaches_pinAt_zero (by simp) hs ho hstart
  refine ⟨fun hin => ?_, fun took hin => ?_⟩
  · have h1 := h0.pinAt_read (n := .port) (by simp) rfl hw (by decide) rfl
    have hlevel : s.mem.read (regKey s.cfg.regAddr .port) = s.target .port := rfl
    refine ⟨_, h1.exec_served (by simp) rfl hin, ?_⟩
    rw [finishPart, readFinish_eq hp]
    apply noScratch_congr <;> simp [SameHandle, SamePoll, pinAt, Sequencer.owner, ho, ErrCode.code, hlevel]
  · exact h0.pinAt_fails (by simp) rfl ho rfl (busRun_port_read_err hw s.mem took) hin

/-! SET_ON, SET_OFF and TOGGLE (R100 to R102, R105, R108). -/

/-- The mutations of a single pin, each with the value it computes. -/
abbrev PinMutation (p : Nat) (i : Instr) (g : Byte → Byte) : Prop :=
  (i = .setOn p ∧ g = fun v => v ||| (1 : Byte) <<< p) ∨
    (i = .setOff p ∧ g = fun v => v &&& ~~~ ((1 : Byte) <<< p)) ∨
    (i = .toggle p ∧ g = fun v => v ^^^ (1 : Byte) <<< p)

/-- The three commands differ in the value they compute alone. -/
theorem PinMutation.parts {p : Nat} {i : Instr} {g : Byte → Byte} (h : PinMutation p i g) :
    (i ≠ .pollStart ∧ i ≠ .pollStop) ∧ turnPart i = commandTurn (pinStart p) (rmwTxn .port g) finishOk ∧
      txnPart i = rmwTxn .port g ∧ backPart i = onReturn advance busFail ∧ finishPart i = finishOk := by
  simp only [PinMutation, ← mask_eq] at h
  rcases h with ⟨rfl, rfl⟩ | ⟨rfl, rfl⟩ | ⟨rfl, rfl⟩ <;> exact ⟨by simp, rfl, rfl, rfl, rfl⟩

/-- One read and one write of PORT, whichever value is computed. -/
theorem PinMutation.ends {p : Nat} {i : Instr} {g : Byte → Byte} {s : State} {es : List Event} (h : PinMutation p i g)
    (hp : p ≤ 7) (hs : Accepted s) (hready : s.ready = true) (ho : s.owner = .free) (hw : s.cfg.regAddr.wf) :
    PinMutationEnds i g s es := by
  obtain ⟨hi, hturn, htxn, hback, hfinish⟩ := h.parts
  have ⟨_, hph, _⟩ := hs
  have hstart : turnPart i s = setPhase .acquire s := by
    simp [hturn, commandTurn, hph, pinStart_passes hp hready]
  have hread : txnPart i (pinAt s 0 s.v s.mem) = some (.read (s.cfg.regAddr.addr .port)) := by rw [htxn]; rfl
  have hwrite : txnPart i (pinAt s 1 (s.target .port) s.mem) =
      some (.write (s.cfg.regAddr.addr .port) (g (s.target .port))) := by rw [htxn]; rfl
  have h0 := reaches_pinAt_zero hi hs ho hstart
  have h1 := h0.pinAt_read hi hback hw (by decide) hread
  refine ⟨fun hin => ?_, fun took hin => ?_, fun took hin => ?_⟩
  · exact (h1.pinAt_write hi hback hwrite).pinAt_ends hi ho hfinish (by rw [htxn]; rfl) hin
  · exact h0.pinAt_fails hi hback ho hread (busRun_port_read_err hw s.mem took) hin
  · exact h1.pinAt_fails hi hback ho hwrite (busRun_write_err _ s.mem .port _ took) hin

/-- Settles O14: each command is one of the three mutations. -/
theorem singlePinMutationsWriteTheComputedPort : Obligations.SinglePinMutationsWriteTheComputedPort := by
  unfold Obligations.SinglePinMutationsWriteTheComputedPort
  intro p s es hp hs hready ho hw
  exact ⟨PinMutation.ends (.inl ⟨rfl, rfl⟩) hp hs hready ho hw,
    PinMutation.ends (.inr (.inl ⟨rfl, rfl⟩)) hp hs hready ho hw,
    PinMutation.ends (.inr (.inr ⟨rfl, rfl⟩)) hp hs hready ho hw⟩

/-! ALL_ON and ALL_OFF (R103, R104, R108, R137). -/

/-- One write of PORT, when the checks pass. -/
theorem portWriteEnds {i : Instr} {b : Byte} {s : State} {es : List Event}
    (hi : i ≠ .pollStart ∧ i ≠ .pollStop) (hstart : turnPart i s = setPhase .acquire s)
    (hwrite : txnPart i (pinAt s 0 s.v s.mem) = some (.write (s.cfg.regAddr.addr .port) b))
    (hdone : ∀ m, txnPart i (pinAt s 1 s.v m) = none) (hback : backPart i = onReturn advance busFail)
    (hfinish : finishPart i = finishOk) (hs : Accepted s) (ho : s.owner = .free) :
    (s.inputs = served 1 ++ es →
      RunsTo i s { s with
        cs := .idle, resp := ⟨0, 0, 0⟩, inputs := es, mem := s.mem.write (regKey s.cfg.regAddr .port) b }) ∧
    (∀ took, s.inputs = failedAt 0 took ++ es →
      RunsTo i s { s with
        cs := .idle, resp := ⟨1, 0, 0⟩, inputs := es,
        mem := if took then s.mem.write (regKey s.cfg.regAddr .port) b else s.mem }) := by
  have h0 := reaches_pinAt_zero hi hs ho hstart
  refine ⟨fun hin => ?_, fun took hin => ?_⟩
  · exact (h0.pinAt_write hi hback hwrite).pinAt_ends hi ho hfinish (hdone _) hin
  · exact h0.pinAt_fails hi hback ho hwrite (busRun_write_err _ s.mem .port b took) hin

/-- Settles O15: the stored count decides between one write of PORT and the refusal. -/
theorem allOnDrivesTheConfiguredPins : Obligations.AllOnDrivesTheConfiguredPins := by
  unfold Obligations.AllOnDrivesTheConfiguredPins
  intro s es hs hready
  have ⟨_, hph, _⟩ := hs
  simp only [← allMask_eq]
  have passes : 1 ≤ s.pinCount.toNat → s.pinCount.toNat ≤ 8 → turnPart .allOn s = setPhase .acquire s := by
    intro h1 h8
    simp [turnPart, commandTurn, hph, allOnStart, hready, (legalCount_iff _).2 ⟨h1, h8⟩]
  refine ⟨fun h1 h8 ho => (portWriteEnds (by simp) (passes h1 h8) rfl (fun _ => rfl) rfl rfl hs ho).1,
    fun took h1 h8 ho => (portWriteEnds (by simp) (passes h1 h8) rfl (fun _ => rfl) rfl rfl hs ho).2 took,
    fun hbad hin => ?_⟩
  have hlegal : legalCount s.pinCount.toNat = false := by
    rw [Bool.eq_false_iff, Ne, legalCount_iff]
    omega
  exact exec_refused (e := .invalidPinCount) hs hin (by simp [turnPart, commandTurn, hph, allOnStart, hready, hlegal])

/-- Settles O16: ALL_OFF looks at no count. -/
theorem allOffClearsThePort : Obligations.AllOffClearsThePort := by
  unfold Obligations.AllOffClearsThePort
  intro s es hs hready ho
  have ⟨_, hph, _⟩ := hs
  have hstart : turnPart .allOff s = setPhase .acquire s := by
    simp [turnPart, commandTurn, hph, allOffStart, hready]
  exact portWriteEnds (by simp) hstart rfl (fun _ => rfl) rfl rfl hs ho

/-! TOGGLE run twice (R102). -/

/-- States that agree but for the CS scratch (R21). -/
theorem eq_of_noScratch_eq {t u : State} (h : noScratch t = noScratch u) :
    ∃ cmd tx v i acc phase, t = { u with cmd := cmd, tx := tx, v := v, i := i, acc := acc, phase := phase } := by
  refine ⟨t.cmd, t.tx, t.v, t.i, t.acc, t.phase, ?_⟩
  cases t; cases u
  simp_all [noScratch]

/-- The port is IDLE with a usable handle, and neither a transaction nor the lock is in the way. -/
abbrev AtRest (s : State) : Prop :=
  s.cs = .idle ∧ s.pendCs = none ∧ s.ready = true ∧ s.owner = .free ∧ s.cfg.regAddr.wf ∧ s.mem.wf

/-- The step that accepts a TOGGLE and runs it to its end. -/
theorem step_toggle {p : Nat} {w : Byte} {s : State} {es : List Event} (hd : decode w = .ok (.toggle p)) (hp : p ≤ 7)
    (hs : AtRest s) (hin : s.inputs = .submit w :: (served 2 ++ es)) :
    ∃ t, step s = .next t ∧ AtRest t ∧ t.resp = ⟨0, 0, 0⟩ ∧ t.inputs = es ∧
      ∀ n, t.target n = if n = .port then s.target .port ^^^ (1 : Byte) <<< p else s.target n := by
  obtain ⟨hc, hn, hready, ho, hw, hm⟩ := hs
  have ⟨hsubmit, _⟩ := stepRunsTheAcceptedCommand
  have ⟨_, _, htoggle, _⟩ := singlePinMutationsWriteTheComputedPort p
    { s with inputs := served 2 ++ es, cmd := w, tx := 0, cs := .busy, phase := .start } es hp
    ⟨rfl, rfl, rfl, hn, by simp [ho]⟩ hready ho hw
  obtain ⟨t, hrun, ht⟩ := htoggle rfl
  obtain ⟨cmd, tx, v, i, acc, phase, rfl⟩ := eq_of_noScratch_eq ht
  exact ⟨_, (hsubmit s w _ _ hc hin hd).trans hrun, ⟨rfl, hn, hready, ho, hw, Memory.write_wf _ hm _ _⟩, rfl, rfl,
    fun n => target_setMem_write s hm hw n .port _⟩

/-- Settles O21: the second TOGGLE reads what the first has written, and inverting a bit twice gives it back. -/
theorem toggleTwiceRestoresThePort : Obligations.ToggleTwiceRestoresThePort := by
  unfold Obligations.ToggleTwiceRestoresThePort
  intro p w s es hd hp hc hl hready ho hw hm hin
  have hn : s.pendCs = none := by
    obtain ⟨-, hpend, -⟩ := hl
    by_contra hne
    cases ho.symm.trans (hpend hne)
  obtain ⟨u, hfirst, hu, -, hinu, htu⟩ := step_toggle (es := .submit w :: (served 2 ++ es)) hd hp
    ⟨hc, hn, hready, ho, hw, hm⟩ (by simp [hin])
  obtain ⟨t, hsecond, ⟨hct, -⟩, hresp, hint, htt⟩ := step_toggle hd hp hu hinu
  refine ⟨t, by simp only [Host.Core.run, core, hfirst, hsecond], hresp, hint, hct, fun n => ?_⟩
  by_cases h : n = .port
  · simp [htt, htu, h]
  · simp [htt, htu, h]

end Sys2Proof.Machine
end

section
/-! Proofs of 41_pin_mutation.md, what a pin command leaves unchanged while only the CS and BA move, whatever fails (R98
to R104). -/

namespace Sys2Proof.Machine

/-! The handle: only READ assigns a bit of it (R99). -/

/-- An assignment of one bit keeps every other, whatever the index. -/
theorem getLsbD_putBit_of_ne (w : Byte) {p q : Nat} (hq : q ≠ p) (b : Bool) :
    (putBit w p b).getLsbD q = w.getLsbD q := by
  by_cases hp : p < 8
  · rw [getLsbD_putBit w p q b hp, if_neg hq]
  · have hmask : mask p = 0#8 := by rw [mask_eq]; exact BitVec.shiftLeft_eq_zero (by omega)
    have hnmask : nmask p = BitVec.allOnes 8 := by rw [nmask, hmask]; rfl
    cases b with
    | false => rw [putBit, hnmask, if_neg (by simp), BitVec.and_allOnes]
    | true => rw [putBit, hmask, if_pos rfl, BitVec.or_zero]

/-- The handle after a command that is not INIT: of the snapshot only the entry a READ refreshes may differ. -/
abbrev HandleKept (i : Instr) (s t : State) : Prop :=
  t.ready = s.ready ∧ t.pinCount = s.pinCount ∧ t.snapLen = s.snapLen ∧
    ∀ q, ¬ (i = .read q ∧ q < s.snapLen.toNat) → t.snap.getLsbD q = s.snap.getLsbD q

theorem HandleKept.of_same {i : Instr} {s t : State} (h : SameHandle s t) : HandleKept i s t := by
  obtain ⟨hready, hcount, hlen, hsnap⟩ := h
  exact ⟨hready, hcount, hlen, fun q _ => by rw [hsnap]⟩

theorem HandleKept.trans {i : Instr} {s t u : State} (h : HandleKept i s t) (h' : HandleKept i t u) :
    HandleKept i s u := by
  obtain ⟨hready, hcount, hlen, hsnap⟩ := h
  obtain ⟨hready', hcount', hlen', hsnap'⟩ := h'
  exact ⟨hready'.trans hready, hcount'.trans hcount, hlen'.trans hlen,
    fun q hq => (hsnap' q (hlen ▸ hq)).trans (hsnap q hq)⟩

theorem handleKept_readFinish (p : Nat) (s : State) : HandleKept (.read p) s (readFinish p s) := by
  refine ⟨rfl, rfl, rfl, fun q hq => ?_⟩
  simp only [readFinish, respond_snap]
  split
  · rename_i hp
    exact getLsbD_putBit_of_ne _ (by rintro rfl; exact hq ⟨rfl, hp⟩) _
  · rfl

section
variable {i : Instr} (hi : ∀ n, i ≠ .init n)
include hi

theorem handleKept_finishPart (s : State) : HandleKept i s (finishPart i s) := by
  cases i with
  | init n => exact absurd rfl (hi n)
  | read p => exact handleKept_readFinish p s
  | _ => exact .of_same (by simp [SameHandle, finishPart, finishOk])

theorem TurnLeaves.handleKept {s u : State} (h : TurnLeaves i s u) : HandleKept i s u := by
  cases h with
  | discard n hn => exact absurd hn (hi n)
  | issue x => exact .of_same (issue_cs_frame x s).2
  | finish => exact handleKept_finishPart hi s
  | _ => exact .of_same (by simp [SameHandle, pollStarted, pollStopTurn])

theorem BackLeaves.handleKept {r : BusReturn} {s u : State} (h : BackLeaves i r s u) : HandleKept i s u := by
  cases h with
  | discard n hn | snapshot n hn => exact absurd hn (hi n)
  | _ => exact .of_same (by simp [SameHandle])

/-- The handle after the run of a command that is not INIT, whatever fails. -/
theorem exec_handleKept {s t : State} (hb : s.cs = .busy) (hl : OnlyCommand s.inputs) (h : exec i s = .next t) :
    HandleKept i s t := by
  rw [exec_busy i s hb] at h
  refine drive_keeps (P := HandleKept i s) (E := fun e => e.ofCommand = true) (fun _ _ hu => hu) ?_ s.inputs s t hl
    (.of_same (by simp [SameHandle])) hb h
  intro e u v he hu _ hstep
  cases e with
  | csTurn =>
    cases hstep
    split
    · exact hu.trans ((turnPart_leaves i u).handleKept hi)
    · exact hu
  | complete who o =>
    cases who with
    | cs =>
      rcases completeTxn_cases .cs _ o u v hstep with ⟨-, rfl⟩ | ⟨x, m, r, -, -, rfl⟩
      · exact hu
      · exact hu.trans ((backPart_leaves i r (setPend .cs none (setMem m u))).handleKept hi)
    | ps => cases he
  | _ => cases he

end

/-- A command that refreshes no snapshot entry keeps the handle whole. -/
theorem HandleKept.same {i : Instr} {s t : State} (hi : ∀ p, i ≠ .read p) (h : HandleKept i s t) : SameHandle s t := by
  obtain ⟨hready, hcount, hlen, hsnap⟩ := h
  exact ⟨hready, hcount, hlen, BitVec.eq_of_getLsbD_eq fun q _ => hsnap q fun hq => hi q hq.1⟩

/-! The target: the transactions of each command are within the registers it may write. -/

theorem rmwTxn_writesWithin {n : Reg} (hn : n ≠ .intcap) {g : Byte → Byte} {s : State} {x : Txn}
    (h : rmwTxn n g s = some x) : WritesWithin [n] s.cfg.regAddr x := by
  simp only [rmwTxn] at h
  split_ifs at h <;> cases h
  · exact .inr ⟨n, hn, rfl⟩
  · exact .inl ⟨n, by simp, _, rfl⟩

theorem portWriteTxn_writesWithin {value : State → Byte} {s : State} {x : Txn} (h : portWriteTxn value s = some x) :
    WritesWithin [.port] s.cfg.regAddr x := by
  simp only [portWriteTxn] at h
  split_ifs at h
  cases h
  exact .inl ⟨.port, by simp, _, rfl⟩

theorem readTxn_writesWithin {s : State} {x : Txn} (h : readTxn s = some x) : WritesWithin [] s.cfg.regAddr x := by
  simp only [readTxn] at h
  split_ifs at h
  cases h
  exact .inr ⟨.port, by decide, rfl⟩

/-- The commands that write PORT and nothing else. -/
abbrev PortWriter (i : Instr) : Prop :=
  (∃ p, i = .setOn p ∨ i = .setOff p ∨ i = .toggle p) ∨ i = .allOn ∨ i = .allOff

theorem PortWriter.ne {i : Instr} (h : PortWriter i) :
    (i ≠ .pollStart ∧ i ≠ .pollStop) ∧ (∀ n, i ≠ .init n) ∧ ∀ p, i ≠ .read p := by
  rcases h with ⟨p, rfl | rfl | rfl⟩ | rfl | rfl <;> simp

theorem PortWriter.writesWithin {i : Instr} (h : PortWriter i) {s : State} {x : Txn} (hx : txnPart i s = some x) :
    WritesWithin [.port] s.cfg.regAddr x := by
  rcases h with ⟨p, rfl | rfl | rfl⟩ | rfl | rfl <;> simp only [txnPart] at hx
  · exact rmwTxn_writesWithin (by decide) hx
  · exact rmwTxn_writesWithin (by decide) hx
  · exact rmwTxn_writesWithin (by decide) hx
  · exact portWriteTxn_writesWithin hx
  · exact portWriteTxn_writesWithin hx

/-- Settles O26: the five commands write PORT alone, and no snapshot entry is theirs. -/
theorem portWritersChangeOnlyThePort : Obligations.PortWritersChangeOnlyThePort := by
  unfold Obligations.PortWritersChangeOnlyThePort
  intro i s t hi hs hw hl h
  have ⟨hb, _⟩ := hs
  obtain ⟨hpoll, hinit, hread⟩ := PortWriter.ne hi
  have hframe := exec_framedBy hpoll (fun _ _ => PortWriter.writesWithin hi) hs hw hl h
  have hhandle := exec_handleKept hinit hb hl h
  exact ⟨hhandle.same hread, hframe.poll, hframe.cmd, fun a ha => hframe.bytes a (by simpa using ha)⟩

/-- Settles O27: READ writes no register, and its end assigns its own snapshot entry. -/
theorem readChangesOnlyItsSnapshotEntry : Obligations.ReadChangesOnlyItsSnapshotEntry := by
  unfold Obligations.ReadChangesOnlyItsSnapshotEntry
  intro p s t hs hw hl h
  have ⟨hb, _⟩ := hs
  have hframe := exec_framedBy (i := .read p) (by simp) (fun _ _ => readTxn_writesWithin) hs hw hl h
  obtain ⟨hready, hcount, hlen, hsnap⟩ := exec_handleKept (by simp) hb hl h
  refine ⟨hready, hcount, hlen, hframe.poll, hframe.cmd, fun q hq => hsnap q ?_, fun a => hframe.bytes a (by simp)⟩
  rintro ⟨hpq, hlt⟩
  cases hpq
  omega

end Sys2Proof.Machine
end

section
/-! Proofs of 41_pin_mutation.md, read-modify-writes among the steps of the PS, BA and H while TE takes none (R75, R105,
R106, R113). -/

namespace Sys2Proof.Machine

theorem ErrCode.code_ne_zero {e : ErrCode} (he : e ≠ .ok) : e.code ≠ 0 := by
  cases e with
  | ok => exact absurd rfl he
  | _ => decide

/-! The transactions of SET_ON, SET_OFF, TOGGLE and CFG_IN_IRQ in one form. -/

/-- Read-modify-writes of the registers `L` in order: transaction `2k` reads the `k`-th of them, transaction `2k + 1`
writes back `g` of the byte read. -/
def rmwSeqTxn (L : List Reg) (g : Byte → Byte) (s : State) : Option Txn :=
  match L[s.tx.toNat / 2]? with
  | none => none
  | some n =>
    if s.tx.toNat % 2 = 0 then some (.read (s.cfg.regAddr.addr n)) else some (.write (s.cfg.regAddr.addr n) (g s.v))

theorem cfgTxn_eq_rmwSeqTxn (p : Nat) : cfgTxn p = rmwSeqTxn cfgOrder (fun v => v ||| mask p) := rfl

theorem rmwTxn_eq_rmwSeqTxn (n : Reg) (g : Byte → Byte) : rmwTxn n g = rmwSeqTxn [n] g := by
  funext s
  by_cases h0 : s.tx = 0
  · simp [rmwTxn, rmwSeqTxn, h0]
  by_cases h1 : s.tx = 1
  · simp [rmwTxn, rmwSeqTxn, h1]
  have hnone : [n][s.tx.toNat / 2]? = none := List.getElem?_eq_none (by simp only [List.length_singleton]; bv_omega)
  simp only [rmwTxn, rmwSeqTxn, h0, h1, hnone, if_false]

theorem rmwSeqTxn_some {L : List Reg} {g : Byte → Byte} {s : State} {x : Txn} (h : rmwSeqTxn L g s = some x) :
    ∃ n, L[s.tx.toNat / 2]? = some n ∧
      (s.tx.toNat % 2 = 0 ∧ x = .read (s.cfg.regAddr.addr n) ∨
        s.tx.toNat % 2 = 1 ∧ x = .write (s.cfg.regAddr.addr n) (g s.v)) := by
  simp only [rmwSeqTxn] at h
  split at h
  · cases h
  · rename_i n hn
    refine ⟨n, hn, ?_⟩
    split at h <;> cases h
    · exact .inl ⟨by assumption, rfl⟩
    · exact .inr ⟨by omega, rfl⟩

theorem rmwSeqTxn_none {L : List Reg} {g : Byte → Byte} {s : State} (h : rmwSeqTxn L g s = none) :
    L.length ≤ s.tx.toNat / 2 := by
  simp only [rmwSeqTxn] at h
  split at h
  · rename_i hn
    exact List.getElem?_eq_none_iff.1 hn
  · split at h <;> cases h

/-! The steps of the other agents while TE takes none: of the target they change INTF alone (R65, R75). -/

/-- The PS has reads pending only (R118, R123). -/
abbrev PsReads (s : State) : Prop := ∀ x ∈ s.pendPs, ∃ a, x = .read a

theorem PsLock.psReads {s : State} (h : PsLock s) : PsReads s := by
  obtain ⟨-, hpend, -⟩ := h
  exact fun x hx => (psPending_eq_some (hpend.symm.trans hx)).2

/-- The registers stand apart and canonical in the register file, and the PS reads only. -/
abbrev Calm (s : State) : Prop := s.cfg.regAddr.wf ∧ s.mem.wf ∧ PsReads s

/-- A running command, the last byte it read, and every register but INTF are the same. -/
abbrev Undisturbed (s t : State) : Prop :=
  SameCommand s t ∧ t.v = s.v ∧ ∀ n, n ≠ .intf → t.target n = s.target n

theorem Undisturbed.of_mem {s t : State} (hc : SameCommand s t) (hv : t.v = s.v) (hm : t.mem = s.mem) :
    Undisturbed s t := by
  have ⟨_, _, _, _, _, _, _, hcfg⟩ := hc
  exact ⟨hc, hv, fun n _ => by simp only [State.target, hm, hcfg]⟩

theorem Calm.congr {s t : State} (h : Calm s) (hcfg : t.cfg = s.cfg) (hm : t.mem = s.mem) (hp : t.pendPs = s.pendPs) :
    Calm t := by
  simpa only [Calm, PsReads, hcfg, hm, hp] using h

/-- A read leaves every register but INTF as it is. -/
theorem busRun_read_target {s : State} (hw : s.cfg.regAddr.wf) {a : Byte} {m : Memory} {o : BusOutcome} {r : BusReturn}
    (h : busRun s.cfg.regAddr s.mem (.read a) o = some (m, r)) {n : Reg} (hn : n ≠ .intf) :
    (setMem m s).target n = s.target n := by
  rcases busRun_effect _ _ _ _ _ _ h with rfl | ⟨k, v, hx, -⟩ | ⟨k, -, -, rfl⟩
  · rfl
  · cases hx
  · exact Memory.read_write_other _ _ _ _ (regKey_ne _ hw hn.symm)

theorem busRun_wf {rm : RegMap} {m m' : Memory} {x : Txn} {o : BusOutcome} {r : BusReturn} (hm : m.wf)
    (h : busRun rm m x o = some (m', r)) : m'.wf := by
  rcases busRun_effect _ _ _ _ _ _ h with rfl | ⟨k, v, -, rfl⟩ | ⟨k, -, -, rfl⟩
  · exact hm
  · exact Memory.write_wf m hm _ _
  · exact Memory.write_wf m hm _ _

theorem irqPop_undisturbed {s : State} (hs : Calm s) : Undisturbed s (irqPop s) ∧ Calm (irqPop s) := by
  obtain ⟨hm, hcfg, -, hps⟩ := irqPop_sameBus s
  have hv : (irqPop s).v = s.v := by simp only [irqPop]; split <;> rfl
  exact ⟨.of_mem (irqPop_sameCommand s).2 hv hm, hs.congr hcfg hm hps⟩

theorem PsLeaves.undisturbed {s u : State} (h : PsLeaves s u) (hs : Calm s) : Undisturbed s u ∧ Calm u := by
  have hc := h.sameCommand.2
  have ⟨hw, hm, _⟩ := hs
  cases h with
  | lock _ _ =>
    rcases issue_cases .ps (.read (s.cfg.regAddr.addr .intf)) (takeLock .ps s) with hu | ⟨-, -, hu⟩ <;> rw [hu] at hc ⊢
    · exact ⟨.of_mem hc rfl rfl, hs⟩
    · exact ⟨.of_mem hc rfl rfl, hw, hm, fun x hx => ⟨_, (Option.some.inj hx).symm⟩⟩
  | capture => exact ⟨.of_mem hc rfl rfl, hw, hm, fun x hx => ⟨_, (Option.some.inj hx).symm⟩⟩
  | _ => exact ⟨.of_mem hc rfl rfl, hs⟩

/-- What the PS makes of an outcome is its own state alone. -/
theorem psBack_undisturbed {r : BusReturn} {s u : State} (h : PsBack r s u) (hs : Calm s) :
    Undisturbed s u ∧ Calm u := by
  have hc := h.sameCommand.2
  obtain ⟨hm, hcfg, -, hps⟩ := h.sameBus
  have hv : u.v = s.v := by cases h <;> rfl
  exact ⟨.of_mem hc hv hm, hs.congr hcfg hm hps⟩

/-- The step of H, of the PS or of BA for the PS. -/
theorem agentStep_undisturbed {turn : State → State} {back : BusReturn → State → State} {e : Event} {s t : State}
    (hs : Calm s) (he : e.ofCommand = false) (hr : e.isReset = false) (hq : e.isEnv = false)
    (h : agentStep turn back e s = .next t) : Undisturbed s t ∧ Calm t := by
  have same : Undisturbed s s := .of_mem (by simp [SameCommand]) rfl rfl
  cases e with
  | submit w => cases h; exact ⟨same, hs⟩
  | pop => cases h; exact irqPop_undisturbed hs
  | reset d => cases hr
  | csTurn => cases he
  | psTurn => cases h; exact (psTurn_leaves s).undisturbed hs
  | complete who o =>
    cases who with
    | cs => cases he
    | ps =>
      rcases completeTxn_cases .ps psReturn o s t h with ⟨-, rfl⟩ | ⟨x, m, r, hx, hb, rfl⟩
      · exact ⟨same, hs⟩
      · obtain ⟨hw, hm, hps⟩ := hs
        obtain ⟨a, rfl⟩ := hps x hx
        obtain ⟨⟨hc, hv, ht⟩, hcalm⟩ := psBack_undisturbed (psReturn_leaves r (setPend .ps none (setMem m s)))
          ⟨hw, busRun_wf hm hb, nofun⟩
        exact ⟨⟨hc, hv, fun n hn => (ht n hn).trans (busRun_read_target hw hb hn)⟩, hcalm⟩
  | env n b => cases hq

/-! The command between its transactions. -/

/-- The registers a command may read, modify and write in one run: distinct, not the two of an interrupt, and few enough
for `c.tx`. -/
abbrev RmwRegs (L : List Reg) : Prop := L.Nodup ∧ .intf ∉ L ∧ .intcap ∉ L ∧ 2 * L.length < 256

theorem not_mem_take {L : List Reg} (h : L.Nodup) {j : Nat} {n : Reg} (hn : L[j]? = some n) : n ∉ L.take j := by
  intro hmem
  obtain ⟨hj, hjn⟩ := List.getElem?_eq_some_iff.1 hn
  obtain ⟨k, hk, hkn⟩ := List.mem_take_iff_getElem.1 hmem
  have := h.getElem_inj_iff.1 (hkn.trans hjn.symm)
  omega

/-- A command that started in `s`, at transaction `c.tx`: the registers before the one whose turn it is have been
written, no other register but INTF has changed, `c.v` holds the byte to modify, and what is pending is the transaction
whose turn it is. -/
structure Midway (L : List Reg) (g : Byte → Byte) (s t : State) : Prop where
  calm : Calm t
  pending : ∀ x ∈ t.pendCs, rmwSeqTxn L g t = some x
  value : t.tx.toNat % 2 = 1 → ∀ n, L[t.tx.toNat / 2]? = some n → t.v = s.target n
  target : ∀ n, n ≠ .intf → t.target n = if n ∈ L.take (t.tx.toNat / 2) then g (s.target n) else s.target n
  written : t.phase = .respond → L.length ≤ t.tx.toNat / 2

/-- Every register of `L` has been modified, and no other has changed but INTF. -/
abbrev RmwDone (L : List Reg) (g : Byte → Byte) (s t : State) : Prop :=
  ∀ n, n ≠ .intf → t.target n = if n ∈ L then g (s.target n) else s.target n

/-- On its way, or ended: with OK only when all is done. -/
abbrev RmwRun (L : List Reg) (g : Byte → Byte) (s t : State) : Prop :=
  (t.cs = .busy → Midway L g s t) ∧ (t.cs = .idle → t.resp.code = 0 → RmwDone L g s t)

section
variable {L : List Reg} {g : Byte → Byte} {s u : State}

/-- A step after which the command still runs. -/
theorem RmwRun.of_busy {t : State} (hb : t.cs = .busy) (h : Midway L g s t) : RmwRun L g s t :=
  ⟨fun _ => h, fun hi => by cases hb.symm.trans hi⟩

theorem RmwRun.raise {e : ErrCode} (he : e ≠ .ok) (n : Byte) (t : State) : RmwRun L g s (raise e n t) :=
  ⟨nofun, fun _ hcode => absurd hcode (ErrCode.code_ne_zero he)⟩

theorem Midway.undisturbed {t : State} (h : Midway L g s u) (hu : Undisturbed u t) (ht : Calm t) : Midway L g s t := by
  obtain ⟨⟨-, -, htx, -, -, hphase, hpend, hcfg⟩, hv, htarget⟩ := hu
  have hdue : rmwSeqTxn L g t = rmwSeqTxn L g u := by simp only [rmwSeqTxn, htx, hv, hcfg]
  exact {
    calm := ht
    pending := by rw [hpend, hdue]; exact h.pending
    value := by rw [htx, hv]; exact h.value
    target := fun n hn => by rw [htarget n hn, htx]; exact h.target n hn
    written := by rw [hphase, htx]; exact h.written }

/-- A step of the CS that completes no transaction. -/
theorem Midway.turn (p : Nat) (h : Midway L g s u) (hb : u.cs = .busy) :
    RmwRun L g s (commandTurn (pinStart p) (rmwSeqTxn L g) finishOk u) := by
  rcases commandTurn_cases (pinStart p) (rmwSeqTxn L g) finishOk u with ⟨hp, ht⟩ | ⟨hp, -, ht⟩ | ⟨hp, -, ht⟩ |
    ⟨hp, x, hx, ht⟩ | ⟨hp, hx, ht⟩ | ⟨hp, ht⟩ <;> rw [ht]
  · rcases pinStart_cases p u with ⟨e, k, he, ht⟩ | ⟨-, -, ht⟩ <;> rw [ht]
    · exact .raise he k u
    · exact .of_busy hb { h with written := nofun }
  · exact .of_busy hb h
  · exact .of_busy hb { h with written := nofun }
  · rcases issue_cases .cs x u with ht | ⟨-, -, ht⟩ <;> rw [ht]
    · exact .of_busy hb h
    · exact .of_busy hb { h with pending := fun y hy => hx.trans hy }
  · exact .of_busy hb { h with written := fun _ => rmwSeqTxn_none hx }
  · refine ⟨nofun, fun _ _ n hn => (h.target n hn).trans ?_⟩
    rw [List.take_of_length_le (h.written hp)]

/-- The byte of the register whose turn it is comes back, and is the one the register had at the start (R105). -/
theorem Midway.read_returns (hL : RmwRegs L) (h : Midway L g s u) {n : Reg} (hn : L[u.tx.toNat / 2]? = some n)
    (heven : u.tx.toNat % 2 = 0) : Midway L g s (advance (.data (u.target n)) (setPend .cs none u)) := by
  obtain ⟨hnodup, hintf, -, hshort⟩ := hL
  obtain ⟨hlt, -⟩ := List.getElem?_eq_some_iff.1 hn
  have hmem := List.mem_of_getElem? hn
  have htx : (u.tx + 1).toNat = u.tx.toNat + 1 := by bv_omega
  have hhalf : (u.tx.toNat + 1) / 2 = u.tx.toNat / 2 := by omega
  have hold : u.target n = s.target n := by
    rw [h.target n (by rintro rfl; exact hintf hmem), if_neg (not_mem_take hnodup hn)]
  refine { calm := h.calm, pending := nofun, value := ?_, target := ?_, written := ?_ }
  · simp only [advance_tx, setPend_cs_tx, htx, hhalf, hn]
    rintro - k hk
    cases hk
    exact hold
  · simp only [advance_tx, setPend_cs_tx, htx, hhalf]
    exact h.target
  · simp only [advance_tx, setPend_cs_tx, htx, hhalf]
    exact h.written

/-- The modified byte is written (R105). -/
theorem Midway.write_returns (hL : RmwRegs L) (h : Midway L g s u) {n : Reg} (hn : L[u.tx.toNat / 2]? = some n)
    (hodd : u.tx.toNat % 2 = 1) :
    Midway L g s
      (advance .wrote (setPend .cs none (setMem (u.mem.write (regKey u.cfg.regAddr n) (g u.v)) u))) := by
  obtain ⟨-, -, -, hshort⟩ := hL
  obtain ⟨hlt, -⟩ := List.getElem?_eq_some_iff.1 hn
  obtain ⟨hw, hm, hps⟩ := h.calm
  have htx : (u.tx + 1).toNat = u.tx.toNat + 1 := by bv_omega
  have hhalf : (u.tx.toNat + 1) / 2 = u.tx.toNat / 2 + 1 := by omega
  have hv : u.v = s.target n := h.value hodd n hn
  have htarget : ∀ k, (setMem (u.mem.write (regKey u.cfg.regAddr n) (g u.v)) u).target k =
      if k = n then g u.v else u.target k := fun k => target_setMem_write u hm hw k n _
  refine { calm := ⟨hw, Memory.write_wf _ hm _ _, hps⟩, pending := nofun, value := ?_, target := ?_, written := ?_ }
  · simp only [advance_tx, setPend_cs_tx, setMem_tx, htx]; omega
  · intro k hk
    simp only [advance_tx, setPend_cs_tx, setMem_tx, htx, hhalf]
    refine (htarget k).trans ?_
    rw [List.take_add_one, hn]
    by_cases hkn : k = n
    · simp [hkn, hv]
    · simp [hkn, h.target k hk]
  · simp only [advance_tx, setPend_cs_tx, setMem_tx, htx, hhalf]
    intro hp
    have := h.written hp
    omega

/-- The outcome of the transaction whose turn it is: an error ends the command, with OK it goes on. -/
theorem Midway.back {fail : State → State} (hfail : ∀ t, ∃ e n, e ≠ .ok ∧ fail t = raise e n t) (hL : RmwRegs L)
    (h : Midway L g s u) (hb : u.cs = .busy) {x : Txn} {m : Memory} {r : BusReturn} {o : BusOutcome}
    (hx : u.pendCs = some x) (hr : busRun u.cfg.regAddr u.mem x o = some (m, r)) :
    RmwRun L g s (onReturn advance fail r (setPend .cs none (setMem m u))) := by
  have ⟨_, _, hcap, _⟩ := hL
  obtain ⟨hw, -, -⟩ := h.calm
  rcases busRun_return _ _ _ _ _ _ hr with ⟨took, -, rfl⟩ | ⟨rfl, ⟨a, v, rfl⟩, rfl⟩ | ⟨rfl, a, rfl, rfl⟩
  · obtain ⟨e, n, he, hf⟩ := hfail (setPend .cs none (setMem m u))
    simp only [onReturn, hf]
    exact .raise he n _
  · obtain ⟨n, hn, ⟨-, hxn⟩ | ⟨hodd, hxn⟩⟩ := rmwSeqTxn_some (h.pending _ hx)
    · cases hxn
    · rw [hxn, busRun_write_ok] at hr
      cases hr
      exact .of_busy hb (h.write_returns hL hn hodd)
  · obtain ⟨n, hn, ⟨heven, hxn⟩ | ⟨-, hxn⟩⟩ := rmwSeqTxn_some (h.pending _ hx)
    · have hne : n ≠ .intcap := by rintro rfl; exact hcap (List.mem_of_getElem? hn)
      cases hxn
      rw [busRun_read_ok _ hw, if_neg hne] at hr
      cases hr
      exact .of_busy hb (h.read_returns hL hn heven)
    · cases hxn

/-- Whatever the other agents do meanwhile, short of an environment step or a reset, a command that ends OK has modified
its registers and no other but INTF. -/
theorem rmwRun_of_drive {p : Nat} {fail : State → State} (hfail : ∀ t, ∃ e n, e ≠ .ok ∧ fail t = raise e n t)
    (hL : RmwRegs L) {t : State} (hs : Accepted s) (hcalm : Calm s) (hq : Quiet s.inputs) (hr : NoReset s.inputs)
    (h : drive (commandTurn (pinStart p) (rmwSeqTxn L g) finishOk) (onReturn advance fail) s.inputs s = .next t) :
    RmwRun L g s t := by
  obtain ⟨hb, hp, htx, hn, -⟩ := hs
  have start : Midway L g s s :=
    ⟨hcalm, by simp [hn], by simp [htx], by simp [htx], by simp [hp]⟩
  refine drive_keeps (P := RmwRun L g s) (E := fun e => e.isEnv = false ∧ e.isReset = false) ?_ ?_ s.inputs s t
    (fun e he => ⟨hq e he, hr e he⟩) (.of_busy hb start) hb h
  · intro l u hu
    exact ⟨fun hb => (hu.1 hb).undisturbed (.of_mem (by simp [SameCommand]) rfl rfl) (hu.1 hb).calm, hu.2⟩
  · rintro e u v ⟨heq, her⟩ ⟨hmid, -⟩ hub hstep
    have hmid := hmid hub
    cases hof : e.ofCommand with
    | false =>
      obtain ⟨hu, hv⟩ := agentStep_undisturbed hmid.calm hof her heq hstep
      exact .of_busy (hu.1.1.trans hub) (hmid.undisturbed hu hv)
    | true =>
      cases e with
      | csTurn =>
        cases hstep
        split
        · exact hmid.turn p hub
        · exact .of_busy hub hmid
      | complete who o =>
        cases who with
        | ps => cases hof
        | cs =>
          rcases completeTxn_cases .cs _ o u v hstep with ⟨-, rfl⟩ | ⟨x, m, r, hx, hb, rfl⟩
          · exact .of_busy hub hmid
          · exact hmid.back hfail hL hub hx hb
      | _ => cases hof

end

theorem busFail_raises (t : State) : ∃ e n, e ≠ .ok ∧ busFail t = raise e n t := ⟨.busFail, t.tx, by decide, rfl⟩

theorem cfgFail_raises (t : State) : ∃ e n, e ≠ .ok ∧ cfgFail t = raise e n t := by
  simp only [cfgFail]
  split
  · exact ⟨.busFail, 0x00, by decide, rfl⟩
  · exact ⟨.partialConfig, t.tx, by decide, rfl⟩

/-- Settles O20: both kinds of command are read-modify-writes in order, of PORT or of the four registers of R111. -/
theorem quietMutationChangesOnlyItsBit : Obligations.QuietMutationChangesOnlyItsBit := by
  unfold Obligations.QuietMutationChangesOnlyItsBit
  intro p s t hs hl hw hm hq hr
  have ⟨hb, _⟩ := hs
  have hcalm : Calm s := ⟨hw, hm, ((lockInv_iff s).1 hl).2.psReads⟩
  simp only [← mask_eq]
  refine ⟨fun i g hi h hidle hcode => ?_, fun h hidle hcode => ?_⟩
  · obtain ⟨-, hturn, -, hback, -⟩ := PinMutation.parts hi
    rw [exec_busy i s hb, hturn, hback, rmwTxn_eq_rmwSeqTxn] at h
    have hdone := (rmwRun_of_drive busFail_raises (by decide) hs hcalm hq hr h).2 hidle hcode
    exact ⟨by simpa using hdone .port (by decide), fun n hn hf => by simpa [hn] using hdone n hf⟩
  · rw [exec_busy _ s hb, turnPart, backPart, cfgTxn_eq_rmwSeqTxn] at h
    have hdone := (rmwRun_of_drive cfgFail_raises (by decide) hs hcalm hq hr h).2 hidle hcode
    have hintf : Reg.intf ∉ cfgOrder := by decide
    refine ⟨fun n hn => ?_, fun n hn hf => ?_⟩
    · exact (hdone n (by rintro rfl; exact hintf hn)).trans (if_pos hn)
    · exact (hdone n hf).trans (if_neg hn)

end Sys2Proof.Machine
end

section
/-! Proofs of 42_mode_config.md: the frame of CFG_IN_IRQ (R110), its end after eight transactions that complete with OK
(R110, R113), and its failure (R112). -/

namespace Sys2Proof.Machine

/-! The frame. -/

/-- Read-modify-writes write their own registers, and read no other. -/
theorem rmwSeqTxn_writesWithin {L : List Reg} (hL : .intcap ∉ L) {g : Byte → Byte} {s : State} {x : Txn}
    (h : rmwSeqTxn L g s = some x) : WritesWithin L s.cfg.regAddr x := by
  obtain ⟨n, hn, ⟨-, rfl⟩ | ⟨-, rfl⟩⟩ := rmwSeqTxn_some h
  · exact .inr ⟨n, fun hcap => hL (hcap ▸ List.mem_of_getElem? hn), rfl⟩
  · exact .inl ⟨n, List.mem_of_getElem? hn, _, rfl⟩

/-- Settles O29: the frame of every command with transactions, for the four registers CFG_IN_IRQ modifies. -/
theorem cfgInIrqChangesOnlyItsFourRegisters : Obligations.CfgInIrqChangesOnlyItsFourRegisters := by
  unfold Obligations.CfgInIrqChangesOnlyItsFourRegisters
  intro p s t hs hw hl h
  have ⟨hb, _⟩ := hs
  have hwithin : ∀ u x, txnPart (.cfgInIrq p) u = some x → WritesWithin cfgOrder u.cfg.regAddr x := by
    intro u x hx
    rw [txnPart, cfgTxn_eq_rmwSeqTxn] at hx
    exact rmwSeqTxn_writesWithin (by decide) hx
  have hframe := exec_framedBy (by simp) hwithin hs hw hl h
  have hhandle := exec_handleKept (i := .cfgInIrq p) (by simp) hb hl h
  exact ⟨hhandle.same (by simp), hframe.poll, hframe.cmd, hframe.bytes⟩

/-! The two ends of a run while only the CS and BA move. -/

/-- Eight transactions are the reads and writes of all four registers (R111). -/
theorem cfgTxn_cfgAt_end (p : Nat) (v : Byte) (s : State) : cfgTxn p (cfgAt p 8 v s) = none := by
  simp [cfgTxn, cfgAt, cfgOrder]

/-- Settles O22: the state after eight transactions, with the lock released and the response OK. -/
theorem cfgInIrqConfiguresThePin : Obligations.CfgInIrqConfiguresThePin := by
  unfold Obligations.CfgInIrqConfiguresThePin
  intro p s es hp hs hready ho hw _ hin
  obtain ⟨v, h, -⟩ := reaches_cfgAt hp hs hready ho hw (k := 8) le_rfl
  refine ⟨_, h.exec_served (by simp) (cfgTxn_cfgAt_end p v s) hin, ?_⟩
  apply noScratch_congr <;>
    simp [SameHandle, SamePoll, finishPart, finishOk, cfgAt, Sequencer.owner, ho, ErrCode.code, mask_eq, cfgOrder]

/-- What transaction `k` of CFG_IN_IRQ leaves at the target when it completes with ERR: a read has no effect there, and a
write that takes effect joins those before it. -/
theorem cfgAt_err {p k : Nat} {v : Byte} {s : State} (hw : s.cfg.regAddr.wf) (hk : k < 8)
    (hv : k % 2 = 1 → ∀ n, cfgOrder[k / 2]? = some n → v = s.target n) (took : Bool) :
    ∃ x, cfgTxn p (cfgAt p k v s) = some x ∧ busRun s.cfg.regAddr (cfgAt p k v s).mem x (.err took) =
      some (writeAll s.cfg.regAddr (fun n => s.target n ||| mask p)
        (cfgOrder.take ((if took then k + 1 else k) / 2)) s.mem, .err) := by
  obtain ⟨n, hn⟩ : ∃ n, cfgOrder[k / 2]? = some n :=
    ⟨_, List.getElem?_eq_getElem (show k / 2 < cfgOrder.length by simp [cfgOrder]; omega)⟩
  refine ⟨_, cfgTxn_cfgAt hn, ?_⟩
  rcases Nat.mod_two_eq_zero_or_one k with h0 | h1
  · have hsame : (if took then k + 1 else k) / 2 = k / 2 := by split <;> omega
    rw [if_pos h0, busRun_read_err _ hw, if_neg (fun hcap => (cfgOrder_fresh hn).2 hcap.2), hsame]
    rfl
  · rw [if_neg (by omega), busRun_write_err, hv h1 n hn]
    cases took with
    | false => rfl
    | true => simp only [if_true, show (k + 1) / 2 = k / 2 + 1 by omega, writeAll_take_succ hn, cfgAt]

/-- Either error of `cfgFail()` reports the index of the failing transaction (R112, R138). -/
theorem cfgFail_eq (s : State) : cfgFail s = raise (if s.tx = 0 then .busFail else .partialConfig) s.tx s := by
  by_cases h : s.tx = 0 <;> simp only [cfgFail, h, if_true, if_false]

theorem cfgFail_resp (s : State) : (cfgFail s).resp = if s.tx = 0 then ⟨1, 0, 0⟩ else ⟨4, 0, s.tx⟩ := by
  simp only [cfgFail]
  split <;> rfl

/-- Settles O23: the state before the failing transaction, with what that one leaves at the target, and `cfgFail()`. -/
theorem cfgInIrqFailureReportsItsPosition : Obligations.CfgInIrqFailureReportsItsPosition := by
  unfold Obligations.CfgInIrqFailureReportsItsPosition
  intro p k took s es hp hk hs hready ho hw _ hin
  obtain ⟨v, h, hv⟩ := reaches_cfgAt hp hs hready ho hw hk.le
  obtain ⟨x, hx, hr⟩ := cfgAt_err (p := p) hw hk hv took
  have htx : BitVec.ofNat 8 k = 0 ↔ k = 0 := by bv_omega
  refine ⟨_, h.exec_failedAt (by simp) hx hr hin, ?_⟩
  simp only [backPart, onReturn]
  apply noScratch_congr
  case hr => simp only [setInputs_resp, cfgFail_resp, setMem_tx, cfgAt, htx]
  all_goals simp [SameHandle, SamePoll, cfgFail_eq, cfgAt, ho, mask_eq, cfgOrder]

end Sys2Proof.Machine
end

section
/-! Proofs of 43_interrupt_poll.md, the commands of the poll loop and the steps of one iteration: POLL_START and POLL_STOP
(R114, R115), the flag decoder (R121, R122), and the PS in each of its micro-states (R117 to R125, R128). -/

namespace Sys2Proof.Machine

/-! POLL_START and POLL_STOP. -/

/-- Settles O24: the one local step of POLL_START passes both checks and ends the command. -/
theorem pollStartStartsTheLoop : Obligations.PollStartStartsTheLoop := by
  unfold Obligations.PollStartStartsTheLoop
  intro s es hs hrun hready hin
  have hturn : turnPart .pollStart s = pollStarted s := by simp [turnPart, pollStartTurn, pollStarted, hrun, hready]
  rw [exec_ends_at_first_turn hs hin (by rw [hturn]; rfl), hturn]
  rfl

/-- Settles O25: the one local step of POLL_STOP ends the command, whatever `ready` is. -/
theorem pollStopRaisesTheStopSignal : Obligations.PollStopRaisesTheStopSignal := by
  unfold Obligations.PollStopRaisesTheStopSignal
  intro s es hs hin
  exact exec_ends_at_first_turn hs hin rfl

/-! The flag decoder. -/

/-- The list under ALL_ASCENDING holds every set bit and no other (R122). -/
theorem mem_setbits_iff (f : Byte) (q : PinIndex) : q ∈ setbits f ↔ f.getLsbD q.toNat = true := by
  refine ⟨mem_setbits, fun hq => ?_⟩
  rw [setbits, List.mem_map]
  exact ⟨q.toNat, List.mem_filter.2 ⟨List.mem_range.2 q.isLt, hq⟩, by simp⟩

/-- A non-zero byte has a lowest set bit, and no bit below it is set (R121). -/
theorem lsb_of_ne_zero {f : Byte} (hf : f ≠ 0) :
    ∃ p, lsb f = some p ∧ f.getLsbD p.toNat = true ∧ ∀ q : PinIndex, q.toNat < p.toNat → f.getLsbD q.toNat = false := by
  cases hfind : (List.range 8).find? (fun i => f.getLsbD i) with
  | none =>
    refine absurd (BitVec.eq_of_getLsbD_eq fun i hi => ?_) hf
    simpa using List.find?_eq_none.1 hfind i (List.mem_range.2 hi)
  | some i =>
    obtain ⟨hset, hmem, hbelow⟩ := List.find?_range_eq_some.1 hfind
    have hi : (BitVec.ofNat 3 i).toNat = i := by simpa using List.mem_range.1 hmem
    refine ⟨BitVec.ofNat 3 i, by simp [lsb, hfind], by rwa [hi], fun q hq => ?_⟩
    simpa using hbelow q.toNat (hi ▸ hq)

/-- Settles O38: the two policies are `lsb` and `setbits`. -/
theorem decoderFollowsItsPolicy : Obligations.DecoderFollowsItsPolicy := by
  unfold Obligations.DecoderFollowsItsPolicy
  intro f hf
  obtain ⟨p, hp, hset, hbelow⟩ := lsb_of_ne_zero hf
  exact ⟨⟨p, by simp [decodeFlags, hp], hset, hbelow⟩, mem_setbits_iff f, setbits_ascending f⟩

/-! The PS's own steps, at HEAD, LOCK, EMIT and SLEEP. -/

/-- At HEAD and in SLEEP the PS does not hold the lock (R74). -/
theorem LockInv.ps_unlocked {s : State} (h : LockInv s) (hps : s.ps = .head ∨ s.ps = .sleep) : s.owner ≠ .ps := by
  obtain ⟨-, hown, -⟩ := (lockInv_iff s).1 h
  rcases hps with hp | hp <;> simp [hown, hp]

/-- Settles O35: the two branches of HEAD. -/
theorem headChecksTheStopSignal : Obligations.HeadChecksTheStopSignal := by
  unfold Obligations.HeadChecksTheStopSignal
  intro turn back s hps
  refine ⟨fun hstop => ?_, fun hstop => ?_, fun hl => hl.ps_unlocked (.inl hps)⟩
  · simp [agentStep, psTurn, hps, psHead, hstop, pollOff]
  · simp [agentStep, psTurn, hps, psHead, hstop, setPs]

/-- With the lock held and nothing pending the PS may issue (R58). -/
theorem canIssue_ps {s : State} (ho : s.owner = .ps) (hn : s.pendPs = none) : canIssue .ps s = true := by
  simp [canIssue, State.pend, Sequencer.owner, ho, hn]

/-- Settles O36: at LOCK the PS's step waits for the lock, or takes it and issues; SLEEP has its one step. -/
theorem lockReadsTheFlagsAndSleepEnds : Obligations.LockReadsTheFlagsAndSleepEnds := by
  unfold Obligations.LockReadsTheFlagsAndSleepEnds
  intro turn back s
  refine ⟨fun hps ho => ?waits, fun hps ho hn => ?acquires, fun hps => ?wakes, fun hps hl => hl.ps_unlocked (.inr hps)⟩
  case waits => simp [agentStep, psTurn, hps, psLock, ho]
  case acquires =>
    have hc : canIssue .ps (takeLock .ps s) = true := canIssue_ps rfl hn
    have hturn : psTurn s = setPs .flags (setPend .ps (some (.read (s.cfg.regAddr.addr .intf))) (takeLock .ps s)) := by
      simp only [psTurn, hps, psLock, ho, if_true, issue, hc]
    exact congrArg _ hturn
  case wakes => simp [agentStep, psTurn, hps, setPs]

/-- On a full queue the PS's step at EMIT changes nothing (R126). -/
theorem psTurn_full {s : State} {p : PinIndex} {rest : List PinIndex} {d : Nat} (hps : s.ps = .emit)
    (hl : s.emitList = p :: rest) (hd : s.cfg.irqDepth = some d) (hq : d ≤ s.irqQ.length) : psTurn s = s := by
  have hroom : queueRoom s = false := by simpa [queueRoom, hd] using hq
  simp [psTurn, hps, psEmit, hl, hroom]

/-- Settles O39: the step at EMIT by the list to deliver and the room in the queue. -/
theorem emitDeliversThenAcknowledges : Obligations.EmitDeliversThenAcknowledges := by
  unfold Obligations.EmitDeliversThenAcknowledges
  intro turn back s hps
  refine ⟨fun p rest hl hroom => ?delivers, fun p rest d hl hd hq => ?holds, fun hl ho hn => ?captures⟩
  case delivers => simp [agentStep, psTurn, hps, psEmit, hl, (queueRoom_iff s).2 hroom, emit]
  case holds => simp only [agentStep, psTurn_full hps hl hd hq]
  case captures =>
    have hturn : psTurn s = setPs .ack (setPend .ps (some (.read (s.cfg.regAddr.addr .intcap))) s) := by
      simp only [psTurn, hps, psEmit, hl, canIssue_ps ho hn, if_true, issue]
    exact congrArg _ hturn

/-! The completions of the PS's reads, in FLAGS and ACK. -/

/-- The completion of the PS's transaction: the outcome goes to the PS with its pending entry cleared (R58). -/
theorem agentStep_complete_ps {turn : State → State} {back : BusReturn → State → State} {s : State} {x : Txn}
    {o : BusOutcome} {m : Memory} {r : BusReturn} (hx : s.pendPs = some x)
    (hr : busRun s.cfg.regAddr s.mem x o = some (m, r)) :
    agentStep turn back (.complete .ps o) s = .next (psReturn r { s with pendPs := none, mem := m }) :=
  completeTxn_eq .ps psReturn o s x m r hx hr

/-- Settles O37: the INTF read returns the flag byte with the target as it was, and the byte decides. -/
theorem flagByteDecidesTheIteration : Obligations.FlagByteDecidesTheIteration := by
  unfold Obligations.FlagByteDecidesTheIteration
  intro turn back s hps ho hx hw
  have hstep := agentStep_complete_ps (turn := turn) (back := back) hx (busRun_read_ok _ hw s.mem .intf)
  have hbyte : s.mem.read (regKey s.cfg.regAddr .intf) = s.target .intf := rfl
  refine ⟨fun hf => ?_, fun hf => ?_⟩
  · simp [hstep, psReturn, hps, psFlags, hbyte, hf, release, ho, Sequencer.owner]
  · rw [hstep, hbyte]
    simp only [psReturn, hps, psFlags, if_neg hf]
    rfl

/-- Settles O40: the INTCAP read clears INTF, and its byte is discarded. -/
theorem acknowledgeReturnsToHead : Obligations.AcknowledgeReturnsToHead := by
  unfold Obligations.AcknowledgeReturnsToHead
  intro turn back s hps ho hx hw
  have hstep := agentStep_complete_ps (turn := turn) (back := back) hx (busRun_read_ok _ hw s.mem .intcap)
  simp [hstep, psReturn, hps, psAck, release, ho, Sequencer.owner]

/-- Settles O41: either read that returns ERR ends the loop; only the INTCAP read has an effect that may have happened. -/
theorem busFailureStopsTheLoop : Obligations.BusFailureStopsTheLoop := by
  unfold Obligations.BusFailureStopsTheLoop
  intro turn back took s hw hread ho
  rcases hread with ⟨hps, hx⟩ | ⟨hps, hx⟩
  all_goals
    have hstep := agentStep_complete_ps (turn := turn) (back := back) hx (busRun_read_err _ hw s.mem _ took)
    simp [hstep, psReturn, hps, psFail, pollOff, release, ho, Sequencer.owner, ErrCode.code]

end Sys2Proof.Machine
end

section
/-! Proofs of 43_interrupt_poll.md, one whole iteration of the poll loop while only the PS and BA move (R117 to R124,
R127). -/

namespace Sys2Proof.Machine

/-! The states of an iteration on a non-zero flag byte, each from the one before. -/

/-- LOCK has acquired the lock and issued the INTF read (R118). -/
@[simp] def flagsIssued (s : State) : State :=
  setPs .flags (setPend .ps (some (.read (s.cfg.regAddr.addr .intf))) (takeLock .ps s))

/-- The INTF read has returned a non-zero byte (R120). -/
@[simp] def flagsDecoded (s : State) : State :=
  { s with
    pendPs := none, f := s.target .intf, pollState := .fired, ps := .emit,
    emitList := decodeFlags s.cfg.decodePolicy (s.target .intf) }

/-- EMIT has delivered the indices `k`, all there were (R123). -/
@[simp] def delivered (k : List PinIndex) (s : State) : State := { s with irqQ := s.irqQ ++ k, emitList := [] }

/-- EMIT has issued the INTCAP read (R123). -/
@[simp] def captureIssued (s : State) : State := setPs .ack (setPend .ps (some (.read (s.cfg.regAddr.addr .intcap))) s)

/-- The INTCAP read has returned OK (R124). -/
@[simp] def acknowledged (s : State) : State :=
  { s with
    pendPs := none, owner := .free, pollState := .idle, ps := .head,
    mem := s.mem.write (regKey s.cfg.regAddr .intf) 0 }

theorem delivered_nil {s : State} (h : s.emitList = []) : delivered [] s = s := by
  rw [delivered, List.append_nil, ← h]

theorem delivered_cons (p : PinIndex) (rest k : List PinIndex) (s : State) :
    delivered k { emit p s with emitList := rest } = delivered (p :: k) s := by
  simp [emit]

/-! One step each of a run, by the rules of the PS's steps. -/

/-- `n` steps of the machine. -/
def runSteps (n : Nat) (s : State) : Result := Host.Core.run core n s

theorem runSteps_zero (s : State) : runSteps 0 s = .next s := rfl

section
variable {s : State} (hc : s.cs = .idle) (l : List Event) (n : Nat)
include hc

/-- While no command runs, a step is the next event, unless that is a submit. -/
theorem run_event {t : State} {e : Event} (he : ∀ w, e ≠ .submit w)
    (h : agentStep id noReturn e (setInputs l s) = .next (setInputs l t)) :
    runSteps (n + 1) (setInputs (e :: l) s) = runSteps n (setInputs l t) := by
  obtain ⟨-, -, hagent, -⟩ := stepRunsTheAcceptedCommand
  have hstep : step (setInputs (e :: l) s) = .next (setInputs l t) :=
    (hagent (setInputs (e :: l) s) e l hc rfl he).trans h
  simp only [runSteps, Host.Core.run, core, hstep]

theorem run_head (hps : s.ps = .head) (hstop : s.stopReq = false) :
    runSteps (n + 1) (setInputs (.psTurn :: l) s) = runSteps n (setInputs l (setPs .lock s)) := by
  have ⟨_, hstep, _⟩ := headChecksTheStopSignal id noReturn (setInputs l s) hps
  exact run_event hc l n (by simp) (hstep hstop)

theorem run_lock (hps : s.ps = .lock) (ho : s.owner = .free) (hn : s.pendPs = none) :
    runSteps (n + 1) (setInputs (.psTurn :: l) s) = runSteps n (setInputs l (flagsIssued s)) := by
  have ⟨_, hstep, _⟩ := lockReadsTheFlagsAndSleepEnds id noReturn (setInputs l s)
  exact run_event hc l n (by simp) (hstep hps ho hn)

theorem run_flags (hps : s.ps = .flags) (ho : s.owner = .ps) (hx : s.pendPs = some (.read (s.cfg.regAddr.addr .intf)))
    (hw : s.cfg.regAddr.wf) (hf : s.target .intf ≠ 0) :
    runSteps (n + 1) (setInputs (.complete .ps .ok :: l) s) = runSteps n (setInputs l (flagsDecoded s)) := by
  have ⟨_, hstep⟩ := flagByteDecidesTheIteration id noReturn (setInputs l s) hps ho hx hw
  exact run_event hc l n (by simp) (hstep hf)

theorem run_deliver (hps : s.ps = .emit) (hdepth : s.cfg.irqDepth = none) {p : PinIndex} {rest : List PinIndex}
    (hl : s.emitList = p :: rest) :
    runSteps (n + 1) (setInputs (.psTurn :: l) s) = runSteps n (setInputs l { emit p s with emitList := rest }) := by
  have ⟨hstep, _⟩ := emitDeliversThenAcknowledges id noReturn (setInputs l s) hps
  exact run_event hc l n (by simp) (hstep p rest hl (by simp [hdepth]))

theorem run_capture (hps : s.ps = .emit) (ho : s.owner = .ps) (hn : s.pendPs = none) (hl : s.emitList = []) :
    runSteps (n + 1) (setInputs (.psTurn :: l) s) = runSteps n (setInputs l (captureIssued s)) := by
  have ⟨_, _, hstep⟩ := emitDeliversThenAcknowledges id noReturn (setInputs l s) hps
  exact run_event hc l n (by simp) (hstep hl ho hn)

theorem run_ack (hps : s.ps = .ack) (ho : s.owner = .ps) (hx : s.pendPs = some (.read (s.cfg.regAddr.addr .intcap)))
    (hw : s.cfg.regAddr.wf) :
    runSteps (n + 1) (setInputs (.complete .ps .ok :: l) s) = runSteps n (setInputs l (acknowledged s)) :=
  run_event hc l n (by simp) (acknowledgeReturnsToHead id noReturn (setInputs l s) hps ho hx hw)

end

/-! The deliveries, and the iteration. -/

/-- The PS's turns in EMIT deliver the whole list in order, one index each. -/
theorem run_deliveries (l : List Event) (n : Nat) (k : List PinIndex) :
    ∀ s : State, s.cs = .idle → s.ps = .emit → s.cfg.irqDepth = none → s.emitList = k →
      runSteps (n + k.length) (setInputs (List.replicate k.length .psTurn ++ l) s) =
        runSteps n (setInputs l (delivered k s)) := by
  induction k with
  | nil =>
    intro s _ _ _ hk
    rw [delivered_nil hk]
    rfl
  | cons p rest ih =>
    intro s hc hps hdepth hk
    calc runSteps (n + rest.length + 1) (setInputs (.psTurn :: (List.replicate rest.length .psTurn ++ l)) s)
      _ = runSteps (n + rest.length)
            (setInputs (List.replicate rest.length .psTurn ++ l) { emit p s with emitList := rest }) :=
        run_deliver hc _ _ hps hdepth hk
      _ = runSteps n (setInputs l (delivered rest { emit p s with emitList := rest })) := ih _ hc hps hdepth rfl
      _ = runSteps n (setInputs l (delivered (p :: rest) s)) := by rw [delivered_cons]

/-- The state in which EMIT begins to deliver. -/
@[simp] def fired (s : State) : State :=
  { s with
    pendPs := none, owner := .ps, f := s.target .intf, pollState := .fired, ps := .emit,
    emitList := decodeFlags s.cfg.decodePolicy (s.target .intf) }

/-- The state after an iteration that delivers the indices decoded from INTF. -/
def iterated (s : State) : State :=
  { s with
    pendPs := none, owner := .free, f := s.target .intf, pollState := .idle, ps := .head, emitList := [],
    irqQ := s.irqQ ++ decodeFlags s.cfg.decodePolicy (s.target .intf),
    mem := s.mem.write (regKey s.cfg.regAddr .intf) 0 }

section
variable {s : State} (hc : s.cs = .idle) (hw : s.cfg.regAddr.wf) (l : List Event)
include hc hw

/-- From HEAD to EMIT: HEAD, LOCK, and the INTF read. -/
theorem run_to_emit (hps : s.ps = .head) (hstop : s.stopReq = false) (ho : s.owner = .free) (hn : s.pendPs = none)
    (hf : s.target .intf ≠ 0) (n : Nat) :
    runSteps (n + 3) (setInputs (.psTurn :: .psTurn :: .complete .ps .ok :: l) s) = runSteps n (setInputs l (fired s)) := by
  have hread : (flagsIssued (setPs .lock s)).target .intf = s.target .intf := by simp [State.target]
  rw [run_head hc _ _ hps hstop, run_lock (by simpa using hc) _ _ (by simp) (by simpa using ho) (by simpa using hn),
    run_flags (by simpa using hc) _ _ (by simp) (by simp [Sequencer.owner]) (by simp) (by simpa using hw) (by rwa [hread])]
  simp [State.target, Sequencer.owner]

/-- From EMIT with nothing left to deliver back to HEAD: the INTCAP read. -/
theorem run_to_head (hps : s.ps = .emit) (ho : s.owner = .ps) (hn : s.pendPs = none) (hl : s.emitList = []) (n : Nat) :
    runSteps (n + 2) (setInputs (.psTurn :: .complete .ps .ok :: l) s) =
      runSteps n (setInputs l (acknowledged (captureIssued s))) := by
  rw [run_capture hc _ _ hps ho hn hl,
    run_ack (by simpa using hc) _ _ (by simp) (by simpa using ho) (by simp) (by simpa using hw)]

/-- One iteration from HEAD to HEAD. -/
theorem run_iteration (hps : s.ps = .head) (hstop : s.stopReq = false) (ho : s.owner = .free) (hn : s.pendPs = none)
    (hdepth : s.cfg.irqDepth = none) (hf : s.target .intf ≠ 0) {k : List PinIndex}
    (hk : decodeFlags s.cfg.decodePolicy (s.target .intf) = k) :
    runSteps (0 + 2 + k.length + 3)
        (setInputs (.psTurn :: .psTurn :: .complete .ps .ok ::
          (List.replicate k.length .psTurn ++ .psTurn :: .complete .ps .ok :: l)) s) =
      .next (setInputs l (iterated s)) := by
  rw [run_to_emit hc hw _ hps hstop ho hn hf,
    run_deliveries _ _ _ _ (by simpa using hc) (by simp) (by simpa using hdepth) (by simpa using hk),
    run_to_head (by simpa using hc) (by simpa using hw) _ (by simp) (by simp) (by simp) (by simp)]
  simp [runSteps_zero, iterated, hk]

end

/-- Settles O42: every field the statement names, read off the state after the iteration. -/
theorem pollIterationDeliversTheDecodedPins : Obligations.PollIterationDeliversTheDecodedPins := by
  unfold Obligations.PollIterationDeliversTheDecodedPins
  intro s es hc hps hstop hl ho hw hm hdepth hf k hin
  obtain ⟨-, -, hpend, hlive⟩ := (lockInv_iff s).1 hl
  have hn : s.pendPs = none := by simpa [psPending, hps] using hpend
  have hrun : s.pollRun = true := by simp [hlive, hps]
  have hiter : runSteps (k + 5) s = .next (setInputs es (iterated s)) := by
    have hlist : s.inputs = .psTurn :: .psTurn :: .complete .ps .ok ::
        (List.replicate k .psTurn ++ .psTurn :: .complete .ps .ok :: es) := by simp [hin, List.replicate_succ']
    calc runSteps (k + 5) s
      _ = runSteps (0 + 2 + k + 3) (setInputs s.inputs s) := by rw [show k + 5 = 0 + 2 + k + 3 by omega]; rfl
      _ = .next (setInputs es (iterated s)) := by rw [hlist, run_iteration hc hw es hps hstop ho hn hdepth hf rfl]
  have htarget (n : Reg) : (iterated s).target n = if n = .intf then 0 else s.target n := by
    simpa [State.target, iterated] using target_setMem_write s hm hw n .intf 0
  exact ⟨setInputs es (iterated s), hiter, rfl, htarget .intf, fun n hn => (htarget n).trans (if_neg hn), rfl, rfl, rfl,
    hrun, rfl, ⟨rfl, rfl, rfl, rfl⟩, rfl⟩

end Sys2Proof.Machine
end

section
/-! Proofs of 43_interrupt_poll.md, the PS holding the lock while it cannot move: a full queue (R126, R165) and a read that
BA never completes (R130). -/

namespace Sys2Proof.Machine

/-! A step while the PS cannot move. -/

/-- The PS's next step changes nothing, and no outcome comes back to it by the event. -/
abbrev PsStuck (e : Event) (s : State) : Prop := psTurn s = s ∧ (e.completesPs = true → s.pendPs = none)

/-- All that an event can leave while the PS cannot move and the CS has nothing pending: only the CS's turn, a pop and the
environment change anything. -/
theorem agentStep_psStuck {turn : State → State} {back : BusReturn → State → State} {e : Event} {s t : State}
    (hps : PsStuck e s) (hn : s.pendCs = none) (hr : e.isReset = false) (h : agentStep turn back e s = .next t) :
    t = s ∨ t = turn s ∨ (e = .pop ∧ t = irqPop s) ∨ ∃ m, t = setMem m s := by
  obtain ⟨hturn, hpend⟩ := hps
  cases e with
  | submit w => cases h; exact .inl rfl
  | pop => cases h; exact .inr (.inr (.inl ⟨rfl, rfl⟩))
  | reset d => cases hr
  | csTurn =>
    simp only [agentStep, hn, if_true] at h
    cases h
    exact .inr (.inl rfl)
  | psTurn =>
    simp only [agentStep, hturn] at h
    cases h
    exact .inl rfl
  | complete who o =>
    cases who with
    | cs =>
      rcases completeTxn_cases .cs back o s t h with ⟨-, rfl⟩ | ⟨x, m, r, hx, -⟩
      · exact .inl rfl
      · cases hn.symm.trans hx
    | ps =>
      rcases completeTxn_cases .ps psReturn o s t h with ⟨-, rfl⟩ | ⟨x, m, r, hx, -⟩
      · exact .inl rfl
      · cases (hpend rfl).symm.trans hx
  | env n b => cases h; exact .inr (.inr (.inr ⟨_, rfl⟩))

/-- A pop touches the queue and the host's record alone (R39). -/
theorem irqPop_eq (s : State) : ∃ q r, irqPop s = { s with irqQ := q, hostPop := r } := by
  simp only [irqPop]
  split
  · exact ⟨s.irqQ, _, rfl⟩
  · exact ⟨_, _, rfl⟩

/-! A command that has not acquired the lock waits for it. -/

/-- The command that runs in `s`, at its checks or at `acquire()`, still stands there or has come to `acquire()`, or its
checks have refused it. -/
abbrev AwaitsLock (s u : State) : Prop :=
  (u.cs = .busy ∧ (u.phase = s.phase ∨ u.phase = .acquire)) ∨ (s.phase = .start ∧ u.cs = .idle ∧ u.resp.code ≠ 0)

theorem AwaitsLock.trans {s u v : State} (hb : u.cs = .busy) (h : AwaitsLock s u) (h' : AwaitsLock u v) :
    AwaitsLock s v := by
  rcases h with ⟨-, hp⟩ | ⟨-, hidle, -⟩
  · rcases h' with ⟨hbv, hsame | hacq⟩ | ⟨hstart, hv⟩
    · exact .inl ⟨hbv, by rwa [hsame]⟩
    · exact .inl ⟨hbv, .inr hacq⟩
    · exact .inr ⟨(hp.resolve_right (by simp [hstart])).symm.trans hstart, hv⟩
  · cases hb.symm.trans hidle

/-- Before it has the lock a command touches neither the poll loop nor the bus, and does not get past `acquire()` while
another holds the lock. -/
theorem turnPart_awaits {i : Instr} (hi : i ≠ .pollStart ∧ i ≠ .pollStop) {u : State} (hb : u.cs = .busy)
    (hp : u.phase = .start ∨ u.phase = .acquire) (ho : u.owner ≠ .free) :
    SamePoll u (turnPart i u) ∧ (turnPart i u).pendCs = u.pendCs ∧ AwaitsLock u (turnPart i u) := by
  have hu := turnPart_leaves i u
  generalize turnPart i u = v at hu ⊢
  cases hu with
  | refuse e n he hs => exact ⟨by simp [SamePoll], rfl, .inr ⟨hs, rfl, ErrCode.code_ne_zero he⟩⟩
  | check | discard => exact ⟨by simp [SamePoll], rfl, .inl ⟨hb, .inr rfl⟩⟩
  | wait => exact ⟨by simp [SamePoll], rfl, .inl ⟨hb, .inl rfl⟩⟩
  | lock _ hfree => exact absurd hfree ho
  | issue _ hbody | unlock hbody => simp [hbody] at hp
  | finish hresp => simp [hresp] at hp
  | startRefused _ _ _ hstart | started hstart => exact absurd hstart hi.1
  | stop hstop => exact absurd hstop hi.2

/-- The PS holds the lock, the CS has nothing pending, and the command that runs in `s` waits for the lock. -/
structure Held (s u : State) : Prop where
  owner : u.owner = .ps
  pending : u.pendCs = none
  awaits : AwaitsLock s u

theorem Held.turnPart {i : Instr} (hi : i ≠ .pollStart ∧ i ≠ .pollStop) {s u : State}
    (hp : s.phase = .start ∨ s.phase = .acquire) (hb : u.cs = .busy) (h : Held s u) :
    SamePoll u (turnPart i u) ∧ Held s (turnPart i u) := by
  obtain ⟨ho, hn, hw⟩ := h
  have hpu : u.phase = .start ∨ u.phase = .acquire := by
    rcases hw with ⟨-, hsame | hacq⟩ | ⟨-, hidle, -⟩
    · rwa [hsame]
    · exact .inr hacq
    · simp [hb] at hidle
  obtain ⟨hpoll, hpend, hw'⟩ := turnPart_awaits hi hb hpu (by simp [ho])
  exact ⟨hpoll, (turnPart_leaves i u).owner_ps.2 ho, hpend.trans hn, hw.trans hb hw'⟩

/-- While the PS holds the lock and cannot move, by a property `K` of the poll loop's state, a command that has not acquired
the lock waits for it, or its checks refuse it. -/
theorem exec_held {i : Instr} {K : State → Prop} {E : Event → Prop} (hi : i ≠ .pollStart ∧ i ≠ .pollStop)
    (hcongr : ∀ u v, SamePoll u v → K u → K v) (hpop : E .pop → ∀ u, K u → K (irqPop u))
    (hstuck : ∀ e u, E e → K u → e.isReset = false ∧ PsStuck e u) {s t : State} (hb : s.cs = .busy)
    (hp : s.phase = .start ∨ s.phase = .acquire) (ho : s.owner = .ps) (hn : s.pendCs = none) (hE : ∀ e ∈ s.inputs, E e)
    (hK : K s) (h : exec i s = .next t) : K t ∧ Held s t := by
  rw [exec_busy i s hb] at h
  refine drive_keeps (P := fun u => K u ∧ Held s u) (E := E) ?_ ?_ s.inputs s t hE
    ⟨hK, ho, hn, .inl ⟨hb, .inl rfl⟩⟩ hb h
  · rintro l u ⟨hK, ho, hn, hw⟩
    exact ⟨hcongr u _ (by simp [SamePoll]) hK, ho, hn, hw⟩
  · rintro e u v he ⟨hK, hu⟩ hub hstep
    obtain ⟨hr, hps⟩ := hstuck e u he hK
    rcases agentStep_psStuck hps hu.pending hr hstep with rfl | rfl | ⟨rfl, rfl⟩ | ⟨m, rfl⟩
    · exact ⟨hK, hu⟩
    · obtain ⟨hpoll, hv⟩ := hu.turnPart hi hp hub
      exact ⟨hcongr u _ hpoll hK, hv⟩
    · refine ⟨hpop he u hK, ?_⟩
      obtain ⟨q, r, hq⟩ := irqPop_eq u
      rw [hq]
      exact ⟨hu.owner, hu.pending, hu.awaits⟩
    · exact ⟨hcongr u _ (by simp [SamePoll]) hK, hu.owner, hu.pending, hu.awaits⟩

/-! A full queue. -/

/-- While the PS holds the lock the CS has nothing pending (R24, R75). -/
theorem LockInv.pendCs_none {s : State} (h : LockInv s) (ho : s.owner = .ps) : s.pendCs = none := by
  obtain ⟨⟨-, hpend, -⟩, -⟩ := (lockInv_iff s).1 h
  by_contra hn
  cases ho.symm.trans (hpend hn)

/-- A running command past its first phase has transactions (R74). -/
theorem LockInv.transactions {s : State} (h : LockInv s) {i : Instr} (hb : s.cs = .busy) (hd : decode s.cmd = .ok i)
    (hp : s.phase ≠ .start) : i ≠ .pollStart ∧ i ≠ .pollStop := by
  obtain ⟨⟨-, -, hcmd⟩, -⟩ := (lockInv_iff s).1 h
  exact (hasTransactions_iff hd).1 (hcmd hb hp)

/-- Settles O43: on a full queue EMIT cannot move until the host pops or resets, and it keeps the lock the command waits
for. -/
theorem fullQueueHoldsTheBus : Obligations.FullQueueHoldsTheBus := by
  unfold Obligations.FullQueueHoldsTheBus
  intro i s t d hb hd hp hl hps hlist hdepth hfull hreset hnopop h
  have hi := hl.transactions hb hd (by simp [hp])
  obtain ⟨-, hown, hpend, -⟩ := (lockInv_iff s).1 hl
  have ho : s.owner = .ps := hown.2 (by simp [hps])
  obtain ⟨p, rest, hlist⟩ := List.exists_cons_of_ne_nil hlist
  have hn : s.pendPs = none := by simpa [psPending, hps] using hpend
  have hstuck (e : Event) (u : State) (he : e.isReset = false ∧ e ≠ .pop) (hu : SamePoll s u) :
      e.isReset = false ∧ PsStuck e u := by
    obtain ⟨hups, -, hul, hun, -, -, -, -, huq, -, hucfg⟩ := hu
    exact ⟨he.1, psTurn_full (hups.trans hps) (hul.trans hlist) (hucfg ▸ hdepth) (huq ▸ hfull), fun _ => hun.trans hn⟩
  obtain ⟨hsame, hheld⟩ := exec_held (K := SamePoll s) (E := fun e => e.isReset = false ∧ e ≠ .pop) hi
    (fun u v huv hu => hu.trans huv) (fun he => absurd rfl he.2) hstuck hb (.inr hp) ho (hl.pendCs_none ho)
    (fun e he => ⟨hreset e he, hnopop e he⟩) (by simp [SamePoll]) h
  have ⟨htps, _, _, _, _, _, _, _, htq, _⟩ := hsame
  rcases hheld.awaits with ⟨htb, htp⟩ | ⟨hstart, -⟩
  · exact ⟨htb, by simpa [hp] using htp, htps.trans hps, hheld.owner, htq⟩
  · cases hp.symm.trans hstart

/-! A read that never completes. -/

/-- The PS waits for the read it had issued in `s`; a stop request raised in `s` is still raised. -/
structure ReadHangs (s u : State) : Prop where
  lock : LockInv u
  ps : u.ps = s.ps
  pending : u.pendPs = s.pendPs
  stop : s.stopReq = true → u.stopReq = true

section
variable {s : State} (hps : s.ps = .flags ∨ s.ps = .ack)
include hps

theorem ReadHangs.owner {u : State} (h : ReadHangs s u) : u.owner = .ps := by
  obtain ⟨-, hown, -⟩ := (lockInv_iff u).1 h.lock
  exact hown.2 (by rw [h.ps]; exact hps.imp_right .inr)

theorem ReadHangs.pollRun {u : State} (h : ReadHangs s u) : u.pollRun = true := by
  obtain ⟨-, -, -, hrun⟩ := (lockInv_iff u).1 h.lock
  rcases hps with hp | hp <;> simp [hrun, h.ps, hp]

theorem ReadHangs.psStuck {u : State} (h : ReadHangs s u) {e : Event} (he : e.completesPs = false) : PsStuck e u :=
  ⟨psTurn_reading (by rwa [h.ps]), by simp [he]⟩

/-- A step keeps the read hanging if the CS's turn does. -/
theorem ReadHangs.agentStep {turn : State → State} {back : BusReturn → State → State} {e : Event} {u v : State}
    (h : ReadHangs s u) (hr : e.isReset = false) (he : e.completesPs = false) (hturn : ReadHangs s (turn u))
    (hstep : agentStep turn back e u = .next v) : ReadHangs s v := by
  rcases agentStep_psStuck (h.psStuck hps he) (h.lock.pendCs_none (h.owner hps)) hr hstep with
    rfl | rfl | ⟨-, rfl⟩ | ⟨m, rfl⟩
  · exact h
  · exact hturn
  · obtain ⟨q, r, hq⟩ := irqPop_eq u
    rw [hq]
    exact ⟨h.lock, h.ps, h.pending, h.stop⟩
  · exact ⟨h.lock, h.ps, h.pending, h.stop⟩

/-- No local step of the CS touches the hanging read: the loop runs, so POLL_START is refused, and POLL_STOP only raises
its request. -/
theorem ReadHangs.turnPart {i : Instr} {u : State} (h : ReadHangs s u) (hb : u.cs = .busy) (hd : decode u.cmd = .ok i) :
    ReadHangs s (turnPart i u) := by
  have hu := turnPart_leaves i u
  have hlock := lockInv_stepParts.turn i u _ h.lock hb hd (h.lock.pendCs_none (h.owner hps)) rfl hu
  rcases hu.samePoll_or with hsame | ⟨-, hrun, -⟩ | ⟨-, hstop⟩
  · obtain ⟨hps', -, -, hpend, -, hstop, -⟩ := hsame
    exact ⟨hlock, hps'.trans h.ps, hpend.trans h.pending, fun hs => hstop.trans (h.stop hs)⟩
  · simp [h.pollRun hps] at hrun
  · rw [hstop] at hlock ⊢
    exact ⟨hlock, h.ps, h.pending, fun _ => by simp [pollStopTurn, h.pollRun hps]⟩

theorem ReadHangs.step {t : State} (hl : LockInv s) (hreset : NoReset s.inputs)
    (hcomplete : ∀ e ∈ s.inputs, e.completesPs = false) (hstep : step s = .next t) : ReadHangs s t := by
  refine step_keeps (P := ReadHangs s) (E := fun e => e.isReset = false ∧ e.completesPs = false) ?_ ?_ ?_ ?_ ?_ s t
    (fun e he => ⟨hreset e he, hcomplete e he⟩) ⟨hl, rfl, rfl, id⟩ hstep
  · exact fun l u h => ⟨h.lock, h.ps, h.pending, h.stop⟩
  · exact fun w u h hi => ⟨lockInv_stepParts.accept w u h.lock hi, h.ps, h.pending, h.stop⟩
  · exact fun e u v he h _ hv => h.agentStep hps he.1 he.2 h hv
  · exact fun i e u v he h hb hd hv => h.agentStep hps he.1 he.2 (h.turnPart hps hb hd) hv
  · intro e u v he h hb hd hv
    have hlock := lockInv_stepParts.illegal u h.lock hb hd (h.lock.pendCs_none (h.owner hps))
    exact h.agentStep hps he.1 he.2 ⟨hlock, h.ps, h.pending, h.stop⟩ hv

/-- A command that has not acquired the lock waits while the read hangs. -/
theorem step_awaitsLock {t : State} (hl : LockInv s) (hreset : NoReset s.inputs)
    (hcomplete : ∀ e ∈ s.inputs, e.completesPs = false) (hstep : step s = .next t) (hb : s.cs = .busy)
    (hp : s.phase = .start ∨ s.phase = .acquire) (htx : hasTransactions s.cmd = true) : AwaitsLock s t := by
  obtain ⟨i, hd, hi⟩ := hasTransactions_decode htx
  have ho : s.owner = .ps := ReadHangs.owner hps ⟨hl, rfl, rfl, id⟩
  rw [step_busy s hb, runAccepted_ok hd] at hstep
  have hstuck (e : Event) (u : State) (he : e.isReset = false ∧ e.completesPs = false) (hu : u.ps = s.ps) :
      e.isReset = false ∧ PsStuck e u :=
    ⟨he.1, psTurn_reading (by rwa [hu]), by simp [he.2]⟩
  have hpop (u : State) (hu : u.ps = s.ps) : (irqPop u).ps = s.ps := by
    obtain ⟨q, r, hq⟩ := irqPop_eq u
    rw [hq]
    exact hu
  obtain ⟨-, hheld⟩ := exec_held (K := fun u => u.ps = s.ps) (E := fun e => e.isReset = false ∧ e.completesPs = false) hi
    (fun u v huv hu => huv.1.trans hu) (fun _ => hpop) hstuck hb hp ho (hl.pendCs_none ho)
    (fun e he => ⟨hreset e he, hcomplete e he⟩) rfl hstep
  exact hheld.awaits

end

/-- Settles O60: the PS has no local step in FLAGS and ACK, so without a completion nothing moves it; and it keeps the lock
a command with transactions needs. -/
theorem hungPollReadStallsTheLoop : Obligations.HungPollReadStallsTheLoop := by
  unfold Obligations.HungPollReadStallsTheLoop
  intro s t hl hps hreset hcomplete hstep
  have ht := ReadHangs.step hps hl hreset hcomplete hstep
  have hawaits := step_awaitsLock hps hl hreset hcomplete hstep
  obtain ⟨⟨-, -, hcmd⟩, -, hpend, -⟩ := (lockInv_iff s).1 hl
  have hissued : t.pendPs ≠ none := by
    rw [ht.pending, hpend]
    rcases hps with hp | hp <;> simp [psPending, hp]
  refine ⟨ht.ps, ht.pending, hissued, ht.owner hps, ht.pollRun hps, ht.stop, ht.lock.pendCs_none (ht.owner hps),
    fun hb hp => ?waits, fun hb hp htx => ?arrives⟩
  case waits =>
    rcases hawaits hb (.inr hp) (hcmd hb (by simp [hp])) with ⟨htb, htp⟩ | ⟨hstart, -⟩
    · exact ⟨htb, by simpa [hp] using htp⟩
    · cases hp.symm.trans hstart
  case arrives =>
    rcases hawaits hb (.inl hp) htx with ⟨htb, -⟩ | ⟨-, -, hcode⟩
    · exact .inl htb
    · exact .inr hcode

end Sys2Proof.Machine
end

section
/-! Proofs of 60_exceptions.md: no step stops the machine (R131, R71), and the errors raised before any transaction:
INVALID_PIN_INDEX (R136), ILLEGAL_COMMAND (R139) and NOT_INITIALIZED (R140). -/

namespace Sys2Proof.Machine

/-! Every step answers (R131). -/

theorem PendMapped.congr {s t : State} (h : PendMapped s) (hst : SameBus s t) : PendMapped t := by
  obtain ⟨-, hcfg, hc, hp⟩ := hst
  simpa only [PendMapped, hcfg, hc, hp] using h

/-- The CS issues only transactions that name a register (R71). -/
theorem PendMapped.turnPart {s : State} (h : PendMapped s) (i : Instr) : PendMapped (turnPart i s) := by
  rcases (turnPart_leaves i s).sameBus_or_issued with hsame | ⟨x, hx, hu⟩
  · exact h.congr hsame
  · rw [hu]
    exact ⟨mapped_of_issuable _ x hx, h.2⟩

theorem PendMapped.backPart {s : State} (h : PendMapped s) (i : Instr) (r : BusReturn) : PendMapped (backPart i r s) :=
  h.congr (backPart_leaves i r s).sameBus

section
variable {turn : State → State} {back : BusReturn → State → State}
  (hturn : ∀ s, PendMapped s → PendMapped (turn s)) (hback : ∀ r s, PendMapped s → PendMapped (back r s))
include hturn hback

/-- One agent's step answers a state of the same kind, if the CS's part in it leaves one. -/
theorem agentStep_answers_mapped {s : State} (h : PendMapped s) (e : Event) :
    ∃ t, agentStep turn back e s = .next t ∧ PendMapped t := by
  obtain ⟨t, ht⟩ := agentStep_answers h turn back e
  have ⟨_, hps⟩ := h
  exact ⟨t, ht, pendMapped_stepParts.agentStep e s t trivial h (fun _ => hturn s h)
    (fun _ m r _ _ _ => hback r (setPend .cs none (setMem m s)) ⟨rfl, hps⟩) ht⟩

/-- The run of a command answers, by the induction over its schedule. -/
theorem runCommand_answers_mapped {s : State} (h : PendMapped s) :
    ∃ t, runCommand turn back s = .next t ∧ PendMapped t := by
  cases hc : s.cs with
  | idle => exact ⟨s, runCommand_idle _ _ s hc, h⟩
  | busy =>
    rw [runCommand_busy _ _ s hc]
    exact drive_answers (fun _ _ hp => hp) (fun e _ hp _ => agentStep_answers_mapped hturn hback hp e) s.inputs s h hc

end

theorem runAccepted_error {s : State} {r : DecodeReject} (h : decode s.cmd = .error r) :
    runAccepted s = execIllegal s := by
  simp only [runAccepted, h]

theorem runAccepted_answers_mapped {s : State} (h : PendMapped s) :
    ∃ t, runAccepted s = .next t ∧ PendMapped t := by
  cases hd : decode s.cmd with
  | ok i =>
    rw [runAccepted_ok hd, exec_eq]
    exact runCommand_answers_mapped (fun _ hp => hp.turnPart i) (fun r _ hp => hp.backPart i r) h
  | error r =>
    rw [runAccepted_error hd]
    exact runCommand_answers_mapped (turn := raise .illegalCommand 0x00) (back := noReturn) (fun _ hp => hp)
      (fun _ _ hp => hp) h

theorem idleStep_answers_mapped {s : State} (h : PendMapped s) : ∃ t, idleStep s = .next t ∧ PendMapped t := by
  simp only [idleStep]
  split
  · exact ⟨s, rfl, h⟩
  · exact runAccepted_answers_mapped h
  · rename_i e es _ _
    exact agentStep_answers_mapped (s := setInputs es s) (turn := id) (back := noReturn) (fun _ hp => hp)
      (fun _ _ hp => hp) h e

/-- Settles O55: the only fault is a transaction at an address that is no register; none is pending, and the controller
issues none. -/
theorem everyStepAnswersANextState : Obligations.EveryStepAnswersANextState := by
  unfold Obligations.EveryStepAnswersANextState
  intro s h
  cases hc : s.cs with
  | busy => exact step_busy s hc ▸ runAccepted_answers_mapped h
  | idle => exact step_idle s hc ▸ idleStep_answers_mapped h

/-! An illegal command word (R139). -/

/-- Settles O7: the word is accepted, and the one local step of the CS raises the error with no lock to release. -/
theorem illegalWordEndsAsIllegalCommand : Obligations.IllegalWordEndsAsIllegalCommand := by
  unfold Obligations.IllegalWordEndsAsIllegalCommand
  intro s w es r hc hn ho hd hin
  have hfirst : agentStep (raise .illegalCommand 0x00) noReturn .csTurn (setInputs es (accept w s)) =
      .next (raise .illegalCommand 0x00 (setInputs es (accept w s))) := by
    simp only [agentStep, setInputs_pendCs, accept_pendCs, hn, if_true]
  refine ⟨raise .illegalCommand 0x00 (setInputs es (accept w s)), ?_, ?_⟩
  · calc step s = runAccepted (accept w (setInputs (.csTurn :: es) s)) := by rw [step_idle s hc, idleStep_submit hin]
      _ = execIllegal (accept w (setInputs (.csTurn :: es) s)) := runAccepted_error hd
      _ = drive (raise .illegalCommand 0x00) noReturn (.csTurn :: es) (accept w (setInputs (.csTurn :: es) s)) :=
        runCommand_busy _ _ _ rfl
      _ = _ := drive_cons _ _ _ es _ _ hfirst
  · rw [raise_of_owner_ne_cs (by exact ho)]
    apply noScratch_congr <;> simp [SameHandle, SamePoll, hc, ErrCode.code]

/-! Refusals in the first local step of a command (R136, R140). -/

/-- The pin commands share their checks (R97). -/
theorem turnPart_pin_start {i : Instr} {p : Nat} {s : State}
    (hi : i = .read p ∨ i = .setOn p ∨ i = .setOff p ∨ i = .toggle p ∨ i = .cfgInIrq p) (hph : s.phase = .start) :
    turnPart i s = pinStart p s := by
  rcases hi with rfl | rfl | rfl | rfl | rfl <;> simp only [turnPart, commandTurn, hph]

/-- Settles O17: every command named checks `ready` in its first local step, whatever its operand. -/
theorem notInitializedChangesOnlyTheResponse : Obligations.NotInitializedChangesOnlyTheResponse := by
  unfold Obligations.NotInitializedChangesOnlyTheResponse
  intro i s es hi hs hready hin
  have ⟨_, hph, _⟩ := hs
  refine exec_refused (e := .notInitialized) hs hin ?_
  rcases hi with ⟨p, hpin⟩ | rfl | rfl | ⟨rfl, hrun⟩
  · rw [turnPart_pin_start hpin hph, pinStart, if_pos hready]
  · simp only [turnPart, commandTurn, hph, allOnStart, if_pos hready]
  · simp only [turnPart, commandTurn, hph, allOffStart, if_pos hready]
  · simp [turnPart, pollStartTurn, hrun, hready]

/-- Settles O18: the check of the operand comes after the check of `ready`, and before the lock. -/
theorem invalidPinIndexChangesOnlyTheResponse : Obligations.InvalidPinIndexChangesOnlyTheResponse := by
  unfold Obligations.InvalidPinIndexChangesOnlyTheResponse
  intro i p s es hi hp hs hready hin
  have ⟨_, hph, _⟩ := hs
  have hillegal : legalPin p = false := by
    rw [Bool.eq_false_iff, Ne, legalPin_iff]
    omega
  refine exec_refused (e := .invalidPinIndex) hs hin ?_
  rw [turnPart_pin_start hi hph]
  simp [pinStart, hready, hillegal]

end Sys2Proof.Machine
end

section
/-! Proofs of 70_reset_and_hazards.md, the controller reset: the values it sets, and what the transactions it abandons leave
at the target (R158, R159). -/

namespace Sys2Proof.Machine

/-! What an abandoned transaction leaves at the target (R158). -/

theorem abandon_none (rm : RegMap) (took : Bool) (m : Memory) : abandon rm took m none = some m := rfl

/-- An abandoned write takes effect or not. -/
theorem abandon_write (rm : RegMap) (took : Bool) (m : Memory) (n : Reg) (v : Byte) :
    abandon rm took m (some (.write (rm.addr n) v)) = some (if took then m.write (regKey rm n) v else m) := by
  simp only [abandon, busRun_write_err]

/-- An abandoned read has an effect only if it is of INTCAP, and then clears INTF or not (R65). -/
theorem abandon_read {rm : RegMap} (hw : rm.wf) (took : Bool) (m : Memory) (n : Reg) :
    abandon rm took m (some (.read (rm.addr n))) =
      some (if took = true ∧ n = .intcap then m.write (regKey rm .intf) 0x00 else m) := by
  simp only [abandon, busRun_read_err rm hw]

/-- The state a reset leaves, but for the scratch of both sequencers (R21, R22, R158). -/
theorem noScratch_resetController (d : ResetDraw) (s : State) :
    { noScratch (resetController d s) with f := 0, emitList := [] } =
      { State.reset with mem := s.mem, cfg := s.cfg, hostPop := s.hostPop, inputs := s.inputs } := rfl

theorem status_resetController (d : ResetDraw) (s : State) : status (resetController d s) = 0 :=
  show status State.reset = 0 by decide

/-- Settles O46: the controller's elements are set outright, and the target is what the two abandoned transactions leave,
first the CS's and then the PS's. -/
theorem controllerResetSetsEveryElement : Obligations.ControllerResetSetsEveryElement := by
  unfold Obligations.ControllerResetSetsEveryElement
  intro turn back d s hs
  obtain ⟨t, ht⟩ := agentStep_answers hs turn back (.reset d)
  obtain ⟨m, m', hm, hm', rfl⟩ := hostReset_cases d s t ht
  refine ⟨_, m', ht, noScratch_resetController d (setMem m' s), status_resetController d (setMem m' s), rfl,
    fun hc hp => ?nothing, fun n hn hw hread => ?read, fun n v hc hp => ?write, fun hw hc hp => ?capture⟩
  case nothing =>
    obtain rfl : s.mem = m := by simpa [hc, abandon_none] using hm
    simpa [hp, abandon_none] using hm'.symm
  case read =>
    rcases hread with ⟨hc, hp⟩ | ⟨hc, hp⟩
    · obtain rfl : s.mem = m := by simpa [hc, abandon_read hw, hn] using hm
      simpa [hp, abandon_none] using hm'.symm
    · obtain rfl : s.mem = m := by simpa [hc, abandon_none] using hm
      simpa [hp, abandon_read hw, hn] using hm'.symm
  case write =>
    obtain rfl : m = m' := by simpa [hp, abandon_none] using hm'
    simpa [hc, abandon_write] using hm.symm
  case capture =>
    obtain rfl : s.mem = m := by simpa [hc, abandon_none] using hm
    simpa [hp, abandon_read hw] using hm'.symm

end Sys2Proof.Machine
end

section
/-! Proofs of 70_reset_and_hazards.md, the lost update: an environment step between a read and the write of the same
register leaves no trace, so the run is the one without it (R66, R164). -/

namespace Sys2Proof.Machine

/-! The register file after two writes, and after the writes of a list. -/

/-- A write below every listed address puts its byte first, unless it is 0x00. -/
theorem Memory.write_below {m : Memory} {a : Nat} (ha : ∀ c ∈ m, a < c.1) (v : Byte) :
    m.write a v = if v = Memory.blank then m else (a, v) :: m := by
  cases m with
  | nil => rfl
  | cons c m =>
    have hlt : a < c.1 := ha c (by simp)
    simp only [Memory.write, if_pos hlt]

/-- Of two writes at one address only the second is left. -/
theorem Memory.write_write {m : Memory} (h : m.wf) (a : Nat) (v w : Byte) : (m.write a v).write a w = m.write a w := by
  obtain ⟨hs, -⟩ := h
  induction m with
  | nil => by_cases hv : v = Memory.blank <;> simp [Memory.write, hv]
  | cons c m ih =>
    obtain ⟨b, x⟩ := c
    obtain ⟨hb, hs⟩ := List.pairwise_cons.1 hs
    rcases Nat.lt_trichotomy a b with hlt | rfl | hgt
    · by_cases hv : v = Memory.blank <;> simp [Memory.write, hlt, hv]
    · by_cases hv : v = Memory.blank
      · simp [Memory.write, hv, Memory.write_below hb]
      · simp [Memory.write, hv]
    · have hne : a ≠ b := by omega
      have hge : ¬ a < b := by omega
      simp only [Memory.write, hne, hge, if_false, ih hs]

theorem writeAll_wf (rm : RegMap) (g : Reg → Byte) (l : List Reg) {m : Memory} (hm : m.wf) : (writeAll rm g l m).wf := by
  induction l generalizing m with
  | nil => exact hm
  | cons n l ih => exact ih (Memory.write_wf m hm _ _)

theorem writeAll_read_mem {rm : RegMap} (hw : rm.wf) (g : Reg → Byte) {l : List Reg} {n : Reg} (hn : n ∈ l) {m : Memory}
    (hm : m.wf) : (writeAll rm g l m).read (regKey rm n) = g n := by
  induction l generalizing m with
  | nil => cases hn
  | cons k l ih =>
    by_cases hl : n ∈ l
    · exact ih hl (Memory.write_wf m hm _ _)
    · obtain rfl : n = k := by simpa [hl] using hn
      have hlater : ∀ r ∈ l, regKey rm r ≠ regKey rm n := fun r hr => regKey_ne rm hw (by rintro rfl; exact hl hr)
      exact (writeAll_read_other hlater g _).trans (Memory.read_write_same m hm _ _)

/-! The environment's step before the CS's write. -/

/-- No command looks at the target but through its transactions. -/
theorem txnPart_setMem (i : Instr) (m : Memory) (s : State) : txnPart i (setMem m s) = txnPart i s := by
  cases i <;> rfl

section
variable {i : Instr} {n : Reg} {b : Byte} (hi : i ≠ .pollStart ∧ i ≠ .pollStop)

theorem runThrough_env {s : State} (hb : s.cs = .busy) (n : Reg) (b : Byte) (es : List Event) :
    runThrough i (.env n b :: es) s = runThrough i es (envWrite n b s) := by
  have hstep : agentStep (turnPart i) (backPart i) (.env n b) (setInputs es s) = .next (setInputs es (envWrite n b s)) :=
    rfl
  rw [runThrough, drive_cons _ _ _ es s _ hstep, if_neg (by simp [envWrite, hb])]
  exact runThrough_setInputs i es es (envWrite n b s)

include hi

/-- What TE sets a register to just before the CS writes it is lost. -/
theorem runThrough_env_lost {s : State} (hs : AtTxn s) (hm : s.mem.wf) {v : Byte}
    (hx : txnPart i s = some (.write (s.cfg.regAddr.addr n) v)) (es : List Event) :
    runThrough i (.env n b :: .csTurn :: .complete .cs .ok :: es) s =
      runThrough i (.csTurn :: .complete .cs .ok :: es) s := by
  have ⟨hb, _, _, _⟩ := hs
  have hat : AtTxn (envWrite n b s) := hs
  have hxe : txnPart i (envWrite n b s) = some (.write (s.cfg.regAddr.addr n) v) := (txnPart_setMem i _ s).trans hx
  have hwrite : busRun s.cfg.regAddr (envWrite n b s).mem (.write (s.cfg.regAddr.addr n) v) .ok =
      some (s.mem.write (regKey s.cfg.regAddr n) v, .wrote) := by
    rw [busRun_write_ok, envWrite, setMem_mem, Memory.write_write hm]
  rw [runThrough_env hb, runThrough_complete hi hat hxe hwrite, runThrough_complete hi hs hx (busRun_write_ok _ _ n v)]
  rfl

/-- A command that reaches its write of a register in `u`, whatever the schedule is, ends on the schedule with TE's step
before that write as it does on the one without. -/
theorem exec_servedAround {s u : State} {j k : Nat} {es : List Event}
    (h : ∀ l, Reaches i (setInputs l s) j (setInputs l u)) (hm : u.mem.wf) {v : Byte}
    (hx : txnPart i u = some (.write (u.cfg.regAddr.addr n) v))
    (hin : s.inputs = servedAround j (.env n b) (k + 1) ++ es) :
    exec i s = exec i (setInputs (served (j + (k + 1)) ++ es) s) := by
  have hat : AtTxn u := (h []).1
  have hrun : ∀ l rest, l = [.csTurn, .csTurn] ++ okTxns j ++ rest → exec i (setInputs l s) = runThrough i rest u :=
    fun l rest hl => ((h l).2 rest hl).trans (runThrough_setInputs i rest l u)
  have hsplit : okTxns (j + (k + 1)) = okTxns j ++ .csTurn :: .complete .cs .ok :: okTxns k := by
    simp [okTxns, List.replicate_add, List.replicate_succ]
  calc exec i s = runThrough i (.env n b :: .csTurn :: .complete .cs .ok :: (okTxns k ++ [.csTurn, .csTurn] ++ es)) u :=
        hrun s.inputs _ (by simp [hin, servedAround, okTxns, List.replicate_succ])
    _ = runThrough i (.csTurn :: .complete .cs .ok :: (okTxns k ++ [.csTurn, .csTurn] ++ es)) u :=
        runThrough_env_lost hi hat hm hx _
    _ = exec i (setInputs (served (j + (k + 1)) ++ es) s) := (hrun _ _ (by simp [served, hsplit])).symm

end

/-! The two kinds of command at their writes. -/

/-- A single-pin mutation has read PORT and is about to write it. -/
theorem PinMutation.reaches_write {p : Nat} {i : Instr} {g : Byte → Byte} {s : State} (h : PinMutation p i g) (hp : p ≤ 7)
    (hs : Accepted s) (hready : s.ready = true) (ho : s.owner = .free) (hw : s.cfg.regAddr.wf) (l : List Event) :
    Reaches i (setInputs l s) 1 (setInputs l (pinAt s 1 (s.target .port) s.mem)) := by
  obtain ⟨hi, hturn, htxn, hback, -⟩ := h.parts
  have ⟨_, hph, _⟩ := hs
  have hstart : turnPart i (setInputs l s) = setPhase .acquire (setInputs l s) := by
    simp [hturn, commandTurn, hph, pinStart_passes hp, hready]
  have h0 := reaches_pinAt_zero (s := setInputs l s) hi hs ho hstart
  exact h0.pinAt_read hi hback hw (n := .port) (by decide) (by rw [htxn]; rfl)

/-- CFG_IN_IRQ has read the `k`-th register and is about to write it. -/
theorem reaches_cfgAt_write {p k : Nat} {n : Reg} {s : State} (hn : cfgOrder[k]? = some n) (hp : p ≤ 7) (hs : Accepted s)
    (hready : s.ready = true) (ho : s.owner = .free) (hw : s.cfg.regAddr.wf) (l : List Event) :
    Reaches (.cfgInIrq p) (setInputs l s) (2 * k + 1) (setInputs l (cfgAt p (2 * k + 1) (s.target n) s)) := by
  obtain ⟨hk, -⟩ := List.getElem?_eq_some_iff.1 hn
  simp only [cfgOrder, List.length_cons, List.length_nil] at hk
  obtain ⟨v, h, hv⟩ := reaches_cfgAt (s := setInputs l s) (k := 2 * k + 1) hp hs hready ho hw (by omega)
  obtain rfl := hv (by omega) n (by rwa [show (2 * k + 1) / 2 = k by omega])
  exact h

/-- A single-pin mutation overwrites what TE has set PORT to since its read. -/
theorem PinMutation.loses_update {p : Nat} {i : Instr} {g : Byte → Byte} {b : Byte} {s : State} {es : List Event}
    (h : PinMutation p i g) (hp : p ≤ 7) (hs : Accepted s) (hready : s.ready = true) (ho : s.owner = .free)
    (hw : s.cfg.regAddr.wf) (hm : s.mem.wf) (hin : s.inputs = servedAround 1 (.env .port b) 1 ++ es) :
    RunsTo i s { s with
      cs := .idle, resp := ⟨0, 0, 0⟩, inputs := es,
      mem := s.mem.write (regKey s.cfg.regAddr .port) (g (s.target .port)) } := by
  obtain ⟨hi, -, htxn, -, -⟩ := h.parts
  have hwrite : txnPart i (pinAt s 1 (s.target .port) s.mem) =
      some (.write (s.cfg.regAddr.addr .port) (g (s.target .port))) := by rw [htxn]; rfl
  have hsame := exec_servedAround hi (h.reaches_write hp hs hready ho hw) hm hwrite hin
  rw [RunsTo, hsame]
  exact (h.ends (s := setInputs (served 2 ++ es) s) hp hs hready ho hw).1 rfl

/-- CFG_IN_IRQ overwrites what TE has set a register to since its read. -/
theorem cfgInIrq_loses_update {p k : Nat} {n : Reg} {b : Byte} {s : State} {es : List Event} (hn : cfgOrder[k]? = some n)
    (hp : p ≤ 7) (hs : Accepted s) (hready : s.ready = true) (ho : s.owner = .free) (hw : s.cfg.regAddr.wf)
    (hm : s.mem.wf) (hin : s.inputs = servedAround (2 * k + 1) (.env n b) (7 - 2 * k) ++ es) :
    RunsTo (.cfgInIrq p) s { s with
      cs := .idle, resp := ⟨0, 0, 0⟩, inputs := es,
      mem := writeAll s.cfg.regAddr (fun n => s.target n ||| (1 : Byte) <<< p) cfgOrder s.mem } := by
  obtain ⟨hk, -⟩ := List.getElem?_eq_some_iff.1 hn
  simp only [cfgOrder, List.length_cons, List.length_nil] at hk
  have hleft : 7 - 2 * k = 6 - 2 * k + 1 := by omega
  have hall : 2 * k + 1 + (6 - 2 * k + 1) = 8 := by omega
  have hwrite := cfgTxn_cfgAt (p := p) (k := 2 * k + 1) (v := s.target n) (s := s) (n := n)
    (by rwa [show (2 * k + 1) / 2 = k by omega])
  rw [if_neg (by omega)] at hwrite
  rw [hleft] at hin
  have hsame := exec_servedAround (by simp) (reaches_cfgAt_write hn hp hs hready ho hw) (writeAll_wf _ _ _ hm) hwrite hin
  rw [hall] at hsame
  rw [RunsTo, hsame]
  exact cfgInIrqConfiguresThePin p (setInputs (served 8 ++ es) s) es hp hs hready ho hw hm rfl

/-- What a run ends with, but for the CS scratch. -/
theorem RunsTo.ends {i : Instr} {s u : State} (h : RunsTo i s u) :
    ∃ t, exec i s = .next t ∧ t.cs = u.cs ∧ t.resp = u.resp ∧ ∀ n, t.target n = u.target n := by
  obtain ⟨t, hrun, ht⟩ := h
  obtain ⟨_, _, _, _, _, _, rfl⟩ := eq_of_noScratch_eq ht
  exact ⟨_, hrun, rfl, rfl, fun _ => rfl⟩

/-- Settles O19: both kinds of command end as they do without TE's step, with the value computed from the byte read. -/
theorem setOnLosesAnUpdateInBetween : Obligations.SetOnLosesAnUpdateInBetween := by
  unfold Obligations.SetOnLosesAnUpdateInBetween
  intro p b s es hp hs hready ho hw hm
  refine ⟨fun i g hi hin => ?mutation, fun k n hn hin => ?config⟩
  case mutation =>
    obtain ⟨t, hrun, hcs, hresp, htarget⟩ := (PinMutation.loses_update hi hp hs hready ho hw hm hin).ends
    exact ⟨t, hrun, hcs, hresp, (htarget .port).trans (Memory.read_write_same s.mem hm _ _)⟩
  case config =>
    obtain ⟨t, hrun, hcs, hresp, htarget⟩ := (cfgInIrq_loses_update hn hp hs hready ho hw hm hin).ends
    have hwritten := writeAll_read_mem hw (fun r => s.target r ||| (1 : Byte) <<< p) (List.mem_of_getElem? hn) hm
    exact ⟨t, hrun, hcs, hresp, (htarget n).trans hwritten⟩

end Sys2Proof.Machine
end
